-- ==== Sys2Proof/Word.lean ====
section
/-!
DEFINITION. The word types of ZLEQ-DSP (00_scope.md R7, 30_encoding.md R80): a command is a 32-bit header and a
64-bit operand, a result is a 64-bit word, and bit 0 is the least significant bit of each.
-/

namespace Sys2Proof

/-- An operand, a result, or a stored floating-point encoding. A binary32 value is carried zero-extended (R8). -/
abbrev Word := BitVec 64

/-- A command header `H` (R81). -/
abbrev Header := BitVec 32

/-- One byte of a serialised command (R61). -/
abbrev Byte := BitVec 8

end Sys2Proof
end

