-- ==== Sys2Proof/Config.lean ====
section
/-!
DEFINITION. What an implementation fixes (00_scope.md R6) and the free values of the model.

The numeric OPEN parameters are plain data (`Params`), held in a field of the state that no step writes, so that a
statement about every state is a statement about every choice of them. The three OPEN function families `flog10`,
`fexp` and `SHAPE` are chosen between the spec's reference instance and an uninterpreted one (log 3, log 4). The
`opaque` constants have no body: nothing can evaluate them.
-/

namespace Sys2Proof

/-- The processing sample type `FT` (R6, R8). -/
inductive Fmt where
  | binary32
  | binary64
  deriving DecidableEq, Repr

/-- Which instance of an OPEN function the implementation has (R6, R11, R184). -/
inductive FnChoice where
  /-- The reference instance the spec states. -/
  | reference
  /-- Some other legal instance: an uninterpreted function that keeps what the rule asks of every instance. -/
  | other
  deriving DecidableEq, Repr

/-- The OPEN parameters of R6. The three real constants are held as the `FT` words `F(c)` the rules use (log 12). -/
structure Params where
  /-- `FT`. -/
  fmt : Fmt
  /-- `NBAND`, 1..16. -/
  nband : Nat
  /-- `K_MAX`, 1..256. -/
  kMax : Nat
  /-- `W_MAX`, at least 1. -/
  wMax : Nat
  /-- `MAXBLK_MAX`, at least 1. -/
  maxblkMax : Nat
  /-- `F(KNEE_EPS)`. -/
  kneeEps : Word
  /-- `F(KNEE_TAU)`. -/
  kneeTau : Word
  /-- `F(LOUD_FLOOR_DB)`. -/
  loudFloor : Word
  /-- The instance of `flog10`. -/
  flog10 : FnChoice
  /-- The instance of `fexp`. -/
  fexp : FnChoice
  /-- The instance of `SHAPE[0..4]`. -/
  shape : FnChoice
  deriving DecidableEq, Repr

namespace Config

/-- Free value (log 5): sign and payload of the NaN that an operation produces. The first argument names the command
(a counter of the state), the second the place of the operation inside it, so every produced NaN is a draw of its
own (R9: "a model takes it as a draw"). -/
opaque nanDraw : Nat → List Nat → Word

/-- Free value (log 6): which port moves when both have a next command and the environment's list of settled
choices says nothing (R67; true stands for port A). The argument is the counter of the state. -/
opaque freePort : Nat → Bool

/-- Free values (log 3): the split points from which an uninterpreted monotone function is built, one function for
`flog10` and one for `fexp`. -/
opaque flog10Split : Fmt → List Bool → Int

/-- See `flog10Split`. -/
opaque fexpSplit : Fmt → List Bool → Int

/-- Free value (log 3): the sign of a zero result of an uninterpreted `flog10` or `fexp`, which R11 leaves open away
from the operands it names. The first argument tells the two functions apart. -/
opaque zeroSign : Bool → Fmt → Word → Bool

/-- Free value (log 3): which NaN `flog10` or `fexp` answers on an operand for which R11 asks for "a NaN". -/
opaque fnNaN : Bool → Fmt → Word → Word

/-- Free value (log 4): an uninterpreted `SHAPE[style](d)` (R184). -/
opaque shapeRaw : Fmt → Nat → Word → Word

end Config

end Sys2Proof
end

