-- ==== Sys2Proof/Syntax.lean ====
section
/-!
DEFINITION. The command set of ZLEQ-DSP (30_encoding.md R80 to R84): the ports, a command as a port delivers it, the 31
opcodes and the 31 commands, one constructor per row of `spec/opcode_table.json`.
-/

namespace Sys2Proof

/-- The two command ports (20_memory.md R66). -/
inductive Port where
  /-- Port A, the audio agent. -/
  | a
  /-- Port C, the control agents. -/
  | c
  deriving DecidableEq, Repr

/-- A command as a port delivers it: the header word `H` and the operand word `D` (R7, R80). -/
structure Cmd where
  h : Header
  d : Word
  deriving DecidableEq, Repr

/-- The rows of the opcode map (R84). -/
inductive Op where
  | nop | cfgWr | prepare | run | stop | blk | rdStat | rdLat | prWr | rdPend
  | bqWrc | bqWrn | bqCommit | bqRstreq | bqReset | bqProc | bqSnap | bqRds
  | rmsAcc | rmsPush | rmsGet | rmsReset
  | knEval | foStep | foReset | dyRun
  | osWrt | osUp | osWr | osDown | osReset
  deriving DecidableEq, Repr

/-- The commands, with the header fields they use (R84, `used fields`) and, where the operand class is not `none`,
the operand word `D`. Fields hold what the header holds; a range is checked when the command runs (R253). -/
inductive Instr where
  /-- `NOP` (R101). -/
  | nop
  /-- `CFG.WR` (R102): `sub` is the register id. -/
  | cfgWr (bnd chs : BitVec 4) (sub : BitVec 8) (d : Word)
  /-- `PREPARE` (R103). -/
  | prepare
  /-- `RUN` (R104). -/
  | run
  /-- `STOP` (R105). -/
  | stop
  /-- `BLK b` (R106). -/
  | blk (b : BitVec 4)
  /-- `RD.STAT` (R107). -/
  | rdStat
  /-- `RD.LAT` (R108). -/
  | rdLat
  /-- `PR.WR` (R110): `sub` is the parameter id. -/
  | prWr (b : BitVec 4) (sub : BitVec 8) (d : Word)
  /-- `RD.PEND b` (R109). -/
  | rdPend (b : BitVec 4)
  /-- `BQ.WRC` (R121): `idx` is the section, `sub` the coefficient selector. -/
  | bqWrc (b : BitVec 4) (idx sub : BitVec 8) (d : Word)
  /-- `BQ.WRN` (R122). -/
  | bqWrn (b : BitVec 4) (d : Word)
  /-- `BQ.COMMIT` (R123): `r` is `sub[0]`. -/
  | bqCommit (b : BitVec 4) (r : Bool)
  /-- `BQ.RSTREQ` (R124). -/
  | bqRstreq (b : BitVec 4)
  /-- `BQ.RESET` (R125). -/
  | bqReset (b : BitVec 4)
  /-- `BQ.PROC` (R126): `c` is the channel. -/
  | bqProc (b c : BitVec 4) (d : Word)
  /-- `BQ.SNAP` (R132). -/
  | bqSnap (b : BitVec 4)
  /-- `BQ.RDS` (R133): `idx` is the section, `sub` the selector. -/
  | bqRds (b : BitVec 4) (idx sub : BitVec 8)
  /-- `RMS.ACC` (R151). -/
  | rmsAcc (b : BitVec 4) (d : Word)
  /-- `RMS.PUSH` (R152). -/
  | rmsPush (b : BitVec 4)
  /-- `RMS.GET` (R154). -/
  | rmsGet (b : BitVec 4)
  /-- `RMS.RESET` (R155). -/
  | rmsReset (b : BitVec 4)
  /-- `KN.EVAL` (R169). -/
  | knEval (b : BitVec 4) (d : Word)
  /-- `FO.STEP` (R185). -/
  | foStep (b : BitVec 4) (d : Word)
  /-- `FO.RESET` (R186). -/
  | foReset (b : BitVec 4)
  /-- `DY.RUN` (R196). -/
  | dyRun (b : BitVec 4)
  /-- `OS.WRT` (R202): `st` is the stage, `idx` the tap, `sub` the path selector. -/
  | osWrt (st : BitVec 4) (idx sub : BitVec 8) (d : Word)
  /-- `OS.UP` (R207). -/
  | osUp (c : BitVec 4) (d : Word)
  /-- `OS.WR` (R208). -/
  | osWr (c : BitVec 4) (d : Word)
  /-- `OS.DOWN` (R209). -/
  | osDown (c : BitVec 4)
  /-- `OS.RESET` (R211). -/
  | osReset
  deriving DecidableEq, Repr

/-- The row of the opcode map a command belongs to. -/
def Instr.op : Instr → Op
  | .nop => .nop
  | .cfgWr .. => .cfgWr
  | .prepare => .prepare
  | .run => .run
  | .stop => .stop
  | .blk .. => .blk
  | .rdStat => .rdStat
  | .rdLat => .rdLat
  | .prWr .. => .prWr
  | .rdPend .. => .rdPend
  | .bqWrc .. => .bqWrc
  | .bqWrn .. => .bqWrn
  | .bqCommit .. => .bqCommit
  | .bqRstreq .. => .bqRstreq
  | .bqReset .. => .bqReset
  | .bqProc .. => .bqProc
  | .bqSnap .. => .bqSnap
  | .bqRds .. => .bqRds
  | .rmsAcc .. => .rmsAcc
  | .rmsPush .. => .rmsPush
  | .rmsGet .. => .rmsGet
  | .rmsReset .. => .rmsReset
  | .knEval .. => .knEval
  | .foStep .. => .foStep
  | .foReset .. => .foReset
  | .dyRun .. => .dyRun
  | .osWrt .. => .osWrt
  | .osUp .. => .osUp
  | .osWr .. => .osWr
  | .osDown .. => .osDown
  | .osReset => .osReset

end Sys2Proof
end

