-- ==== Sys2Proof/WellFormed.lean ====
section
/-!
DEFINITION. Well-formed commands: the three `sub`-dependent must-be-zero conditions of 30_encoding.md R85 (60 R251,
`FIELD`), the only conditions on the header fields that a row's mask does not state. Every other field holds any
value its bits admit. Whether a field is in range depends on the state and is checked when the command runs (R253).
-/

namespace Sys2Proof

/-- `CFG.WR`: `bnd` is zero unless `sub = 3` (R85). -/
def cfgBandFieldOk (bnd : BitVec 4) (sub : BitVec 8) : Bool := bnd == 0 || sub == 3

/-- `CFG.WR`: `chs` is zero unless `sub` is 4 or 5 (R85). -/
def cfgStageFieldOk (chs : BitVec 4) (sub : BitVec 8) : Bool := chs == 0 || sub == 4 || sub == 5

/-- `OS.WRT`: `idx` is zero when `sub` is 2 or 3, since the centre taps have no index (R85). -/
def tapIndexFieldOk (idx sub : BitVec 8) : Bool := idx == 0 || !(sub == 2 || sub == 3)

/-- `BQ.RDS`: `idx` is zero when `sub = 5`, since the section count has no section (R85). -/
def snapIndexFieldOk (idx sub : BitVec 8) : Bool := idx == 0 || !(sub == 5)

/-- The `sub`-dependent must-be-zero conditions of R85 hold. -/
def Instr.wellFormed : Instr → Bool
  | .cfgWr bnd chs sub _ => cfgBandFieldOk bnd sub && cfgStageFieldOk chs sub
  | .osWrt _ idx sub _ => tapIndexFieldOk idx sub
  | .bqRds _ idx sub => snapIndexFieldOk idx sub
  | .nop | .prepare | .run | .stop | .blk _ | .rdStat | .rdLat | .prWr .. | .rdPend _ => true
  | .bqWrc .. | .bqWrn .. | .bqCommit .. | .bqRstreq _ | .bqReset _ | .bqProc .. | .bqSnap _ => true
  | .rmsAcc .. | .rmsPush _ | .rmsGet _ | .rmsReset _ | .knEval .. | .foStep .. | .foReset _ => true
  | .dyRun _ | .osUp .. | .osWr .. | .osDown _ | .osReset => true

end Sys2Proof
end

