-- ==== Sys2Proof/Decode.lean ====
section
/-!
DEFINITION. The opcode map (30_encoding.md R84, R85; 60_exceptions.md R259), the decoder, total on every pair of words and
rejecting by name (R86, R87), the encoder, and the serialisation to bytes (20_memory.md R61).
-/

namespace Sys2Proof

/-! ### The opcode map -/

/-- The opcodes in the order of R84. -/
def Op.all : List Op :=
  [.nop, .cfgWr, .prepare, .run, .stop, .blk, .rdStat, .rdLat, .prWr, .rdPend, .bqWrc, .bqWrn,
   .bqCommit, .bqRstreq, .bqReset, .bqProc, .bqSnap, .bqRds, .rmsAcc, .rmsPush, .rmsGet, .rmsReset,
   .knEval, .foStep, .foReset, .dyRun, .osWrt, .osUp, .osWr, .osDown, .osReset]

/-- The mnemonic (R84). -/
def Op.mnemonic : Op → String
  | .nop => "NOP"
  | .cfgWr => "CFG.WR"
  | .prepare => "PREPARE"
  | .run => "RUN"
  | .stop => "STOP"
  | .blk => "BLK"
  | .rdStat => "RD.STAT"
  | .rdLat => "RD.LAT"
  | .prWr => "PR.WR"
  | .rdPend => "RD.PEND"
  | .bqWrc => "BQ.WRC"
  | .bqWrn => "BQ.WRN"
  | .bqCommit => "BQ.COMMIT"
  | .bqRstreq => "BQ.RSTREQ"
  | .bqReset => "BQ.RESET"
  | .bqProc => "BQ.PROC"
  | .bqSnap => "BQ.SNAP"
  | .bqRds => "BQ.RDS"
  | .rmsAcc => "RMS.ACC"
  | .rmsPush => "RMS.PUSH"
  | .rmsGet => "RMS.GET"
  | .rmsReset => "RMS.RESET"
  | .knEval => "KN.EVAL"
  | .foStep => "FO.STEP"
  | .foReset => "FO.RESET"
  | .dyRun => "DY.RUN"
  | .osWrt => "OS.WRT"
  | .osUp => "OS.UP"
  | .osWr => "OS.WR"
  | .osDown => "OS.DOWN"
  | .osReset => "OS.RESET"

/-- `op`, bits 31:24 of the header (R84). -/
def Op.code : Op → BitVec 8
  | .nop => 0x00
  | .cfgWr => 0x01
  | .prepare => 0x02
  | .run => 0x03
  | .stop => 0x04
  | .blk => 0x05
  | .rdStat => 0x06
  | .rdLat => 0x07
  | .prWr => 0x08
  | .rdPend => 0x09
  | .bqWrc => 0x10
  | .bqWrn => 0x11
  | .bqCommit => 0x12
  | .bqRstreq => 0x13
  | .bqReset => 0x14
  | .bqProc => 0x15
  | .bqSnap => 0x16
  | .bqRds => 0x17
  | .rmsAcc => 0x20
  | .rmsPush => 0x21
  | .rmsGet => 0x22
  | .rmsReset => 0x23
  | .knEval => 0x30
  | .foStep => 0x40
  | .foReset => 0x41
  | .dyRun => 0x50
  | .osWrt => 0x60
  | .osUp => 0x61
  | .osWr => 0x62
  | .osDown => 0x63
  | .osReset => 0x64

/-- `match` (R85). -/
def Op.pattern : Op → Header
  | .nop => 0x00000000
  | .cfgWr => 0x01000000
  | .prepare => 0x02000000
  | .run => 0x03000000
  | .stop => 0x04000000
  | .blk => 0x05000000
  | .rdStat => 0x06000000
  | .rdLat => 0x07000000
  | .prWr => 0x08000000
  | .rdPend => 0x09000000
  | .bqWrc => 0x10000000
  | .bqWrn => 0x11000000
  | .bqCommit => 0x12000000
  | .bqRstreq => 0x13000000
  | .bqReset => 0x14000000
  | .bqProc => 0x15000000
  | .bqSnap => 0x16000000
  | .bqRds => 0x17000000
  | .rmsAcc => 0x20000000
  | .rmsPush => 0x21000000
  | .rmsGet => 0x22000000
  | .rmsReset => 0x23000000
  | .knEval => 0x30000000
  | .foStep => 0x40000000
  | .foReset => 0x41000000
  | .dyRun => 0x50000000
  | .osWrt => 0x60000000
  | .osUp => 0x61000000
  | .osWr => 0x62000000
  | .osDown => 0x63000000
  | .osReset => 0x64000000

/-- `mask` (R85): ones in bits 31:24 and in every bit the command does not use. -/
def Op.mask : Op → Header
  | .nop => 0xFFFFFFFF
  | .cfgWr => 0xFF00FF00
  | .prepare => 0xFFFFFFFF
  | .run => 0xFFFFFFFF
  | .stop => 0xFFFFFFFF
  | .blk => 0xFF0FFFFF
  | .rdStat => 0xFFFFFFFF
  | .rdLat => 0xFFFFFFFF
  | .prWr => 0xFF0FFF00
  | .rdPend => 0xFF0FFFFF
  | .bqWrc => 0xFF0F0000
  | .bqWrn => 0xFF0FFFFF
  | .bqCommit => 0xFF0FFFFE
  | .bqRstreq => 0xFF0FFFFF
  | .bqReset => 0xFF0FFFFF
  | .bqProc => 0xFF00FFFF
  | .bqSnap => 0xFF0FFFFF
  | .bqRds => 0xFF0F0000
  | .rmsAcc => 0xFF0FFFFF
  | .rmsPush => 0xFF0FFFFF
  | .rmsGet => 0xFF0FFFFF
  | .rmsReset => 0xFF0FFFFF
  | .knEval => 0xFF0FFFFF
  | .foStep => 0xFF0FFFFF
  | .foReset => 0xFF0FFFFF
  | .dyRun => 0xFF0FFFFF
  | .osWrt => 0xFFF00000
  | .osUp => 0xFFF0FFFF
  | .osWr => 0xFFF0FFFF
  | .osDown => 0xFFF0FFFF
  | .osReset => 0xFFFFFFFF

/-- The operand class is `none`: `D` must be zero (R82). -/
def Op.noOperand : Op → Bool
  | .nop => true
  | .cfgWr => false
  | .prepare => true
  | .run => true
  | .stop => true
  | .blk => true
  | .rdStat => true
  | .rdLat => true
  | .prWr => false
  | .rdPend => true
  | .bqWrc => false
  | .bqWrn => false
  | .bqCommit => true
  | .bqRstreq => true
  | .bqReset => true
  | .bqProc => false
  | .bqSnap => true
  | .bqRds => true
  | .rmsAcc => false
  | .rmsPush => true
  | .rmsGet => true
  | .rmsReset => true
  | .knEval => false
  | .foStep => false
  | .foReset => true
  | .dyRun => true
  | .osWrt => false
  | .osUp => false
  | .osWr => false
  | .osDown => true
  | .osReset => true

/-- The mode condition of a command (R84, `when`). -/
inductive When where
  | always
  | stopped
  | running
  | stoppedAndPrepared
  deriving DecidableEq, Repr

/-- The only port the command is legal on; `none`: both (R259). -/
def Op.port : Op → Option Port
  | .nop => none
  | .cfgWr => some .c
  | .prepare => some .c
  | .run => some .c
  | .stop => some .c
  | .blk => some .a
  | .rdStat => none
  | .rdLat => some .c
  | .prWr => some .c
  | .rdPend => none
  | .bqWrc => some .c
  | .bqWrn => some .c
  | .bqCommit => some .c
  | .bqRstreq => some .c
  | .bqReset => some .a
  | .bqProc => some .a
  | .bqSnap => some .c
  | .bqRds => some .c
  | .rmsAcc => some .a
  | .rmsPush => some .a
  | .rmsGet => some .a
  | .rmsReset => some .a
  | .knEval => some .a
  | .foStep => some .a
  | .foReset => some .a
  | .dyRun => some .a
  | .osWrt => some .c
  | .osUp => some .a
  | .osWr => some .a
  | .osDown => some .a
  | .osReset => some .a

/-- The mode condition (R259). -/
def Op.when : Op → When
  | .nop => .always
  | .cfgWr => .stopped
  | .prepare => .stopped
  | .run => .stoppedAndPrepared
  | .stop => .running
  | .blk => .running
  | .rdStat => .always
  | .rdLat => .always
  | .prWr => .always
  | .rdPend => .always
  | .bqWrc => .always
  | .bqWrn => .always
  | .bqCommit => .always
  | .bqRstreq => .always
  | .bqReset => .running
  | .bqProc => .running
  | .bqSnap => .always
  | .bqRds => .always
  | .rmsAcc => .running
  | .rmsPush => .running
  | .rmsGet => .running
  | .rmsReset => .running
  | .knEval => .running
  | .foStep => .running
  | .foReset => .running
  | .dyRun => .running
  | .osWrt => .stopped
  | .osUp => .running
  | .osWr => .running
  | .osDown => .running
  | .osReset => .running

/-- The opcode with a given `op` field, if one is assigned (R86). -/
def Op.ofCode (x : BitVec 8) : Option Op := Op.all.find? fun o => o.code == x

/-! ### Header fields (R81) -/

/-- The header with the given fields. -/
def mkHeader (op : BitVec 8) (bnd chs : BitVec 4) (idx sub : BitVec 8) : Header := op ++ bnd ++ chs ++ idx ++ sub

/-- `H[31:24]`. -/
def hdrOp (h : Header) : BitVec 8 := h.extractLsb' 24 8

/-- `H[23:20]`. -/
def hdrBnd (h : Header) : BitVec 4 := h.extractLsb' 20 4

/-- `H[19:16]`. -/
def hdrChs (h : Header) : BitVec 4 := h.extractLsb' 16 4

/-- `H[15:8]`. -/
def hdrIdx (h : Header) : BitVec 8 := h.extractLsb' 8 8

/-- `H[7:0]`. -/
def hdrSub (h : Header) : BitVec 8 := h.extractLsb' 0 8

/-! ### Decoding (R85 to R87) -/

/-- What the decoder answers. -/
inductive Decoded where
  /-- A command of one row. -/
  | ok (i : Instr)
  /-- `op` is not assigned (R86): fault `ILLEGAL`. -/
  | illegal
  /-- A known `op`, with a bit set that the row requires to be zero, or `D` not zero where there is no operand (R86):
  fault `FIELD`, unless the port is wrong (R253). -/
  | reserved (o : Op)
  deriving DecidableEq, Repr

/-- The command of a row, its fields read from the words as they stand (R82). -/
def Op.build (o : Op) (c : Cmd) : Instr :=
  let bnd := hdrBnd c.h
  let chs := hdrChs c.h
  let idx := hdrIdx c.h
  let sub := hdrSub c.h
  match o with
  | .nop => .nop
  | .cfgWr => .cfgWr bnd chs sub c.d
  | .prepare => .prepare
  | .run => .run
  | .stop => .stop
  | .blk => .blk bnd
  | .rdStat => .rdStat
  | .rdLat => .rdLat
  | .prWr => .prWr bnd sub c.d
  | .rdPend => .rdPend bnd
  | .bqWrc => .bqWrc bnd idx sub c.d
  | .bqWrn => .bqWrn bnd c.d
  | .bqCommit => .bqCommit bnd (sub.getLsbD 0)
  | .bqRstreq => .bqRstreq bnd
  | .bqReset => .bqReset bnd
  | .bqProc => .bqProc bnd chs c.d
  | .bqSnap => .bqSnap bnd
  | .bqRds => .bqRds bnd idx sub
  | .rmsAcc => .rmsAcc bnd c.d
  | .rmsPush => .rmsPush bnd
  | .rmsGet => .rmsGet bnd
  | .rmsReset => .rmsReset bnd
  | .knEval => .knEval bnd c.d
  | .foStep => .foStep bnd c.d
  | .foReset => .foReset bnd
  | .dyRun => .dyRun bnd
  | .osWrt => .osWrt chs idx sub c.d
  | .osUp => .osUp chs c.d
  | .osWr => .osWr chs c.d
  | .osDown => .osDown chs
  | .osReset => .osReset

/-- Decodes a command (R85 to R87). -/
def decode (c : Cmd) : Decoded :=
  match Op.ofCode (hdrOp c.h) with
  | none => .illegal
  | some o =>
    if c.h &&& o.mask ≠ o.pattern ∨ (o.noOperand = true ∧ c.d ≠ 0) then .reserved o
    else .ok (o.build c)

/-! ### Encoding -/

/-- The header fields and the operand word of a command; what it does not use is zero (R81). -/
structure Fields where
  bnd : BitVec 4 := 0
  chs : BitVec 4 := 0
  idx : BitVec 8 := 0
  sub : BitVec 8 := 0
  d : Word := 0
  deriving DecidableEq, Repr

/-- The fields of a command. -/
def Instr.fields : Instr → Fields
  | .nop => {}
  | .cfgWr bnd chs sub d => { bnd := bnd, chs := chs, sub := sub, d := d }
  | .prepare => {}
  | .run => {}
  | .stop => {}
  | .blk b => { bnd := b }
  | .rdStat => {}
  | .rdLat => {}
  | .prWr b sub d => { bnd := b, sub := sub, d := d }
  | .rdPend b => { bnd := b }
  | .bqWrc b idx sub d => { bnd := b, idx := idx, sub := sub, d := d }
  | .bqWrn b d => { bnd := b, d := d }
  | .bqCommit b r => { bnd := b, sub := if r then 1 else 0 }
  | .bqRstreq b => { bnd := b }
  | .bqReset b => { bnd := b }
  | .bqProc b c d => { bnd := b, chs := c, d := d }
  | .bqSnap b => { bnd := b }
  | .bqRds b idx sub => { bnd := b, idx := idx, sub := sub }
  | .rmsAcc b d => { bnd := b, d := d }
  | .rmsPush b => { bnd := b }
  | .rmsGet b => { bnd := b }
  | .rmsReset b => { bnd := b }
  | .knEval b d => { bnd := b, d := d }
  | .foStep b d => { bnd := b, d := d }
  | .foReset b => { bnd := b }
  | .dyRun b => { bnd := b }
  | .osWrt st idx sub d => { chs := st, idx := idx, sub := sub, d := d }
  | .osUp c d => { chs := c, d := d }
  | .osWr c d => { chs := c, d := d }
  | .osDown c => { chs := c }
  | .osReset => {}

/-- The header of a command: what a fault records in `ERR_CMD` (R251). -/
def Instr.header (i : Instr) : Header :=
  mkHeader i.op.code i.fields.bnd i.fields.chs i.fields.idx i.fields.sub

/-- The words of a command. -/
def encode (i : Instr) : Cmd := { h := i.header, d := i.fields.d }

/-! ### Serialisation (R61): little-endian, header bytes first, 12 bytes a command, 8 bytes a result -/

/-- The bytes of a word, the least significant first. -/
def bytesLE (n : Nat) : Nat → List Byte
  | 0 => []
  | k + 1 => BitVec.ofNat 8 n :: bytesLE (n / 256) k

/-- The number whose bytes these are, the least significant first. -/
def ofBytesLE : List Byte → Nat
  | [] => 0
  | b :: rest => b.toNat + 256 * ofBytesLE rest

/-- The 12 bytes of a command. -/
def Cmd.toBytes (c : Cmd) : List Byte := bytesLE c.h.toNat 4 ++ bytesLE c.d.toNat 8

/-- The command at the head of a byte sequence, and the bytes after it; none if there are fewer than 12. -/
def Cmd.ofBytes (bs : List Byte) : Option (Cmd × List Byte) :=
  if bs.length < 12 then none
  else some ({ h := BitVec.ofNat 32 (ofBytesLE (bs.take 4)),
               d := BitVec.ofNat 64 (ofBytesLE ((bs.drop 4).take 8)) }, bs.drop 12)

/-- The 8 bytes of a result word. -/
def resultBytes (w : Word) : List Byte := bytesLE w.toNat 8

/-- The command whose bits are `w`: bits 31:0 the header, bits 95:32 the operand. -/
def Cmd.ofBits (w : Nat) : Cmd := { h := BitVec.ofNat 32 w, d := BitVec.ofNat 64 (w / 2 ^ 32) }

/-- The instruction the decoder reads from an instruction whose bits are `w`, every bit from `nbits` on zero. -/
def decodeTableWord (nbits w : Nat) : Option Instr :=
  match decode (Cmd.ofBits (w % 2 ^ nbits)) with
  | .ok i => some i
  | .illegal => none
  | .reserved _ => none

end Sys2Proof
end

