-- ==== Sys2Proof/Machine/Bank.lean ====
section
/-!
DEFINITION. Index spaces (10_state.md R40): whole elements reached by an index. A bank lists the elements that are not +0, the
index strictly rising; an element that is not listed is +0, the reset value of every one (R42). The form is
canonical: two banks that hold the same elements are the same list.
-/

namespace Sys2Proof.Machine

/-- An index space of words. -/
abbrev Bank := List (Nat × Word)

/-- The element at an index. -/
def Bank.read : Bank → Nat → Word
  | [], _ => 0
  | (k, v) :: rest, i => if k = i then v else Bank.read rest i

/-- Takes an element out, so that it reads as +0. -/
def Bank.erase (b : Bank) (i : Nat) : Bank := b.filter fun e => e.1 != i

/-- Puts an entry in its place by its index. -/
def Bank.insert : Bank → Nat → Word → Bank
  | [], i, x => [(i, x)]
  | (k, v) :: rest, i, x => if i < k then (i, x) :: (k, v) :: rest else (k, v) :: Bank.insert rest i x

/-- Writes one element. Writing +0 takes the entry out. -/
def Bank.write (b : Bank) (i : Nat) (x : Word) : Bank :=
  if x = 0 then Bank.erase b i else Bank.insert (Bank.erase b i) i x

/-- Writes consecutive elements from an index on. -/
def Bank.writeList : Bank → Nat → List Word → Bank
  | b, _, [] => b
  | b, i, x :: xs => Bank.writeList (Bank.write b i x) (i + 1) xs

/-- The elements `i .. i + n - 1`. -/
def Bank.slice (b : Bank) (i : Nat) : Nat → List Word
  | 0 => []
  | n + 1 => Bank.read b i :: Bank.slice b (i + 1) n

/-- Where a delay line's shift by one takes an entry: up by one inside the first `n`, out at their end, unmoved
beyond. -/
def Bank.shiftEntry (n : Nat) (e : Nat × Word) : Option (Nat × Word) :=
  if e.1 + 1 < n then some (e.1 + 1, e.2) else if e.1 < n then none else some e

/-- A delay line's step over its first `n` elements (46 R203, R204): `for i from n-1 down to 1: L[i] <- L[i-1]`, then
`L[0] <- x`. -/
def Bank.shiftIn (b : Bank) (n : Nat) (x : Word) : Bank := Bank.write (b.filterMap (Bank.shiftEntry n)) 0 x

/-- The canonical form of an index space: indices from `lo` on strictly rising and below `size`, no element +0. -/
def Bank.wfFrom (size : Nat) : Nat → Bank → Bool
  | _, [] => true
  | lo, (k, v) :: rest => decide (lo ≤ k) && decide (k < size) && decide (v ≠ 0) && Bank.wfFrom size (k + 1) rest

/-- The canonical form of an index space of `size` elements. -/
def Bank.wf (size : Nat) (b : Bank) : Bool := Bank.wfFrom size 0 b

end Sys2Proof.Machine
end

