-- ==== Sys2Proof/Machine/Float.lean ====
section
/-!
DEFINITION. IEEE 754 binary32 and binary64 (00_scope.md R8 to R10) on encodings: every operation computes the exact
value over the integers and rounds once, to nearest with ties to even; nothing is fused, subnormals are kept, no flag
is raised. A value of either format is carried in a 64-bit word, a binary32 encoding in bits 31:0 (R8).
-/

namespace Sys2Proof.Machine

/-! ### The two formats (R8) -/

/-- Number of exponent bits. -/
def expBits : Fmt → Nat
  | .binary32 => 8
  | .binary64 => 11

/-- Number of fraction bits. -/
def fracBits : Fmt → Nat
  | .binary32 => 23
  | .binary64 => 52

/-- Width of an encoding; its top bit is the sign. -/
def width (f : Fmt) : Nat := 1 + expBits f + fracBits f

/-- Exponent of the least subnormal: -149 or -1074. -/
def minExp (f : Fmt) : Int := 2 - (2 ^ (expBits f - 1) : Nat) - fracBits f

/-- The magnitude bits (all but the sign) of an infinity. -/
def infMag (f : Fmt) : Nat := (2 ^ expBits f - 1) * 2 ^ fracBits f

/-- The sign bit's weight. -/
def signWeight (f : Fmt) : Nat := 2 ^ (width f - 1)

/-- The sign bit of an encoding. -/
def signBit (f : Fmt) (w : Word) : Bool := w.toNat / signWeight f % 2 == 1

/-- The magnitude bits of an encoding: exponent and fraction fields together. -/
def magBits (f : Fmt) (w : Word) : Nat := w.toNat % signWeight f

/-- The word of a sign and magnitude bits, zero-extended to 64 bits (R8). -/
def pack (f : Fmt) (neg : Bool) (mag : Nat) : Word :=
  BitVec.ofNat 64 (mag % signWeight f + if neg then signWeight f else 0)

/-- The word holds an encoding of the format and nothing above it: bits 63:32 of a binary32 word are zero (R8). -/
def inFormat (f : Fmt) (w : Word) : Bool := w.toNat < 2 ^ width f

/-- A word read as an encoding: for binary32 bits 63:32 are ignored on input (R8). -/
def toFormat (f : Fmt) (w : Word) : Word := BitVec.ofNat 64 (w.toNat % 2 ^ width f)

/-- `isnan` (R10). -/
def isNaN (f : Fmt) (w : Word) : Bool := infMag f < magBits f w

/-- The word is an infinity. -/
def isInf (f : Fmt) (w : Word) : Bool := magBits f w == infMag f

/-- `isfinite` (R10). -/
def isFinite (f : Fmt) (w : Word) : Bool := magBits f w < infMag f

/-- The word is +0 or -0. -/
def isZero (f : Fmt) (w : Word) : Bool := magBits f w == 0

/-- An infinity. -/
def infinity (f : Fmt) (neg : Bool) : Word := pack f neg (infMag f)

/-- A zero. -/
def zero (f : Fmt) (neg : Bool) : Word := pack f neg 0

/-- The quiet NaN whose sign and payload are those of `w` (R9: which NaN an operation gives is a draw). -/
def quietNaN (f : Fmt) (w : Word) : Word :=
  pack f (signBit f w) (infMag f + 2 ^ (fracBits f - 1) + w.toNat % 2 ^ (fracBits f - 1))

/-- Some NaN, quiet or not, made from the bits of `w`. -/
def anyNaN (f : Fmt) (w : Word) : Word :=
  let frac := w.toNat % 2 ^ fracBits f
  pack f (signBit f w) (infMag f + if frac = 0 then 2 ^ (fracBits f - 1) else frac)

/-! ### The value of an encoding and rounding -/

/-- The significand of a finite encoding: its value is `± significand · 2 ^ exponent`. -/
def significand (f : Fmt) (w : Word) : Nat :=
  let mag := magBits f w
  if mag < 2 ^ fracBits f then mag else 2 ^ fracBits f + mag % 2 ^ fracBits f

/-- See `significand`. -/
def exponent (f : Fmt) (w : Word) : Int :=
  let ex := magBits f w / 2 ^ fracBits f
  minExp f + if ex = 0 then 0 else (ex : Int) - 1

/-- Number of bits of a positive integer. -/
def bitLength (n : Nat) : Nat := if n = 0 then 0 else Nat.log2 n + 1

/-- `m / 2 ^ sh` rounded to the nearest integer, ties to even; `sticky` says that the exact value lies strictly
between `m` and `m + 1`. -/
def shiftRoundEven (m sh : Nat) (sticky : Bool) : Nat :=
  let q := m / 2 ^ sh
  let r := m % 2 ^ sh
  let up :=
    if sh = 0 then false
    else if 2 * r < 2 ^ sh then false
    else if 2 ^ sh < 2 * r then true
    else sticky || q % 2 == 1
  if up then q + 1 else q

/-- The magnitude bits of the value `m · 2 ^ e` (with `sticky`: of a value strictly between that and
`(m + 1) · 2 ^ e`) rounded to nearest, ties to even; a value beyond the largest finite one rounds to infinity (R9). With
`sticky` the callers give `m` at least two bits more than the format's precision. -/
def roundMag (f : Fmt) (m : Nat) (e : Int) (sticky : Bool) : Nat :=
  if m = 0 then 0
  else
    let q := max (e + bitLength m - (fracBits f + 1)) (minExp f)
    let r :=
      if q ≤ e then m * 2 ^ (e - q).toNat
      else shiftRoundEven m (q - e).toNat sticky
    min ((q - minExp f).toNat * 2 ^ fracBits f + r) (infMag f)

/-- A sign and an exact value `m · 2 ^ e` rounded to the format. -/
def roundTo (f : Fmt) (neg : Bool) (m : Nat) (e : Int) (sticky : Bool) : Word :=
  pack f neg (roundMag f m e sticky)

/-! ### Where an operation stands, and the NaN it draws -/

/-- The arithmetic of a command: the format, and the name under which its operations draw NaNs (log 5). -/
structure Fpu where
  fmt : Fmt
  now : Nat
  place : List Nat
  deriving DecidableEq, Repr

/-- The arithmetic at a place inside this one. -/
def Fpu.at (u : Fpu) (n : Nat) : Fpu := { u with place := n :: u.place }

/-- The same place, in binary64 (R9: `dadd`, `dsub`, ...). -/
def Fpu.dbl (u : Fpu) : Fpu := { u with fmt := .binary64 }

/-- The quiet NaN that operation number `t` of this place produces: a free draw (R9). -/
def Fpu.nan (u : Fpu) (t : Nat) : Word := quietNaN u.fmt (Config.nanDraw u.now (t :: u.place))

/-! ### Operations (R9). The number `t` is the operation's place and only names its NaN draw. -/

/-- `fneg`: flips the sign bit. -/
def fneg (f : Fmt) (a : Word) : Word := pack f (!signBit f a) (magBits f a)

/-- `fabs`: clears the sign bit. -/
def fabs (f : Fmt) (a : Word) : Word := pack f false (magBits f a)

/-- The signed significand at the smaller of two exponents. -/
def alignedInt (f : Fmt) (a : Word) (e : Int) : Int :=
  let m : Int := (significand f a * 2 ^ (exponent f a - e).toNat : Nat)
  if signBit f a then -m else m

/-- The sum of two finite values, rounded once. A sum of opposite values is +0; a sum of two zeros of one sign keeps
it. -/
def addFinite (f : Fmt) (a b : Word) : Word :=
  let e := min (exponent f a) (exponent f b)
  let v := alignedInt f a e + alignedInt f b e
  if v = 0 then zero f (signBit f a && signBit f b)
  else roundTo f (decide (v < 0)) v.natAbs e false

/-- `fadd`. -/
def fadd (u : Fpu) (t : Nat) (a b : Word) : Word :=
  let f := u.fmt
  if isNaN f a || isNaN f b then u.nan t
  else if isInf f a then
    if isInf f b && signBit f a != signBit f b then u.nan t else infinity f (signBit f a)
  else if isInf f b then infinity f (signBit f b)
  else addFinite f a b

/-- `fsub`: the sum with the negated second operand. -/
def fsub (u : Fpu) (t : Nat) (a b : Word) : Word := fadd u t a (fneg u.fmt b)

/-- `fmul`. -/
def fmul (u : Fpu) (t : Nat) (a b : Word) : Word :=
  let f := u.fmt
  let neg := signBit f a != signBit f b
  if isNaN f a || isNaN f b then u.nan t
  else if isInf f a || isInf f b then
    if isZero f a || isZero f b then u.nan t else infinity f neg
  else roundTo f neg (significand f a * significand f b) (exponent f a + exponent f b) false

/-- The quotient of two finite values, the second not zero, rounded once: enough quotient bits and whether a
remainder is left. -/
def divFinite (f : Fmt) (neg : Bool) (a b : Word) : Word :=
  let k := 2 * fracBits f + 6
  let n := significand f a * 2 ^ k
  let d := significand f b
  roundTo f neg (n / d) (exponent f a - exponent f b - k) (n % d != 0)

/-- `fdiv`. -/
def fdiv (u : Fpu) (t : Nat) (a b : Word) : Word :=
  let f := u.fmt
  let neg := signBit f a != signBit f b
  if isNaN f a || isNaN f b then u.nan t
  else if isInf f a then
    if isInf f b then u.nan t else infinity f neg
  else if isInf f b then zero f neg
  else if isZero f b then
    if isZero f a then u.nan t else infinity f neg
  else if isZero f a then zero f neg
  else divFinite f neg a b

/-- The integer square root of `n` below `2 ^ i`, added to `r` bit by bit from the top. -/
def sqrtBits (n : Nat) : Nat → Nat → Nat
  | 0, r => r
  | i + 1, r => sqrtBits n i (if (r + 2 ^ i) * (r + 2 ^ i) ≤ n then r + 2 ^ i else r)

/-- The square root of a positive finite value, rounded once. -/
def sqrtFinite (f : Fmt) (a : Word) : Word :=
  let e := exponent f a
  let k := 2 * fracBits f + 8 + (e % 2).toNat
  let n := significand f a * 2 ^ k
  let r := sqrtBits n (2 * fracBits f + 8) 0
  roundTo f false r ((e - k) / 2) (r * r != n)

/-- `fsqrt`. -/
def fsqrt (u : Fpu) (t : Nat) (a : Word) : Word :=
  let f := u.fmt
  if isNaN f a then u.nan t
  else if isZero f a then zero f (signBit f a)
  else if signBit f a then u.nan t
  else if isInf f a then infinity f false
  else sqrtFinite f a

/-- `narrow`: a binary64 value converted to the format; the identity for binary64, a NaN stays a NaN. -/
def narrow (u : Fpu) (t : Nat) (w : Word) : Word :=
  match u.fmt with
  | .binary64 => w
  | .binary32 =>
    if isNaN .binary64 w then u.nan t
    else if isInf .binary64 w then infinity .binary32 (signBit .binary64 w)
    else roundTo .binary32 (signBit .binary64 w) (significand .binary64 w) (exponent .binary64 w) false

/-- `ofInt` (R9), and `F(c)` for a non-negative integer constant `c` (R8). -/
def ofInt (f : Fmt) (n : Nat) : Word := roundTo f false n 0 false

/-! ### Comparisons (R10) -/

/-- The order of the values that are no NaN: -0 and +0 are one value. -/
def orderKey (f : Fmt) (w : Word) : Int :=
  if signBit f w then -(magBits f w : Int) else magBits f w

/-- `a < b`: false when either operand is a NaN. -/
def flt (f : Fmt) (a b : Word) : Bool := !isNaN f a && !isNaN f b && decide (orderKey f a < orderKey f b)

/-- `a <= b`. -/
def fle (f : Fmt) (a b : Word) : Bool := !isNaN f a && !isNaN f b && decide (orderKey f a ≤ orderKey f b)

/-- `a > b`. -/
def fgt (f : Fmt) (a b : Word) : Bool := flt f b a

/-- `a >= b`. -/
def fge (f : Fmt) (a b : Word) : Bool := fle f b a

/-- `a == b`. -/
def feq (f : Fmt) (a b : Word) : Bool := !isNaN f a && !isNaN f b && decide (orderKey f a = orderKey f b)

/-- `fmin2` (R10): not the IEEE 754 minimum; the second operand when either is a NaN. -/
def fmin2 (f : Fmt) (a b : Word) : Word := if flt f a b then a else b

/-- `fmax2` (R10). -/
def fmax2 (f : Fmt) (a b : Word) : Word := if fgt f a b then a else b

end Sys2Proof.Machine
end

