-- ==== Sys2Proof/Machine/Functions.lean ====
section
/-!
DEFINITION. The OPEN functions `flog10`, `fexp` (00_scope.md R11) and `SHAPE[0..4]` (44_envelope_follower.md R184).

Each has the spec's reference instance, and an uninterpreted instance that keeps what the rule asks of every
instance: the special values, the range and monotonicity of `flog10` and `fexp`, the finiteness of `SHAPE`
(which the reference table itself does not keep at large distances: log 15).
-/

namespace Sys2Proof.Machine

/-! ### An uninterpreted monotone function (log 3)

A walk down the bits of the operand's position in the order of the values, the most significant first. At each bit the
range of results still allowed is split at a free point: the lower half of the operands gets the lower part. Every
choice of the split points gives a monotone function, and every monotone function is had by some choice. -/

/-- The bits of `n` below `2 ^ k`, the most significant first. -/
def bitsFrom (n : Nat) : Nat → List Bool
  | 0 => []
  | k + 1 => n.testBit k :: bitsFrom n k

/-- `x` moved into the range `lo .. hi`. -/
def clampInt (lo hi x : Int) : Int := max lo (min hi x)

/-- The walk: the remaining bits, the bits already taken, and the range of results still allowed. -/
def monotoneWalk (split : List Bool → Int) : List Bool → List Bool → Int → Int → Int
  | [], path, lo, hi => clampInt lo hi (split path)
  | true :: rest, path, lo, hi => monotoneWalk split rest (true :: path) (clampInt lo hi (split path)) hi
  | false :: rest, path, lo, hi => monotoneWalk split rest (false :: path) lo (clampInt lo hi (split path))

/-- The word whose place in the order of the values is `z`; the sign of a zero is given. -/
def ofOrderKey (f : Fmt) (zeroNeg : Bool) (z : Int) : Word :=
  pack f (if z = 0 then zeroNeg else decide (z < 0)) z.natAbs

/-- An uninterpreted `flog10` on a positive finite operand: monotone, at most 0 below 1 and at least 0 above. -/
def flog10Other (f : Fmt) (a : Word) : Word :=
  let one := magBits f (ofInt f 1)
  let bits := bitsFrom (magBits f a) (width f - 1)
  let z :=
    if magBits f a < one then monotoneWalk (Config.flog10Split f) bits [] (-(infMag f : Int)) 0
    else monotoneWalk (Config.flog10Split f) bits [] 0 (infMag f)
  ofOrderKey f (Config.zeroSign true f a) z

/-- An uninterpreted `fexp` on a finite operand that is not zero: monotone, in 0 .. 1 below 0 and at least 1 above. A
negative operand's position counts from the other end, so that a greater operand has a greater position. -/
def fexpOther (f : Fmt) (a : Word) : Word :=
  let one := magBits f (ofInt f 1)
  let z :=
    if signBit f a then
      monotoneWalk (Config.fexpSplit f) (false :: bitsFrom (infMag f - magBits f a) (width f - 1)) [] 0 one
    else monotoneWalk (Config.fexpSplit f) (true :: bitsFrom (magBits f a) (width f - 1)) [] one (infMag f)
  ofOrderKey f (Config.zeroSign false f a) z

/-! ### The correctly rounded reference of `flog10` and `fexp` (R11)

Fixed-point arithmetic with `fixBits` fraction bits. An approximation with its error bound is rounded at both ends of
its interval; where the two ends round alike that is the correctly rounded result. -/

/-- Fraction bits of the fixed-point numbers. -/
def fixBits : Nat := 256

/-- Number of terms of a series. -/
def seriesTerms : Nat := 96

/-- Bound on the error of an approximation, in units of `2 ^ -fixBits`: 32 bits are given away, far more than the
series and the divisions below lose. -/
def fixError : Nat := 2 ^ 32

/-- The odd series `z + z³/3 + z⁵/5 + ...` from its term `power / index` on; `z2` is the square of `z`. -/
def atanhSeries (z2 : Nat) : Nat → Nat → Nat → Nat → Nat
  | 0, _, _, acc => acc
  | n + 1, power, index, acc =>
    atanhSeries z2 n (power * z2 / 2 ^ fixBits) (index + 2) (acc + power / index)

/-- `2 · atanh (num / den)`, that is `ln ((den + num) / (den - num))`, for `num / den` at most 1/3. -/
def twoAtanh (num den : Nat) : Nat :=
  let z := num * 2 ^ fixBits / den
  2 * atanhSeries (z * z / 2 ^ fixBits) seriesTerms z 1 0

/-- `ln 2`. -/
def fixLn2 : Nat := twoAtanh 1 3

/-- `ln 10 = 3 · ln 2 + ln (5/4)`. -/
def fixLn10 : Nat := 3 * fixLn2 + twoAtanh 1 9

/-- `ln` of the positive value `m · 2 ^ e`: the significand is brought to 1 .. 2. -/
def fixLn (m : Nat) (e : Int) : Int :=
  let k := bitLength m - 1
  (e + k) * fixLn2 + twoAtanh (m - 2 ^ k) (m + 2 ^ k)

/-- `log10` of the positive value `m · 2 ^ e`. -/
def fixLog10 (m : Nat) (e : Int) : Int := fixLn m e * 2 ^ fixBits / fixLn10

/-- The exponential series from its term `term` (number `n`) on, for an operand `r`. -/
def expSeries (r : Nat) : Nat → Nat → Nat → Nat → Nat
  | 0, _, _, acc => acc
  | k + 1, n, term, acc => expSeries r k (n + 1) (term * r / 2 ^ fixBits / n) (acc + term)

/-- A signed fixed-point number times `2 ^ k`, rounded to the format. -/
def roundFix (f : Fmt) (x : Int) (k : Int) : Word :=
  roundTo f (decide (x < 0)) x.natAbs (k - fixBits) false

/-- The value near `x · 2 ^ k` rounded: both ends of its interval must round alike, else `other` stands for the
result (log 3). -/
def roundInterval (f : Fmt) (x k : Int) (other : Word) : Word :=
  let lo := roundFix f (x - fixError) k
  if lo = roundFix f (x + fixError) k then lo else other

/-- The correctly rounded `log10` of a positive finite operand. -/
def flog10Reference (f : Fmt) (a : Word) : Word :=
  roundInterval f (fixLog10 (significand f a) (exponent f a)) 0 (flog10Other f a)

/-- The fixed-point number at or below `± m · 2 ^ e`. -/
def toFix (neg : Bool) (m : Nat) (e : Int) : Int :=
  let sh := e + fixBits
  let x : Int := if sh ≥ 0 then (m * 2 ^ sh.toNat : Nat) else (m / 2 ^ (-sh).toNat : Nat)
  if neg then -x else x

/-- The correctly rounded exponential of a finite operand that is not zero. Beyond 2048 in magnitude it overflows or
underflows in both formats. -/
def fexpReference (f : Fmt) (a : Word) : Word :=
  if exponent f a + bitLength (significand f a) > 11 then
    if signBit f a then zero f false else infinity f false
  else
    let x := toFix (signBit f a) (significand f a) (exponent f a)
    let k := x / (fixLn2 : Int)
    let r := (x - k * fixLn2).toNat
    roundInterval f (expSeries r seriesTerms 1 (2 ^ fixBits) 0) k (fexpOther f a)

/-! ### The functions -/

/-- `flog10` (R11). -/
def flog10 (p : Params) (a : Word) : Word :=
  let f := p.fmt
  if isNaN f a then anyNaN f (Config.fnNaN true f a)
  else if isZero f a then infinity f true
  else if signBit f a then anyNaN f (Config.fnNaN true f a)
  else if isInf f a then infinity f false
  else if magBits f a = magBits f (ofInt f 1) then zero f false
  else match p.flog10 with
    | .reference => flog10Reference f a
    | .other => flog10Other f a

/-- `fexp` (R11). -/
def fexp (p : Params) (a : Word) : Word :=
  let f := p.fmt
  if isNaN f a then anyNaN f (Config.fnNaN false f a)
  else if isZero f a then ofInt f 1
  else if isInf f a then (if signBit f a then zero f false else infinity f false)
  else match p.fexp with
    | .reference => fexpReference f a
    | .other => fexpOther f a

/-- The reference table of `SHAPE` (R184). Styles beyond 4 cannot be stored (R110).

DESIGN CHOICE, unsafe (log 15): R184 asks that every instance be finite for a finite distance, but the products of its own
table overflow to an infinity in styles 1 and 2 for a large finite distance. The model follows the table, so the reference
instance is not finite there. -/
def shapeReference (u : Fpu) (style : Nat) (d : Word) : Word :=
  match style with
  | 0 => d
  | 1 => fmul u 0 d d
  | 2 => fmul u 1 (fmul u 0 d d) d
  | 3 => fsqrt u 0 (fabs u.fmt d)
  | _ => ofInt u.fmt 1

/-- An uninterpreted `SHAPE[style]`: a function of the style and the distance, finite where the distance is. -/
def shapeOther (f : Fmt) (style : Nat) (d : Word) : Word :=
  let r := toFormat f (Config.shapeRaw f style d)
  if isFinite f d && !isFinite f r then zero f false else r

/-- `SHAPE[style](d)` (R184): the reference table (log 15) or an uninterpreted function (log 4). -/
def shape (p : Params) (u : Fpu) (style : Nat) (d : Word) : Word :=
  match p.shape with
  | .reference => shapeReference u style d
  | .other => shapeOther u.fmt style d

end Sys2Proof.Machine
end

