-- ==== Sys2Proof/Machine/Params.lean ====
section
/-!
DEFINITION. The default values of the OPEN parameters and the values that are legal (00_scope.md R6).
-/

namespace Sys2Proof.Machine

/-- The defaults of R6, which the test vectors use, for one sample type (`FT` itself has no default; log 1). -/
def defaultParams (f : Fmt) : Params where
  fmt := f
  nband := 1
  kMax := 64
  wMax := 131072
  maxblkMax := 8192
  kneeEps := roundTo f false 1 (-10) false
  kneeTau := ofInt f 24
  loudFloor := fneg f (ofInt f 240)
  flog10 := .reference
  fexp := .reference
  shape := .reference

/-- The ranges of R6: `NBAND` 1..16, `K_MAX` 1..256, `W_MAX` and `MAXBLK_MAX` at least 1, `KNEE_EPS` and `KNEE_TAU`
positive, `LOUD_FLOOR_DB` negative, each a finite value of the format. -/
def paramsLegal (p : Params) : Bool :=
  decide (1 ≤ p.nband) && decide (p.nband ≤ 16) && decide (1 ≤ p.kMax) && decide (p.kMax ≤ 256)
    && decide (1 ≤ p.wMax) && decide (1 ≤ p.maxblkMax)
    && inFormat p.fmt p.kneeEps && isFinite p.fmt p.kneeEps && fgt p.fmt p.kneeEps 0
    && inFormat p.fmt p.kneeTau && isFinite p.fmt p.kneeTau && fgt p.fmt p.kneeTau 0
    && inFormat p.fmt p.loudFloor && isFinite p.fmt p.loudFloor && flt p.fmt p.loudFloor 0

end Sys2Proof.Machine
end

