-- ==== Sys2Proof/Machine/State.lean ====
section
/-!
DEFINITION. The state of ZLEQ-DSP (10_state.md) as plain data, the reasons a step can stop, and the state after hardware reset
(R42, R275).
-/

namespace Sys2Proof.Machine

/-- Why a step of the model stops. A fault of the block itself (60_exceptions.md R250) is no stop: it is a next state with `ERR` set. -/
inductive Fault where
  /-- Raised by `step` when neither port has a next command and no reset is due: the run is over (20_memory.md R76), and R67
  gives no step. Safe: the block is idle and keeps its state (R260), so nothing the hardware does is left out
  (log 9). -/
  | runOver
  deriving DecidableEq, Repr

/-- Why an instruction has no meaning. No command of this model answers with one. -/
inductive Refusal where
  /-- An arm of `exec` that has no meaning yet. None is left; the constructor is part of the host's interface. Safe. -/
  | notModelled (mnemonic : String)
  deriving DecidableEq, Repr

/-- What the environment does next, as far as it is settled (log 6, log 10). -/
inductive Input where
  /-- The port whose next command runs, where both have one (R67). -/
  | port (p : Port)
  /-- The reset input is asserted (70_reset_and_hazards.md R275). -/
  | reset
  deriving DecidableEq, Repr

/-- The topology of a band, `CFG_TOPO[b]` (R24): 0 and 1. -/
inductive Topology where
  | tdf2
  | svf
  deriving DecidableEq, Repr

/-- The scalar parameters of a band, ids 0 to 9 (R25). The staged and the active copy are each one of these. -/
structure DynParams where
  /-- `KN_T`, threshold in dB. -/
  t : Word
  /-- `KN_R`, ratio. -/
  r : Word
  /-- `KN_W`, knee half-width. -/
  w : Word
  /-- `KN_C`, curve shape. -/
  c : Word
  /-- `FO_RA`, attack rate. -/
  ra : Word
  /-- `FO_RR`, release rate. -/
  rr : Word
  /-- `FO_SA`, attack style. -/
  sa : Nat
  /-- `FO_SR`, release style. -/
  sr : Nat
  /-- `FO_PH`, phase. -/
  ph : Nat
  /-- `DY_BYP`, bypass. -/
  byp : Nat
  deriving DecidableEq, Repr

/-- The knee cache (R33). -/
structure Knee where
  lo : Word
  hi : Word
  sl : Word
  qa : Word
  yh : Word
  ab : Word
  sg : Bool
  deriving DecidableEq, Repr

/-- The state of one band. -/
structure Band where
  /-- `CFG_TOPO[b]` (R24). -/
  topo : Topology
  /-- `UPD_PEND[b]` (R22). -/
  updPend : Bool
  /-- `RST_PEND[b]` (R22). -/
  rstPend : Bool
  /-- `PAR_PEND[b]` (R22). -/
  parPend : Bool
  /-- `P_STG[b][0..9]` (R25). -/
  staged : DynParams
  /-- `P_STG[b][10]`, the staged `RMS_WN` (R25). -/
  stgWn : Nat
  /-- The active copies of ids 0 to 9 (R25). -/
  active : DynParams
  /-- `STG_C[b]`, binary64 words, element `5 s + k` (R27). -/
  stgC : Bank
  /-- `STG_N[b]` (R27). -/
  stgN : Nat
  /-- `ACT_C[b]`, element `5 s + k` (R28). -/
  actC : Bank
  /-- `ACT_N[b]` (R28). -/
  actN : Nat
  /-- `ACT_V[b]`, element `6 s + j` (R29). -/
  actV : Bank
  /-- `ST[b]`, element `16 c + 2 s + i` (R30). -/
  st : Bank
  /-- `SNP_C[b]`, element `5 s + k` (R31). -/
  snpC : Bank
  /-- `SNP_N[b]` (R31). -/
  snpN : Nat
  /-- `RMS_BUF[b]` (R32). -/
  rmsBuf : Bank
  /-- `RMS_W[b]` (R32). -/
  rmsW : Nat
  /-- `RMS_POS[b]` (R32). -/
  rmsPos : Nat
  /-- `RMS_TOT[b]` (R32). -/
  rmsTot : Word
  /-- `RMS_ACC[b]` (R32). -/
  rmsAcc : Word
  /-- The knee cache (R33). -/
  knee : Knee
  /-- `FO_XS[b]` (R34). -/
  foXS : Word
  /-- `FO_XC[b]` (R34). -/
  foXC : Word
  /-- `DY_OUT[b]` (R35). -/
  dyOut : Word
  deriving DecidableEq, Repr

/-- The configuration and the taps of one oversampler stage (R24, R36). -/
structure Stage where
  /-- `CFG_KU[s]`. -/
  ku : Nat
  /-- `CFG_KD[s]`. -/
  kd : Nat
  /-- `OS_TU[s]`. -/
  tu : Bank
  /-- `OS_TD[s]`. -/
  td : Bank
  /-- `OS_CU[s]`. -/
  cu : Word
  /-- `OS_CD[s]`. -/
  cd : Word
  deriving DecidableEq, Repr

/-- The oversampler state of one channel (R37, R38). -/
structure Chan where
  /-- `OS_UL[c]`, one line per stage, element 0 the newest. -/
  ul : Vector Bank 6
  /-- `OS_DL[c]`, the odd-phase lines. -/
  dl : Vector Bank 6
  /-- `OS_CL[c]`, the even-phase (centre) lines. -/
  cl : Vector Bank 6
  /-- `DQ[c]`, the head first. -/
  dq : List Word
  deriving DecidableEq, Repr

/-- The state. The block's own state comes first; then the host's command lists (R21), and the model's own fields. -/
structure State where
  /-- `RUNNING` (R22). -/
  running : Bool
  /-- `PREPARED` (R22). -/
  prepared : Bool
  /-- `ERR` (R22). -/
  err : Bool
  /-- `ERR_CODE` (R23). -/
  errCode : BitVec 8
  /-- `ERR_CMD` (R23). -/
  errCmd : Header
  /-- `ERR_PORT` (R23). -/
  errPort : Port
  /-- `CFG_NCH` (R24). -/
  cfgNch : Nat
  /-- `CFG_S` (R24). -/
  cfgS : Nat
  /-- `CFG_MAXBLK` (R24). -/
  cfgMaxblk : Nat
  /-- The bands; the commands reach those below `NBAND`. -/
  bands : Vector Band 16
  /-- The oversampler stages. -/
  stages : Vector Stage 6
  /-- The oversampler's channels. -/
  chans : Vector Chan 16
  /-- `resp_A` (R39), the oldest first. -/
  respA : List Word
  /-- `resp_C` (R39). -/
  respC : List Word
  /-- `prog_A` (R21): the host's. -/
  progA : List Cmd
  /-- `prog_C` (R21): the host's. -/
  progC : List Cmd
  /-- `cp_A` (R21): the host's. -/
  cpA : Nat
  /-- `cp_C` (R21): the host's. -/
  cpC : Nat
  /-- MODEL'S OWN: the implementation parameters (R6); no step writes them (log 2). -/
  par : Params
  /-- MODEL'S OWN: the environment's settled choices (log 6, log 10). -/
  inputs : List Input
  /-- MODEL'S OWN: the port the running command came on, R100's `p` (log 8). -/
  port : Port
  /-- MODEL'S OWN: names the NaN draws of the running command (log 5). -/
  draw : Nat
  deriving DecidableEq, Repr

/-- The reset values of ids 0 to 9 (R25). -/
def DynParams.reset (p : Params) : DynParams where
  t := 0
  r := ofInt p.fmt 1
  w := p.kneeEps
  c := 0
  ra := 0
  rr := 0
  sa := 0
  sr := 0
  ph := 0
  byp := 1

/-- The reset value of the knee cache (R42). -/
def Knee.reset (p : Params) : Knee where
  lo := fsub { fmt := p.fmt, now := 0, place := [] } 0 0 p.kneeEps
  hi := p.kneeEps
  sl := ofInt p.fmt 1
  qa := 0
  yh := p.kneeEps
  ab := 0
  sg := false

/-- A band after hardware reset (R42). -/
def Band.reset (p : Params) : Band where
  topo := .tdf2
  updPend := false
  rstPend := false
  parPend := false
  staged := DynParams.reset p
  stgWn := 1
  active := DynParams.reset p
  stgC := []
  stgN := 0
  actC := []
  actN := 0
  actV := []
  st := []
  snpC := []
  snpN := 0
  rmsBuf := []
  rmsW := 1
  rmsPos := 0
  rmsTot := 0
  rmsAcc := 0
  knee := Knee.reset p
  foXS := 0
  foXC := 0
  dyOut := 0

/-- A stage after hardware reset (R42). -/
def Stage.reset : Stage where
  ku := 1
  kd := 1
  tu := []
  td := []
  cu := 0
  cd := 0

/-- A channel whose lines are +0 and whose queue is empty (R42; also `PREPARE` R103 and `OS.RESET` R211). -/
def Chan.reset : Chan where
  ul := Vector.replicate 6 []
  dl := Vector.replicate 6 []
  cl := Vector.replicate 6 []
  dq := []

/-- The machine after hardware reset, for any implementation parameters (R42, R275). -/
def State.resetWith (p : Params) : State where
  running := false
  prepared := false
  err := false
  errCode := 0
  errCmd := 0
  errPort := .a
  cfgNch := 1
  cfgS := 0
  cfgMaxblk := 1
  bands := Vector.replicate 16 (Band.reset p)
  stages := Vector.replicate 6 Stage.reset
  chans := Vector.replicate 16 Chan.reset
  respA := []
  respC := []
  progA := []
  progC := []
  cpA := 0
  cpC := 0
  par := p
  inputs := []
  port := .a
  draw := 0

/-- The machine right after reset, at the default parameters of R6 with `FT` = binary64 (log 1). -/
def State.reset : State := State.resetWith (defaultParams .binary64)

end Sys2Proof.Machine
end

