-- ==== Sys2Proof/Machine/Flags.lean ====
section
/-!
DEFINITION. The flags of the block: the mode conditions (60_exceptions.md R258, R259), the fault codes (R251) and the words that
`RD.STAT` and `RD.PEND` read them into (10_state.md R23, R26). There are no arithmetic condition codes (R22).
-/

namespace Sys2Proof.Machine

/-- The fault codes (R251). -/
inductive ErrCode where
  | illegal
  | field
  | port
  | mode
  | index
  | value
  | busy
  | underflow
  | overflow
  deriving DecidableEq, Repr

/-- The number recorded in `ERR_CODE` (R251). -/
def ErrCode.code : ErrCode → BitVec 8
  | .illegal => 1
  | .field => 2
  | .port => 3
  | .mode => 4
  | .index => 5
  | .value => 6
  | .busy => 7
  | .underflow => 8
  | .overflow => 9

/-- The port condition of R259: `none` is legal on both ports. -/
def portOk (legal : Option Port) (p : Port) : Bool :=
  match legal with
  | none => true
  | some q => p == q

/-- The mode condition of R259. -/
def modeOk (w : When) (s : State) : Bool :=
  match w with
  | .always => true
  | .stopped => !s.running
  | .running => s.running
  | .stoppedAndPrepared => !s.running && s.prepared

/-- One bit as a word. -/
def bit (b : Bool) : BitVec 1 := if b then 1 else 0

/-- `ERR_PORT` as a bit: 0 for port A, 1 for port C (R23). -/
def portBit : Port → BitVec 1
  | .a => 0
  | .c => 1

/-- The status word of R23. -/
def statusWord (s : State) : Word :=
  s.errCmd ++ (0 : BitVec 15) ++ portBit s.errPort ++ s.errCode ++ (0 : BitVec 5) ++ bit s.err ++ bit s.prepared
    ++ bit s.running

/-- The word of `RD.PEND` (R26). -/
def pendingWord (b : Band) : Word :=
  (0 : BitVec 61) ++ bit b.parPend ++ bit b.rstPend ++ bit b.updPend

/-- The block's status output `fault` (R252): the level of `ERR`. -/
def State.faultLine (s : State) : Bool := s.err

end Sys2Proof.Machine
end

