-- ==== Sys2Proof/Machine/Operands.lean ====
section
/-!
DEFINITION. Operand classes and results (30_encoding.md R82, R83; 00_scope.md R8).
-/

namespace Sys2Proof.Machine

/-- Operand class sample: an `FT` value; for binary32 bits 63:32 of the operand are ignored. -/
def sampleOperand (f : Fmt) (d : Word) : Word := toFormat f d

/-- Operand class parameter: a binary64 value, all 64 bits, whatever `FT` is. -/
def parameterOperand (d : Word) : Word := d

/-- Operand class integer: an unsigned 64-bit integer, compared as a mathematical integer. -/
def integerOperand (d : Word) : Nat := d.toNat

/-- The result word of an `FT` value: its encoding, zero-extended (R83). -/
def resultWord (f : Fmt) (v : Word) : Word := toFormat f v

/-- The result word of an integer (R83). -/
def resultInt (n : Nat) : Word := BitVec.ofNat 64 n

end Sys2Proof.Machine
end

