-- ==== Sys2Proof/Machine/Ops.lean ====
section
/-!
DEFINITION. The named operations over the state: reading and writing a band, a stage and a channel, appending a result,
the arithmetic of a command, taking a fault (60_exceptions.md R252), the checks every command makes in their order (40_system.md R100,
R253), accepting a command from a port (R21), and hardware reset (70_reset_and_hazards.md R275). The block has no return from a fault
(R255).
-/

namespace Sys2Proof.Machine

/-! ### Bands, stages, channels -/

/-- Band `b`. -/
def State.band (s : State) (b : BitVec 4) : Band := s.bands[b.toNat]'b.isLt

/-- The state with band `b` replaced. -/
def State.setBand (s : State) (b : BitVec 4) (x : Band) : State :=
  { s with bands := s.bands.set b.toNat x b.isLt }

/-- Channel `c`. -/
def State.chan (s : State) (c : BitVec 4) : Chan := s.chans[c.toNat]'c.isLt

/-- The state with channel `c` replaced. -/
def State.setChan (s : State) (c : BitVec 4) (x : Chan) : State :=
  { s with chans := s.chans.set c.toNat x c.isLt }

/-- Stage `n`; there are six (the commands check the index). -/
def State.stage (s : State) (n : Nat) : Stage := s.stages[n]?.getD Stage.reset

/-- The state with stage `n` replaced. -/
def State.setStage (s : State) (n : Nat) (x : Stage) : State :=
  { s with stages := s.stages.setIfInBounds n x }

/-- A delay line of a channel, by its stage. -/
def lineAt (v : Vector Bank 6) (n : Nat) : Bank := v[n]?.getD []

/-- The band index is out of range (R86): `b >= NBAND`. -/
def State.badBand (s : State) (b : BitVec 4) : Bool := decide (s.par.nband ≤ b.toNat)

/-- The channel index is out of range (R86): `c >= CFG_NCH`. -/
def State.badChan (s : State) (c : BitVec 4) : Bool := decide (s.cfgNch ≤ c.toNat)

/-! ### Results and arithmetic -/

/-- `emit(p, w)` (00_scope.md R12): appends a result to the response stream of a port. -/
def State.emit (s : State) (p : Port) (w : Word) : State :=
  match p with
  | .a => { s with respA := s.respA ++ [w] }
  | .c => { s with respC := s.respC ++ [w] }

/-- Appends several results, in order. -/
def State.emitAll (s : State) (p : Port) (ws : List Word) : State :=
  match p with
  | .a => { s with respA := s.respA ++ ws }
  | .c => { s with respC := s.respC ++ ws }

/-- The arithmetic of the running command. -/
def State.fpu (s : State) : Fpu := { fmt := s.par.fmt, now := s.draw, place := [] }

/-! ### Taking a fault, and the checks of a command -/

/-- TAKING A FAULT (R252): the four writes, and nothing else. -/
def State.raise (s : State) (code : ErrCode) (h : Header) : State :=
  { s with err := true, errCode := code.code, errCmd := h, errPort := s.port }

/-- The fault of the first check that fails. -/
def firstFailure : List (Bool × ErrCode) → Option ErrCode
  | [] => none
  | (true, code) :: _ => some code
  | (false, _) :: rest => firstFailure rest

/-- The common checks after decoding, in the order of R253: `PORT`, `FIELD`, `MODE`. -/
def commonChecks (i : Instr) (s : State) : List (Bool × ErrCode) :=
  [(!portOk i.op.port s.port, .port), (!i.wellFormed, .field), (!modeOk i.op.when s, .mode)]

/-- The common part of every command (R100): nothing happens while `ERR` is set (R254); otherwise the first check
that fails raises its fault, and if none fails the effect happens. `own` are the command's own checks, in order:
`INDEX`, `VALUE`, then the resource. -/
def command (i : Instr) (s : State) (own : List (Bool × ErrCode)) (effect : State) :
    Host.Outcome State Fault Refusal :=
  if s.err then .next s
  else match firstFailure (commonChecks i s ++ own) with
    | some code => .next (s.raise code i.header)
    | none => .next effect

/-- What a pair of words that is no command does (R86, R253): `ILLEGAL` without an opcode; else `PORT` before `FIELD`.
Nothing while `ERR` is set (R254). -/
def rejectWords (o : Option Op) (h : Header) (s : State) : State :=
  if s.err then s
  else match o with
    | none => s.raise .illegal h
    | some o => if portOk o.port s.port then s.raise .field h else s.raise .port h

/-! ### The ports and the reset input -/

/-- The command list of a port (R21). -/
def State.prog (s : State) : Port → List Cmd
  | .a => s.progA
  | .c => s.progC

/-- The position of a port in its list (R21). -/
def State.cp (s : State) : Port → Nat
  | .a => s.cpA
  | .c => s.cpC

/-- The next command of a port, if it has one. -/
def State.nextCmd (s : State) (p : Port) : Option Cmd := (s.prog p)[s.cp p]?

/-- The port the environment settles on where both have a next command: the head of `inputs`, else a free value
(R67; log 6). -/
def State.chosenPort (s : State) : Port :=
  match s.inputs with
  | .port p :: _ => p
  | .reset :: _ => if Config.freePort s.draw then .a else .c
  | [] => if Config.freePort s.draw then .a else .c

/-- The port that moves next and its command (R67): "a machine step picks a port whose next command exists". -/
def State.pick (s : State) : Option (Port × Cmd) :=
  match s.nextCmd .a, s.nextCmd .c with
  | none, none => none
  | some k, none => some (.a, k)
  | none, some k => some (.c, k)
  | some ka, some kc =>
    match s.chosenPort with
    | .a => some (.a, ka)
    | .c => some (.c, kc)

/-- Accepting a command on port `p`: `cp_p <- cp_p + 1` (R100), the port is noted, the environment's choice is used up,
and the NaN draws of the command get a new name. -/
def State.accept (s : State) (p : Port) : State :=
  match p with
  | .a => { s with cpA := s.cpA + 1, port := .a, inputs := s.inputs.tail, draw := s.draw + 1 }
  | .c => { s with cpC := s.cpC + 1, port := .c, inputs := s.inputs.tail, draw := s.draw + 1 }

/-- Hardware reset (R275): every piece of the block's state takes its reset value. The host's lists and positions are
not the block's (R21) and stay, as do the parameters; the settled input is used up. -/
def State.hardwareReset (s : State) : State :=
  { State.resetWith s.par with
    progA := s.progA, progC := s.progC, cpA := s.cpA, cpC := s.cpC,
    inputs := s.inputs.tail, port := s.port, draw := s.draw + 1 }

end Sys2Proof.Machine
end

