-- ==== Sys2Proof/Machine/Cascade.lean ====
section
/-!
DEFINITION. The biquad cascade (41_biquad_cascade.md): section arithmetic, activation, and the commands `BQ.*`.

The number that follows an operation's name is its place and only names its NaN draw (log 5).
-/

namespace Sys2Proof.Machine

/-! ### Section arithmetic -/

/-- The five coefficients of a section, or of its staged form (R27). -/
structure Coeffs where
  b0 : Word
  b1 : Word
  b2 : Word
  a1 : Word
  a2 : Word
  deriving DecidableEq, Repr

/-- The six parameters of an SVF section (R29). -/
structure SvfParams where
  g : Word
  r2 : Word
  h : Word
  chp : Word
  cbp : Word
  clp : Word
  deriving DecidableEq, Repr

/-- An output and the two new state variables of a section. -/
structure SectionOut where
  y : Word
  n0 : Word
  n1 : Word
  deriving DecidableEq, Repr

/-- `Tdf2Section` (R127). -/
def tdf2Section (u : Fpu) (k : Coeffs) (s1 s2 x : Word) : SectionOut :=
  let y := fadd u 0 (fmul u 1 k.b0 x) s1
  { y := y
    n0 := fadd u 2 (fsub u 3 (fmul u 4 k.b1 x) (fmul u 5 k.a1 y)) s2
    n1 := fsub u 6 (fmul u 7 k.b2 x) (fmul u 8 k.a2 y) }

/-- `SvfSection` (R128). -/
def svfSection (u : Fpu) (v : SvfParams) (ic1 ic2 x : Word) : SectionOut :=
  let t := fadd u 0 v.g v.r2
  let yhp := fmul u 1 v.h (fsub u 2 (fsub u 3 x (fmul u 4 ic1 t)) ic2)
  let m1 := fmul u 5 yhp v.g
  let ybp := fadd u 6 m1 ic1
  let m2 := fmul u 7 ybp v.g
  let ylp := fadd u 8 m2 ic2
  { y := fadd u 9 (fadd u 10 (fmul u 11 v.chp yhp) (fmul u 12 v.cbp ybp)) (fmul u 13 v.clp ylp)
    n0 := fadd u 14 m1 ybp
    n1 := fadd u 15 m2 ylp }

/-- `SvfTransform` (R129): computed in binary64 whatever `FT` is, narrowed last. -/
def svfTransform (u : Fpu) (q : Coeffs) : SvfParams :=
  let d := u.dbl
  let one := ofInt .binary64 1
  let two := ofInt .binary64 2
  let sa := fadd d 0 (fadd d 1 one q.a1) q.a2
  let da := fadd d 2 (fsub d 3 one q.a1) q.a2
  let t1 := fsqrt d 4 (fabs .binary64 sa)
  let t2 := fsqrt d 5 (fabs .binary64 da)
  let p := fmul d 6 t1 t2
  let g := fdiv d 7 t1 t2
  let r2 := fdiv d 8 (fmul d 9 two (fsub d 10 one q.a2)) p
  let h := fdiv d 11 one (fadd d 12 (fmul d 13 g (fadd d 14 r2 g)) one)
  let chp := fdiv d 15 (fadd d 16 (fsub d 17 q.b0 q.b1) q.b2) da
  let cbp := fdiv d 18 (fmul d 19 two (fsub d 20 q.b0 q.b2)) p
  let clp := fdiv d 21 (fadd d 22 (fadd d 23 q.b0 q.b1) q.b2) sa
  { g := narrow u 24 g, r2 := narrow u 25 r2, h := narrow u 26 h
    chp := narrow u 27 chp, cbp := narrow u 28 cbp, clp := narrow u 29 clp }

/-! ### The banks of a band -/

/-- Section `n` of a coefficient bank. -/
def coeffsAt (b : Bank) (n : Nat) : Coeffs where
  b0 := b.read (5 * n)
  b1 := b.read (5 * n + 1)
  b2 := b.read (5 * n + 2)
  a1 := b.read (5 * n + 3)
  a2 := b.read (5 * n + 4)

/-- Section `n` of the SVF bank. -/
def svfAt (b : Bank) (n : Nat) : SvfParams where
  g := b.read (6 * n)
  r2 := b.read (6 * n + 1)
  h := b.read (6 * n + 2)
  chp := b.read (6 * n + 3)
  cbp := b.read (6 * n + 4)
  clp := b.read (6 * n + 5)

/-- The elements of an SVF section in the order of R29. -/
def SvfParams.toList (v : SvfParams) : List Word := [v.g, v.r2, v.h, v.chp, v.cbp, v.clp]

/-- The elements of a section in the order of R27. -/
def Coeffs.toList (k : Coeffs) : List Word := [k.b0, k.b1, k.b2, k.a1, k.a2]

/-- Every coefficient of a section narrowed (R130). -/
def narrowCoeffs (u : Fpu) (k : Coeffs) : Coeffs where
  b0 := narrow u 30 k.b0
  b1 := narrow u 31 k.b1
  b2 := narrow u 32 k.b2
  a1 := narrow u 33 k.a1
  a2 := narrow u 34 k.a2

/-- Where `ST[b][c][s]` lies in its bank (R30). -/
def stIndex (c : BitVec 4) (n : Nat) : Nat := 16 * c.toNat + 2 * n

/-- Activation of the first `n` sections (R130), section 0 first. -/
def activateSections (u : Fpu) (stg : Bank) : Nat → Bank × Bank → Bank × Bank
  | 0, banks => banks
  | n + 1, banks =>
    let (actC, actV) := activateSections u stg n banks
    let q := coeffsAt stg n
    (actC.writeList (5 * n) (narrowCoeffs (u.at n) q).toList,
     actV.writeList (6 * n) (svfTransform (u.at n) q).toList)

/-- `Activate(b)` (R130). -/
def activate (u : Fpu) (x : Band) : Band :=
  let (actC, actV) := activateSections u x.stgC 8 (x.actC, x.actV)
  { x with actN := x.stgN, actC := actC, actV := actV }

/-- `ResetCascade(b)` (R131). -/
def resetCascade (x : Band) : Band := { x with st := [] }

/-! ### Processing -/

/-- One section of a band on one sample of channel `c` (R126): the topology's section, with its new state stored. -/
def runSection (u : Fpu) (x : Band) (c : BitVec 4) (n : Nat) (st : Bank) (v : Word) : Word × Bank :=
  let s0 := st.read (stIndex c n)
  let s1 := st.read (stIndex c n + 1)
  let out :=
    match x.topo with
    | .tdf2 => tdf2Section (u.at n) (coeffsAt x.actC n) s0 s1 v
    | .svf => svfSection (u.at n) (svfAt x.actV n) s0 s1 v
  (out.y, st.writeList (stIndex c n) [out.n0, out.n1])

/-- The first `n` sections in series, section 0 first (R120, R126). -/
def runSections (u : Fpu) (x : Band) (c : BitVec 4) : Nat → Word × Bank → Word × Bank
  | 0, p => p
  | n + 1, p =>
    let q := runSections u x c n p
    runSection u x c n q.2 q.1

/-! ### The commands -/

/-- `BQ.WRC` (R121). -/
def execBqWrc (b : BitVec 4) (idx sub : BitVec 8) (d : Word) (s : State) : Host.Outcome State Fault Refusal :=
  let x := s.band b
  command (.bqWrc b idx sub d) s
    [(s.badBand b, .index), (decide (8 ≤ idx.toNat), .index), (decide (4 < sub.toNat), .index), (x.updPend, .busy)]
    (s.setBand b { x with stgC := x.stgC.write (5 * idx.toNat + sub.toNat) (parameterOperand d) })

/-- `BQ.WRN` (R122). -/
def execBqWrn (b : BitVec 4) (d : Word) (s : State) : Host.Outcome State Fault Refusal :=
  let x := s.band b
  command (.bqWrn b d) s
    [(s.badBand b, .index), (decide (8 < integerOperand d), .value), (x.updPend, .busy)]
    (s.setBand b { x with stgN := integerOperand d })

/-- `BQ.COMMIT` (R123). -/
def execBqCommit (b : BitVec 4) (r : Bool) (s : State) : Host.Outcome State Fault Refusal :=
  let x := s.band b
  command (.bqCommit b r) s [(s.badBand b, .index)]
    (s.setBand b { x with updPend := true, rstPend := x.rstPend || r })

/-- `BQ.RSTREQ` (R124). -/
def execBqRstreq (b : BitVec 4) (s : State) : Host.Outcome State Fault Refusal :=
  command (.bqRstreq b) s [(s.badBand b, .index)] (s.setBand b { s.band b with rstPend := true })

/-- `BQ.RESET` (R125). -/
def execBqReset (b : BitVec 4) (s : State) : Host.Outcome State Fault Refusal :=
  command (.bqReset b) s [(s.badBand b, .index)] (s.setBand b (resetCascade (s.band b)))

/-- The effect of `BQ.PROC` (R126): the sample through `ACT_N[b]` sections, the state stored, the output emitted. -/
def procEffect (b c : BitVec 4) (d : Word) (s : State) : State :=
  let x := s.band b
  let r := runSections s.fpu x c x.actN (sampleOperand s.par.fmt d, x.st)
  (s.setBand b { x with st := r.2 }).emit .a (resultWord s.par.fmt r.1)

/-- `BQ.PROC` (R126). -/
def execBqProc (b c : BitVec 4) (d : Word) (s : State) : Host.Outcome State Fault Refusal :=
  command (.bqProc b c d) s [(s.badBand b, .index), (s.badChan c, .index)] (procEffect b c d s)

/-- `BQ.SNAP` (R132). -/
def execBqSnap (b : BitVec 4) (s : State) : Host.Outcome State Fault Refusal :=
  let x := s.band b
  command (.bqSnap b) s [(s.badBand b, .index)] (s.setBand b { x with snpN := x.actN, snpC := x.actC })

/-- The word `BQ.RDS` reads: a coefficient of the snapshot, or with selector 5 its section count (R133). -/
def snapshotWord (f : Fmt) (x : Band) (idx sub : BitVec 8) : Word :=
  if sub.toNat ≤ 4 then resultWord f (x.snpC.read (5 * idx.toNat + sub.toNat)) else resultInt x.snpN

/-- `BQ.RDS` (R133). -/
def execBqRds (b : BitVec 4) (idx sub : BitVec 8) (s : State) : Host.Outcome State Fault Refusal :=
  command (.bqRds b idx sub) s
    [(s.badBand b, .index), (decide (8 ≤ idx.toNat), .index), (decide (5 < sub.toNat), .index)]
    (s.emit .c (snapshotWord s.par.fmt (s.band b) idx sub))

end Sys2Proof.Machine
end

