-- ==== Sys2Proof/Machine/Follower.lean ====
section
/-!
DEFINITION. The attack/release envelope follower (44_envelope_follower.md): `FollowOne`, `FollowStep` and the commands `FO.*`.
-/

namespace Sys2Proof.Machine

/-- The attack decision on a distance `d` (R181): an increase in phase 0, a decrease in phase 1; zero and NaN are
release. -/
def isAttack (f : Fmt) (a : DynParams) (d : Word) : Bool := if a.ph = 0 then fgt f d 0 else flt f d 0

/-- `FollowOne(b, cur, tgt)` (R182), by its pseudocode: where the shape is infinite and the rate is 0, `p` is a NaN and the
value jumps to the target, against the rule's remark that rate 0 freezes it (DESIGN CHOICE, unsafe: log 15). -/
def followOne (p : Params) (u : Fpu) (a : DynParams) (cur tgt : Word) : Word :=
  let f := p.fmt
  let d := fsub u 0 tgt cur
  let dist := fabs f d
  let rate := if isAttack f a d then a.ra else a.rr
  let style := if isAttack f a d then a.sa else a.sr
  let q := fmul u 1 rate (fabs f (shape p (u.at 0) style d))
  let st := fmin2 f q dist
  if fgt f d 0 then
    let n := fadd u 2 cur st
    if flt f n tgt then n else tgt
  else if flt f d 0 then
    let n := fsub u 3 cur st
    if fgt f n tgt then n else tgt
  else cur

/-- `FollowStep(b, t)` (R183): the second follower sees the new value of the first; the output is the new
`FO_XC[b]`. -/
def followStep (p : Params) (u : Fpu) (x : Band) (t : Word) : Band :=
  let xs := followOne p (u.at 0) x.active x.foXS t
  { x with foXS := xs, foXC := followOne p (u.at 1) x.active x.foXC xs }

/-- `FO.STEP` (R185). -/
def execFoStep (b : BitVec 4) (d : Word) (s : State) : Host.Outcome State Fault Refusal :=
  let x := followStep s.par s.fpu (s.band b) (sampleOperand s.par.fmt d)
  command (.foStep b d) s [(s.badBand b, .index)] ((s.setBand b x).emit .a (resultWord s.par.fmt x.foXC))

/-- `FO.RESET` (R186). -/
def execFoReset (b : BitVec 4) (s : State) : Host.Outcome State Fault Refusal :=
  command (.foReset b) s [(s.badBand b, .index)] (s.setBand b { s.band b with foXS := 0, foXC := 0 })

end Sys2Proof.Machine
end

