-- ==== Sys2Proof/Machine/KneeComputer.lean ====
section
/-!
DEFINITION. The soft-knee transfer function (43_knee_computer.md): `KneeInterp`, `KneeCurve`, `KneeEval` and `KN.EVAL`.
-/

namespace Sys2Proof.Machine

/-- `KneeInterp(b)` (R166), on the parameters `T`, `R`, `W`, `C`. -/
def kneeInterp (u : Fpu) (a : DynParams) : Knee :=
  let f := u.fmt
  let one := ofInt f 1
  let sl := fdiv u 0 one a.r
  { lo := fsub u 1 a.t a.w
    hi := fadd u 2 a.t a.w
    sl := sl
    qa := fdiv u 3 (fsub u 4 sl one) (fmul u 5 (ofInt f 4) a.w)
    yh := fadd u 6 a.t (fmul u 7 a.w sl)
    ab := fabs f a.c
    sg := flt f a.c 0 }

/-- `KneeCurve(b, u)` (R168), `v` the distance above the upper boundary. -/
def kneeCurve (p : Params) (u : Fpu) (k : Knee) (v : Word) : Word :=
  let f := p.fmt
  let one := ofInt f 1
  let e := fsub u 0 one (fexp p (fdiv u 1 (fneg f v) p.kneeTau))
  let z := fmul u 2 p.kneeTau e
  if k.sg then fsub u 3 (fadd u 4 k.yh v) (fmul u 5 (fsub u 6 one k.sl) z)
  else fadd u 7 k.yh (fmul u 8 k.sl z)

/-- `KneeEval(b, x)` (R167). -/
def kneeEval (p : Params) (u : Fpu) (a : DynParams) (k : Knee) (x : Word) : Word :=
  let f := p.fmt
  if fle f x k.lo then x
  else if fge f x k.hi then
    let v := fsub u 0 x k.hi
    let lin := fadd u 1 a.t (fdiv u 2 (fsub u 3 x a.t) a.r)
    let cv := kneeCurve p (u.at 0) k v
    fadd u 4 (fmul u 5 (fsub u 6 (ofInt f 1) k.ab) lin) (fmul u 7 k.ab cv)
  else
    let d := fsub u 8 x k.lo
    fadd u 9 x (fmul u 10 k.qa (fmul u 11 d d))

/-- `KN.EVAL` (R169). -/
def execKnEval (b : BitVec 4) (d : Word) (s : State) : Host.Outcome State Fault Refusal :=
  let x := s.band b
  command (.knEval b d) s [(s.badBand b, .index)]
    (s.emit .a (resultWord s.par.fmt (kneeEval s.par s.fpu x.active x.knee (sampleOperand s.par.fmt d))))

end Sys2Proof.Machine
end

