-- ==== Sys2Proof/Machine/Tracker.lean ====
section
/-!
DEFINITION. The RMS power estimator (42_rms_tracker.md): the procedures and the commands `RMS.*`.
-/

namespace Sys2Proof.Machine

/-- `Loudness(b)` (R153). -/
def loudness (p : Params) (u : Fpu) (x : Band) : Word :=
  let ms := fdiv u 0 x.rmsTot (ofInt p.fmt x.rmsW)
  let l := fmul u 1 (ofInt p.fmt 10) (flog10 p ms)
  if fgt p.fmt ms 0 && fgt p.fmt l p.loudFloor then l else p.loudFloor

/-- `RmsClear(b)` (R159): `RMS_W[b]` is kept. -/
def rmsClear (x : Band) : Band := { x with rmsBuf := [], rmsTot := 0, rmsAcc := 0, rmsPos := 0 }

/-- `RmsResize(b, n)` (R156). -/
def rmsResize (x : Band) (n : Nat) : Band := { rmsClear x with rmsW := n }

/-- The effect of `RMS.PUSH` on its band (R152): the subtraction comes before the addition. -/
def rmsPush (u : Fpu) (x : Band) : Band :=
  let old := x.rmsBuf.read x.rmsPos
  { x with
    rmsTot := fadd u 0 (fsub u 1 x.rmsTot old) x.rmsAcc
    rmsBuf := x.rmsBuf.write x.rmsPos x.rmsAcc
    rmsPos := (x.rmsPos + 1) % x.rmsW
    rmsAcc := 0 }

/-- The new open entry after `RMS.ACC` (R151). -/
def rmsAccumulate (u : Fpu) (acc x : Word) : Word := fadd u 0 acc (fmul u 1 x x)

/-- `RMS.ACC` (R151). -/
def execRmsAcc (b : BitVec 4) (d : Word) (s : State) : Host.Outcome State Fault Refusal :=
  let x := s.band b
  command (.rmsAcc b d) s [(s.badBand b, .index)]
    (s.setBand b { x with rmsAcc := rmsAccumulate s.fpu x.rmsAcc (sampleOperand s.par.fmt d) })

/-- `RMS.PUSH` (R152). -/
def execRmsPush (b : BitVec 4) (s : State) : Host.Outcome State Fault Refusal :=
  command (.rmsPush b) s [(s.badBand b, .index)] (s.setBand b (rmsPush s.fpu (s.band b)))

/-- `RMS.GET` (R154). -/
def execRmsGet (b : BitVec 4) (s : State) : Host.Outcome State Fault Refusal :=
  command (.rmsGet b) s [(s.badBand b, .index)]
    (s.emit .a (resultWord s.par.fmt (loudness s.par s.fpu (s.band b))))

/-- `RMS.RESET` (R155). -/
def execRmsReset (b : BitVec 4) (s : State) : Host.Outcome State Fault Refusal :=
  command (.rmsReset b) s [(s.badBand b, .index)] (s.setBand b (rmsClear (s.band b)))

end Sys2Proof.Machine
end

