-- ==== Sys2Proof/Machine/Dynamics.lean ====
section
/-!
DEFINITION. The dynamics chain (45_dynamics_chain.md): `DY.RUN`.
-/

namespace Sys2Proof.Machine

/-- The target gain adjustment of a band (R196): the knee's output level minus its input level, the tracker's
reading. -/
def gainTarget (p : Params) (u : Fpu) (x : Band) : Word :=
  let l := loudness p (u.at 0) x
  fsub u 0 (kneeEval p (u.at 1) x.active x.knee l) l

/-- One detector cycle of a band (R196, R197). -/
def dynamicsCycle (p : Params) (u : Fpu) (x : Band) : Band :=
  let y := followStep p (u.at 2) x (gainTarget p u x)
  { y with dyOut := if x.active.byp = 0 then y.foXC else 0 }

/-- `DY.RUN` (R196). -/
def execDyRun (b : BitVec 4) (s : State) : Host.Outcome State Fault Refusal :=
  let x := dynamicsCycle s.par s.fpu (s.band b)
  command (.dyRun b) s [(s.badBand b, .index)] ((s.setBand b x).emit .a (resultWord s.par.fmt x.dyOut))

end Sys2Proof.Machine
end

