-- ==== Sys2Proof/Machine/Oversampler.lean ====
section
/-!
DEFINITION. The polyphase halfband oversampler (46_oversampler.md): the stage procedures, the cascade, the latency, and the
commands `OS.*`.
-/

namespace Sys2Proof.Machine

/-! ### One stage -/

/-- The sum over the symmetric tap pairs of a path with `k + 1` unique taps (R203, R204), from the outermost pair
inward: pair `j` is added before it is multiplied, then accumulated. `last` is the index of the line's last element. -/
def pairSum (u : Fpu) (taps line : Bank) (last : Nat) : Nat → Word
  | 0 => fmul u 0 (taps.read 0) (fadd u 1 (line.read 0) (line.read last))
  | j + 1 =>
    fadd u (3 * j + 2) (pairSum u taps line last j)
      (fmul u (3 * j + 3) (taps.read (j + 1)) (fadd u (3 * j + 4) (line.read (j + 1)) (line.read (last - (j + 1)))))

/-- `StageUp` (R203): the new line, the original sample `K` inputs late, and the interpolated sample. -/
def stageUp (u : Fpu) (g : Stage) (line : Bank) (x : Word) : Bank × Word × Word :=
  let ul := line.shiftIn (2 * g.ku) x
  (ul, fmul (u.at 0) 0 g.cu (ul.read g.ku), pairSum (u.at 1) g.tu ul (2 * g.ku - 1) (g.ku - 1))

/-- `StageDown` (R204): the new centre line, the new odd-phase line, and the output. -/
def stageDown (u : Fpu) (g : Stage) (cl dl : Bank) (v0 v1 : Word) : Bank × Bank × Word :=
  let cl := cl.shiftIn g.kd v0
  let dl := dl.shiftIn (2 * g.kd) v1
  let acc := pairSum (u.at 1) g.td dl (2 * g.kd - 1) (g.kd - 1)
  (cl, dl, fadd (u.at 0) 0 (fmul (u.at 0) 1 g.cd (cl.read (g.kd - 1))) acc)

/-! ### The cascade -/

/-- A stage's up path on a sequence, in the order of its samples (R205). -/
def runUp (u : Fpu) (g : Stage) : Bank → List Word → Bank × List Word
  | line, [] => (line, [])
  | line, v :: rest =>
    let r := stageUp (u.at rest.length) g line v
    let q := runUp u g r.1 rest
    (q.1, r.2.1 :: r.2.2 :: q.2)

/-- The first `n` stages up, stage 0 first (R205): the lines of all stages and the sequence. -/
def cascadeUp (u : Fpu) (s : State) : Nat → Vector Bank 6 × List Word → Vector Bank 6 × List Word
  | 0, p => p
  | n + 1, p =>
    let q := cascadeUp u s n p
    let r := runUp (u.at n) (s.stage n) (lineAt q.1 n) q.2
    (q.1.setIfInBounds n r.1, r.2)

/-- A stage's down path on a sequence of pairs, in order (R206): the centre line, the odd-phase line, the outputs. -/
def runDown (u : Fpu) (g : Stage) : Bank → Bank → List Word → Bank × Bank × List Word
  | cl, dl, v0 :: v1 :: rest =>
    let r := stageDown (u.at rest.length) g cl dl v0 v1
    let q := runDown u g r.1 r.2.1 rest
    (q.1, q.2.1, r.2.2 :: q.2.2)
  | cl, dl, [_] => (cl, dl, [])
  | cl, dl, [] => (cl, dl, [])

/-- The stages below `n` down, stage `n - 1` first (R206): a channel with its lines, and the sequence. -/
def cascadeDown (u : Fpu) (s : State) : Nat → Chan → List Word → Chan × List Word
  | 0, x, seq => (x, seq)
  | n + 1, x, seq =>
    let r := runDown (u.at n) (s.stage n) (lineAt x.cl n) (lineAt x.dl n) seq
    cascadeDown u s n { x with cl := x.cl.setIfInBounds n r.1, dl := x.dl.setIfInBounds n r.2.1 } r.2.2

/-- The capacity of a decimator input queue, `DQCAP = CFG_MAXBLK · 2 ^ CFG_S` (R38). -/
def dqCap (s : State) : Nat := s.cfgMaxblk * 2 ^ s.cfgS

/-! ### Latency (R212) -/

/-- `LATNUM` over the first `n` of `total` stages: the sum of `D_s · 2 ^ (total - 1 - s)`. -/
def latencyNumerator (s : State) (total : Nat) : Nat → Nat
  | 0 => 0
  | n + 1 => latencyNumerator s total n + ((s.stage n).ku + (s.stage n).kd - 1) * 2 ^ (total - 1 - n)

/-- The word of `RD.LAT` (40 R108): `LATNUM` in bits 55:0, `SH = max(S - 1, 0)` in bits 63:56. -/
def latencyWord (s : State) : Word :=
  BitVec.ofNat 8 (s.cfgS - 1) ++ BitVec.ofNat 56 (latencyNumerator s s.cfgS s.cfgS)

/-! ### The commands -/

/-- The stage after `OS.WRT` (R202): the tap of path `sub` is written. -/
def writeTap (g : Stage) (idx sub : Nat) (v : Word) : Stage :=
  match sub with
  | 0 => { g with tu := g.tu.write idx v }
  | 1 => { g with td := g.td.write idx v }
  | 2 => { g with cu := v }
  | _ => { g with cd := v }

/-- `OS.WRT` (R202). -/
def execOsWrt (st : BitVec 4) (idx sub : BitVec 8) (d : Word) (s : State) : Host.Outcome State Fault Refusal :=
  let v := narrow s.fpu 0 (parameterOperand d)
  command (.osWrt st idx sub d) s
    [(decide (6 ≤ st.toNat), .index), (decide (3 < sub.toNat), .index),
     (decide (sub.toNat ≤ 1) && decide (s.par.kMax ≤ idx.toNat), .index)]
    { s.setStage st.toNat (writeTap (s.stage st.toNat) idx.toNat sub.toNat v) with prepared := false }

/-- The effect of `OS.UP` (R207): the sample up through `CFG_S` stages, every result emitted, the earliest first. -/
def upEffect (c : BitVec 4) (d : Word) (s : State) : State :=
  let x := s.chan c
  let r := cascadeUp s.fpu s s.cfgS (x.ul, [sampleOperand s.par.fmt d])
  (s.setChan c { x with ul := r.1 }).emitAll .a (r.2.map (resultWord s.par.fmt))

/-- `OS.UP` (R207). -/
def execOsUp (c : BitVec 4) (d : Word) (s : State) : Host.Outcome State Fault Refusal :=
  command (.osUp c d) s [(s.badChan c, .index)] (upEffect c d s)

/-- `OS.WR` (R208). -/
def execOsWr (c : BitVec 4) (d : Word) (s : State) : Host.Outcome State Fault Refusal :=
  let x := s.chan c
  command (.osWr c d) s [(s.badChan c, .index), (decide (dqCap s ≤ x.dq.length), .overflow)]
    (s.setChan c { x with dq := x.dq ++ [sampleOperand s.par.fmt d] })

/-- The effect of `OS.DOWN` (R209): the head of the queue down through `CFG_S` stages, the one result emitted. -/
def downEffect (c : BitVec 4) (s : State) : State :=
  let x := s.chan c
  let n := 2 ^ s.cfgS
  let r := cascadeDown s.fpu s s.cfgS { x with dq := x.dq.drop n } (x.dq.take n)
  (s.setChan c r.1).emit .a (resultWord s.par.fmt (r.2.headD 0))

/-- `OS.DOWN` (R209). -/
def execOsDown (c : BitVec 4) (s : State) : Host.Outcome State Fault Refusal :=
  command (.osDown c) s
    [(s.badChan c, .index), (decide ((s.chan c).dq.length < 2 ^ s.cfgS), .underflow)] (downEffect c s)

/-- `OS.RESET` (R211): every line and queue of the oversampler; taps and configuration are kept. -/
def execOsReset (s : State) : Host.Outcome State Fault Refusal :=
  command .osReset s [] { s with chans := Vector.replicate 16 Chan.reset }

end Sys2Proof.Machine
end

