-- ==== Sys2Proof/Machine/System.lean ====
section
/-!
DEFINITION. The system commands (40_system.md): `NOP`, `CFG.WR`, `PREPARE`, `RUN`, `STOP`, `BLK`, `RD.STAT`, `RD.LAT`,
`RD.PEND`, `PR.WR`, and the procedure `ApplyParams`.
-/

namespace Sys2Proof.Machine

/-- `NOP` (R101). -/
def execNop (s : State) : Host.Outcome State Fault Refusal := command .nop s [] s

/-! ### Configuration and lifecycle -/

/-- The operand of `CFG.WR` is outside the register's legal range (R24, R102). -/
def cfgBadValue (p : Params) (sub n : Nat) : Bool :=
  match sub with
  | 0 => decide (n < 1) || decide (16 < n)
  | 1 => decide (6 < n)
  | 2 => decide (n < 1) || decide (p.maxblkMax < n)
  | 3 => decide (1 < n)
  | _ => decide (n < 1) || decide (p.kMax < n)

/-- The topology a register value stands for (R24). -/
def topologyOf (n : Nat) : Topology := if n = 0 then .tdf2 else .svf

/-- The configuration register `sub` written (R102). -/
def cfgWrite (s : State) (bnd chs : BitVec 4) (sub n : Nat) : State :=
  match sub with
  | 0 => { s with cfgNch := n }
  | 1 => { s with cfgS := n }
  | 2 => { s with cfgMaxblk := n }
  | 3 => s.setBand bnd { s.band bnd with topo := topologyOf n }
  | 4 => s.setStage chs.toNat { s.stage chs.toNat with ku := n }
  | _ => s.setStage chs.toNat { s.stage chs.toNat with kd := n }

/-- `CFG.WR` (R102). -/
def execCfgWr (bnd chs : BitVec 4) (sub : BitVec 8) (d : Word) (s : State) : Host.Outcome State Fault Refusal :=
  command (.cfgWr bnd chs sub d) s
    [(decide (5 < sub.toNat), .index),
     (decide (sub.toNat = 3) && s.badBand bnd, .index),
     ((decide (sub.toNat = 4) || decide (sub.toNat = 5)) && decide (6 ≤ chs.toNat), .index),
     (cfgBadValue s.par sub.toNat (integerOperand d), .value)]
    { cfgWrite s bnd chs sub.toNat (integerOperand d) with prepared := false }

/-- What `PREPARE` clears of a band (R103): the section state and the tracker's buffer, total, accumulator and
position. -/
def prepareBand (x : Band) : Band := rmsClear (resetCascade x)

/-- `PREPARE` (R103). -/
def execPrepare (s : State) : Host.Outcome State Fault Refusal :=
  command .prepare s []
    { s with bands := s.bands.map prepareBand, chans := Vector.replicate 16 Chan.reset, prepared := true }

/-- `RUN` (R104). -/
def execRun (s : State) : Host.Outcome State Fault Refusal := command .run s [] { s with running := true }

/-- `STOP` (R105). -/
def execStop (s : State) : Host.Outcome State Fault Refusal := command .stop s [] { s with running := false }

/-! ### The block boundary -/

/-- `ApplyParams(b)` (R111): ids 0 to 9 copied, the knee cache derived from the new values, the window resized if its
length changed. -/
def applyParams (u : Fpu) (x : Band) : Band :=
  let y := { x with active := x.staged, knee := kneeInterp u x.staged }
  if x.stgWn = x.rmsW then y else rmsResize y x.stgWn

/-- A reset of the section state is due at the block boundary (R106): requested, or the section count changes. -/
def resetDue (x : Band) : Bool := x.rstPend || (x.updPend && x.stgN != x.actN)

/-- Parameters at the block boundary (R106, first step). -/
def blockParams (u : Fpu) (x : Band) : Band :=
  if x.parPend then { applyParams u x with parPend := false } else x

/-- Section state at the block boundary (R106, second step). -/
def blockReset (x : Band) : Band := if resetDue x then { resetCascade x with rstPend := false } else x

/-- Coefficients at the block boundary (R106, third step). -/
def blockActivate (u : Fpu) (x : Band) : Band :=
  if x.updPend then { activate u x with updPend := false } else x

/-- What `BLK b` does to its band, in the order of R106. -/
def blockBoundary (u : Fpu) (x : Band) : Band := blockActivate (u.at 1) (blockReset (blockParams (u.at 0) x))

/-- `BLK` (R106). -/
def execBlk (b : BitVec 4) (s : State) : Host.Outcome State Fault Refusal :=
  command (.blk b) s [(s.badBand b, .index)] (s.setBand b (blockBoundary s.fpu (s.band b)))

/-! ### Status -/

/-- `RD.STAT` (R107). It acts after a fault too: "a well-formed `RD.STAT` ... emits the status word" (60 R254). -/
def execRdStat (s : State) : Host.Outcome State Fault Refusal :=
  if s.err then .next (s.emit s.port (statusWord s))
  else command .rdStat s [] (s.emit s.port (statusWord s))

/-- `RD.LAT` (R108). -/
def execRdLat (s : State) : Host.Outcome State Fault Refusal := command .rdLat s [] (s.emit .c (latencyWord s))

/-- `RD.PEND` (R109). -/
def execRdPend (b : BitVec 4) (s : State) : Host.Outcome State Fault Refusal :=
  command (.rdPend b) s [(s.badBand b, .index)] (s.emit s.port (pendingWord (s.band b)))

/-! ### Parameters -/

/-- The least value of a parameter: `if v < lo then lo else v` (R110). -/
def raiseTo (f : Fmt) (lo v : Word) : Word := if flt f v lo then lo else v

/-- The setter's clamp of ids 0 to 5 (R110). -/
def clampParam (p : Params) (id : Nat) (v : Word) : Word :=
  let f := p.fmt
  let one := ofInt f 1
  match id with
  | 0 => v
  | 1 => raiseTo f one v
  | 2 => raiseTo f p.kneeEps v
  | 3 => if flt f v (fneg f one) then fneg f one else if fgt f v one then one else v
  | _ => raiseTo f 0 v

/-- The setter's clamp of id 10 (R110). -/
def clampWindow (p : Params) (n : Nat) : Nat := if n < 1 then 1 else if p.wMax < n then p.wMax else n

/-- The operand of `PR.WR` is refused (R110): not finite after narrowing, or an integer above the largest legal
value. -/
def prBadValue (u : Fpu) (id : Nat) (d : Word) : Bool :=
  if id ≤ 5 then !isFinite u.fmt (narrow u 0 (parameterOperand d))
  else match id with
    | 6 => decide (4 < integerOperand d)
    | 7 => decide (4 < integerOperand d)
    | 8 => decide (1 < integerOperand d)
    | 9 => decide (1 < integerOperand d)
    | _ => false

/-- The staged parameters of a band after `PR.WR` (R110). -/
def stageParam (p : Params) (u : Fpu) (id : Nat) (d : Word) (x : Band) : Band :=
  let v := clampParam p id (narrow u 0 (parameterOperand d))
  let n := integerOperand d
  match id with
  | 0 => { x with staged := { x.staged with t := v } }
  | 1 => { x with staged := { x.staged with r := v } }
  | 2 => { x with staged := { x.staged with w := v } }
  | 3 => { x with staged := { x.staged with c := v } }
  | 4 => { x with staged := { x.staged with ra := v } }
  | 5 => { x with staged := { x.staged with rr := v } }
  | 6 => { x with staged := { x.staged with sa := n } }
  | 7 => { x with staged := { x.staged with sr := n } }
  | 8 => { x with staged := { x.staged with ph := n } }
  | 9 => { x with staged := { x.staged with byp := n } }
  | _ => { x with stgWn := clampWindow p n }

/-- `PR.WR` (R110). -/
def execPrWr (b : BitVec 4) (sub : BitVec 8) (d : Word) (s : State) : Host.Outcome State Fault Refusal :=
  command (.prWr b sub d) s
    [(s.badBand b, .index), (decide (10 < sub.toNat), .index), (prBadValue s.fpu sub.toNat d, .value)]
    (s.setBand b { stageParam s.par s.fpu sub.toNat d (s.band b) with parPend := true })

end Sys2Proof.Machine
end

