-- ==== Sys2Proof/Machine/Dispatch.lean ====
section
/-!
DEFINITION. The dispatch: one arm per command, each one direct call of its meaning.
-/

namespace Sys2Proof.Machine

def exec (i : Instr) (s : State) : Host.Outcome State Fault Refusal :=
  match i with
  | .nop => Sys2Proof.Machine.execNop s
  | .cfgWr bnd chs sub d => Sys2Proof.Machine.execCfgWr bnd chs sub d s
  | .prepare => Sys2Proof.Machine.execPrepare s
  | .run => Sys2Proof.Machine.execRun s
  | .stop => Sys2Proof.Machine.execStop s
  | .blk b => Sys2Proof.Machine.execBlk b s
  | .rdStat => Sys2Proof.Machine.execRdStat s
  | .rdLat => Sys2Proof.Machine.execRdLat s
  | .prWr b sub d => Sys2Proof.Machine.execPrWr b sub d s
  | .rdPend b => Sys2Proof.Machine.execRdPend b s
  | .bqWrc b idx sub d => Sys2Proof.Machine.execBqWrc b idx sub d s
  | .bqWrn b d => Sys2Proof.Machine.execBqWrn b d s
  | .bqCommit b r => Sys2Proof.Machine.execBqCommit b r s
  | .bqRstreq b => Sys2Proof.Machine.execBqRstreq b s
  | .bqReset b => Sys2Proof.Machine.execBqReset b s
  | .bqProc b c d => Sys2Proof.Machine.execBqProc b c d s
  | .bqSnap b => Sys2Proof.Machine.execBqSnap b s
  | .bqRds b idx sub => Sys2Proof.Machine.execBqRds b idx sub s
  | .rmsAcc b d => Sys2Proof.Machine.execRmsAcc b d s
  | .rmsPush b => Sys2Proof.Machine.execRmsPush b s
  | .rmsGet b => Sys2Proof.Machine.execRmsGet b s
  | .rmsReset b => Sys2Proof.Machine.execRmsReset b s
  | .knEval b d => Sys2Proof.Machine.execKnEval b d s
  | .foStep b d => Sys2Proof.Machine.execFoStep b d s
  | .foReset b => Sys2Proof.Machine.execFoReset b s
  | .dyRun b => Sys2Proof.Machine.execDyRun b s
  | .osWrt st idx sub d => Sys2Proof.Machine.execOsWrt st idx sub d s
  | .osUp c d => Sys2Proof.Machine.execOsUp c d s
  | .osWr c d => Sys2Proof.Machine.execOsWr c d s
  | .osDown c => Sys2Proof.Machine.execOsDown c s
  | .osReset => Sys2Proof.Machine.execOsReset s

end Sys2Proof.Machine
end

