-- ==== Sys2Proof/Machine/Fetch.lean ====
section
/-!
DEFINITION. Where a step takes its command from (10_state.md R21): the reset input, and placing a command at a port.
-/

namespace Sys2Proof.Machine

/-- The environment's next settled choice is the reset input. -/
def State.resetDueNow (s : State) : Bool :=
  match s.inputs with
  | .reset :: _ => true
  | .port _ :: _ => false
  | [] => false

/-- The port a header is delivered on by default (30_encoding.md R88): the one it is legal on, port A where both are or
where there is no such command. -/
def homePort (h : Header) : Port :=
  match Op.ofCode (hdrOp h) with
  | none => .a
  | some o => o.port.getD .a

/-- A command list with a command at a position; positions before it that the list lacks hold `NOP`. -/
def placeAt (l : List Cmd) (n : Nat) (k : Cmd) : List Cmd :=
  match n, l with
  | 0, [] => [k]
  | 0, _ :: rest => k :: rest
  | n + 1, [] => { h := 0, d := 0 } :: placeAt [] n k
  | n + 1, x :: rest => x :: placeAt rest n k

/-- The state in which `k` is the next command of its home port and that port moves next. -/
def State.place (s : State) (k : Cmd) : State :=
  match homePort k.h with
  | .a => { s with progA := placeAt s.progA s.cpA k, inputs := .port .a :: s.inputs }
  | .c => { s with progC := placeAt s.progC s.cpC k, inputs := .port .c :: s.inputs }

end Sys2Proof.Machine
end

