-- ==== Sys2Proof/Machine/Step.lean ====
section
/-!
DEFINITION. One step of the machine (20_memory.md R67, R21; 70_reset_and_hazards.md R275): a hardware reset where the
environment asserts it, else one command of one port, run to completion.
-/

namespace Sys2Proof.Machine

/-- Runs the words of a command on the port it was accepted from (R87, R100). -/
def runWords (k : Cmd) (s : State) : Host.Outcome State Fault Refusal :=
  match decode k with
  | .ok i => exec i s
  | .illegal => .next (rejectWords none k.h s)
  | .reserved o => .next (rejectWords (some o) k.h s)

/-- One command of the port that moves next. -/
def commandStep (s : State) : Host.Outcome State Fault Refusal :=
  match s.pick with
  | none => .fault .runOver
  | some (p, k) => runWords k (s.accept p)

/-- One step. -/
def step (s : State) : Host.Outcome State Fault Refusal :=
  if s.resetDueNow then .next s.hardwareReset else commandStep s

/-- The state in which the very next step runs the command whose bits are `w`: the command stands at the position of
the port it is legal on (port A where both are), and the environment's next choice is that port. -/
def State.withFetchWord (s : State) (nbits w : Nat) : State := s.place (Cmd.ofBits (w % 2 ^ nbits))

end Sys2Proof.Machine
end

