-- ==== Sys2Proof/Safety.lean ====
section
/-!
DEFINITION. The terms statements use: when a command may run, when a run is over and final (20_memory.md R76), and the legal
values of the state (10_state.md R24, R25, R32, R38).
-/

namespace Sys2Proof.Machine

/-! ### When a command may run (60_exceptions.md R259) -/

/-- No fault is recorded and the command came on port A in mode RUNNING: where every port-A command is legal. -/
abbrev State.Processing (s : State) : Prop := s.err = false ∧ s.port = .a ∧ s.running = true

/-- No fault is recorded and the command came on port C. -/
abbrev State.Control (s : State) : Prop := s.err = false ∧ s.port = .c

/-- No fault is recorded, the command came on port C, and the mode is STOPPED. -/
abbrev State.Configuring (s : State) : Prop := s.err = false ∧ s.port = .c ∧ s.running = false

/-- The band exists. -/
abbrev State.HasBand (s : State) (b : BitVec 4) : Prop := b.toNat < s.par.nband

/-- The channel exists. -/
abbrev State.HasChan (s : State) (c : BitVec 4) : Prop := c.toNat < s.cfgNch

/-- The command raises the fault: its next state is the one of R252. -/
def Faults (i : Instr) (s : State) (code : ErrCode) : Prop := exec i s = .next (s.raise code i.header)

/-- The command is legal on this port only: on the other one it raises `PORT`. -/
def OnlyOn (p : Port) (i : Instr) : Prop := ∀ s : State, s.err = false → s.port ≠ p → Faults i s .port

/-- A port-A command that is legal in mode RUNNING only: it raises `MODE` in mode STOPPED. -/
def OnlyRunning (i : Instr) : Prop :=
  ∀ s : State, s.err = false → s.port = .a → s.running = false → Faults i s .mode

/-- A port-C command that is legal in mode STOPPED only: well-formed, it raises `MODE` in mode RUNNING. -/
def OnlyStopped (i : Instr) : Prop :=
  ∀ s : State, s.err = false → s.port = .c → i.wellFormed = true → s.running = true → Faults i s .mode

/-- The number of result words a command emits (30_encoding.md R83, R84: the column `res`). -/
def resultCount (i : Instr) (s : State) : Nat :=
  if i.op = .osUp then 2 ^ s.cfgS
  else if i.op ∈ [Op.rdStat, .rdLat, .rdPend, .bqProc, .bqRds, .rmsGet, .knEval, .foStep, .dyRun, .osDown] then 1
  else 0

/-! ### Sequences through an oversampler stage (46_oversampler.md R205, R206), whatever NaNs are drawn -/

/-- The line `l` becomes `l'` and the samples become `out` when each sample in order goes through the up path. -/
def UpRun (f : Fmt) (g : Stage) : Bank → List Word → Bank → List Word → Prop
  | l, [], l', out => l' = l ∧ out = []
  | l, v :: rest, l', out => ∃ (u : Fpu) (out' : List Word), u.fmt = f
      ∧ out = (stageUp u g l v).2.1 :: (stageUp u g l v).2.2 :: out' ∧ UpRun f g (stageUp u g l v).1 rest l' out'

/-- The lines `cl`, `dl` become `cl'`, `dl'` and the samples become `out` when each pair in order goes through the down
path. -/
def DownRun (f : Fmt) (g : Stage) : Bank → Bank → List Word → Bank → Bank → List Word → Prop
  | cl, dl, v0 :: v1 :: rest, cl', dl', out => ∃ (u : Fpu) (out' : List Word), u.fmt = f
      ∧ out = (stageDown u g cl dl v0 v1).2.2 :: out'
      ∧ DownRun f g (stageDown u g cl dl v0 v1).1 (stageDown u g cl dl v0 v1).2.1 rest cl' dl' out'
  | cl, dl, [_], cl', dl', out => cl' = cl ∧ dl' = dl ∧ out = []
  | cl, dl, [], cl', dl', out => cl' = cl ∧ dl' = dl ∧ out = []

/-! ### The reset table (10_state.md R42) -/

/-- A band holds the values of R42. -/
def Band.AtReset (p : Params) (x : Band) : Prop :=
  x.topo = .tdf2 ∧ x.updPend = false ∧ x.rstPend = false ∧ x.parPend = false
    ∧ (∀ a : DynParams, a = x.staged ∨ a = x.active →
        a.t = 0 ∧ a.r = ofInt p.fmt 1 ∧ a.w = p.kneeEps ∧ a.c = 0 ∧ a.ra = 0 ∧ a.rr = 0
          ∧ a.sa = 0 ∧ a.sr = 0 ∧ a.ph = 0 ∧ a.byp = 1)
    ∧ x.stgWn = 1 ∧ x.rmsW = 1 ∧ x.rmsPos = 0 ∧ x.rmsTot = 0 ∧ x.rmsAcc = 0
    ∧ x.stgN = 0 ∧ x.actN = 0 ∧ x.snpN = 0
    ∧ (∀ n : Nat, x.stgC.read n = 0 ∧ x.actC.read n = 0 ∧ x.actV.read n = 0 ∧ x.snpC.read n = 0 ∧ x.st.read n = 0
        ∧ x.rmsBuf.read n = 0)
    ∧ (∃ u : Fpu, u.fmt = p.fmt ∧ x.knee.lo = fsub u 0 0 p.kneeEps) ∧ x.knee.hi = p.kneeEps
    ∧ x.knee.sl = ofInt p.fmt 1 ∧ x.knee.qa = 0 ∧ x.knee.yh = p.kneeEps ∧ x.knee.ab = 0 ∧ x.knee.sg = false
    ∧ x.foXS = 0 ∧ x.foXC = 0 ∧ x.dyOut = 0

/-- The block's state holds the values of R42. -/
def State.AtReset (s : State) : Prop :=
  s.running = false ∧ s.prepared = false ∧ s.err = false ∧ s.errCode = 0 ∧ s.errCmd = 0 ∧ s.errPort = .a
    ∧ s.cfgNch = 1 ∧ s.cfgS = 0 ∧ s.cfgMaxblk = 1
    ∧ (∀ b : BitVec 4, (s.band b).AtReset s.par)
    ∧ (∀ n : Nat, n < 6 → (s.stage n).ku = 1 ∧ (s.stage n).kd = 1 ∧ (s.stage n).cu = 0 ∧ (s.stage n).cd = 0
        ∧ ∀ k : Nat, (s.stage n).tu.read k = 0 ∧ (s.stage n).td.read k = 0)
    ∧ (∀ c : BitVec 4, (s.chan c).dq = [] ∧ ∀ n k : Nat, n < 6 → (lineAt (s.chan c).ul n).read k = 0
        ∧ (lineAt (s.chan c).dl n).read k = 0 ∧ (lineAt (s.chan c).cl n).read k = 0)
    ∧ s.respA = [] ∧ s.respC = []

/-! ### Runs (20_memory.md R76) -/

/-- Both command lists are consumed. -/
def State.Over (s : State) : Prop := s.progA.length ≤ s.cpA ∧ s.progC.length ≤ s.cpC

/-- The run is over and no fault is recorded. -/
def State.Final (s : State) : Prop := s.Over ∧ s.err = false

/-- The observation of a run: the two response streams and the final state (R76). -/
def State.observation (s : State) : List Word × List Word × State := (s.respA, s.respC, s)

/-! ### What the host owes (47_host_contract.md, 70_reset_and_hazards.md)

Hypotheses for claims about runs: "a model uses these rules as hypotheses of theorems, never as behaviour of the block". -/

/-- The number a finite encoding stands for. -/
def valueOf (f : Fmt) (w : Word) : ℚ :=
  (if signBit f w then -1 else 1) * (significand f w : ℚ) * (2 : ℚ) ^ exponent f w

/-- A section is stable (R227): finite coefficients, `|a2| < 1` and `|a1| < 1 + a2` as real numbers. -/
def SectionStable (f : Fmt) (k : Coeffs) : Prop :=
  (∀ w ∈ [k.b0, k.b1, k.b2, k.a1, k.a2], isFinite f w = true)
    ∧ |valueOf f k.a2| < 1 ∧ |valueOf f k.a1| < 1 + valueOf f k.a2

/-- The active sections of every band are stable (R136, R227). -/
def State.ActiveStable (s : State) : Prop :=
  ∀ (b : BitVec 4) (n : Nat), n < (s.band b).actN → SectionStable s.par.fmt (coeffsAt (s.band b).actC n)

/-- Port C does not write the staging bank of a band whose commit is still waiting (R280). -/
def State.KeepsStaging (s : State) : Prop :=
  ∀ (k : Cmd) (i : Instr), s.nextCmd .c = some k → decode k = .ok i → i.op ∈ [Op.bqWrc, .bqWrn] →
    (s.band i.fields.bnd).updPend = false

/-- Port C stops the block only when port A is drained (R241, R283). -/
def State.KeepsDrain (s : State) : Prop :=
  ∀ k : Cmd, s.nextCmd .c = some k → decode k = .ok .stop → s.nextCmd .a = none

/-- Port A keeps the queues within their fill and capacity (R240, R286). -/
def State.KeepsQueues (s : State) : Prop :=
  ∀ (k : Cmd) (i : Instr), s.nextCmd .a = some k → decode k = .ok i →
    (i.op = .osWr → (s.chan i.fields.chs).dq.length < dqCap s)
    ∧ (i.op = .osDown → 2 ^ s.cfgS ≤ (s.chan i.fields.chs).dq.length)

/-! ### Legal values -/

/-- The integer parameters of ids 6 to 9 (R25). -/
def DynParams.IntsLegal (a : DynParams) : Prop := a.sa ≤ 4 ∧ a.sr ≤ 4 ∧ a.ph ≤ 1 ∧ a.byp ≤ 1

/-- The integers of a band are in their ranges (R25, R27, R28, R31, R32). -/
def Band.IntsLegal (p : Params) (x : Band) : Prop :=
  x.stgN ≤ 8 ∧ x.actN ≤ 8 ∧ x.snpN ≤ 8
    ∧ 1 ≤ x.rmsW ∧ x.rmsW ≤ p.wMax ∧ x.rmsPos < x.rmsW ∧ 1 ≤ x.stgWn ∧ x.stgWn ≤ p.wMax
    ∧ x.staged.IntsLegal ∧ x.active.IntsLegal

/-- The tap counts of a stage are in their ranges (R24). -/
def Stage.IntsLegal (p : Params) (g : Stage) : Prop := 1 ≤ g.ku ∧ g.ku ≤ p.kMax ∧ 1 ≤ g.kd ∧ g.kd ≤ p.kMax

/-- Every integer the block stores is in its stated range (R7, R24), under legal implementation parameters. -/
def State.IntsLegal (s : State) : Prop :=
  paramsLegal s.par = true
    ∧ 1 ≤ s.cfgNch ∧ s.cfgNch ≤ 16 ∧ s.cfgS ≤ 6 ∧ 1 ≤ s.cfgMaxblk ∧ s.cfgMaxblk ≤ s.par.maxblkMax
    ∧ (∀ b : BitVec 4, (s.band b).IntsLegal s.par)
    ∧ ∀ n : Nat, n < 6 → (s.stage n).IntsLegal s.par

/-- The banks of a band are in canonical form, each inside its index range; the tracker's buffer holds nothing at or
beyond `RMS_W[b]` (R32). -/
def Band.Stored (x : Band) : Prop :=
  x.stgC.wf 40 = true ∧ x.actC.wf 40 = true ∧ x.actV.wf 48 = true ∧ x.st.wf 256 = true ∧ x.snpC.wf 40 = true
    ∧ x.rmsBuf.wf x.rmsW = true

/-- The taps of a stage are in canonical form inside `K_MAX` (R36). -/
def Stage.Stored (p : Params) (g : Stage) : Prop := g.tu.wf p.kMax = true ∧ g.td.wf p.kMax = true

/-- The delay lines of a channel are in canonical form inside their lengths (R37). -/
def Chan.Stored (p : Params) (x : Chan) : Prop :=
  ∀ n : Nat, n < 6 → (lineAt x.ul n).wf (2 * p.kMax) = true ∧ (lineAt x.dl n).wf (2 * p.kMax) = true
    ∧ (lineAt x.cl n).wf p.kMax = true

/-- Every index space is in canonical form and holds only elements the block has (R27 to R32, R36, R37). -/
def State.Stored (s : State) : Prop :=
  (∀ b : BitVec 4, (s.band b).Stored) ∧ (∀ n : Nat, n < 6 → (s.stage n).Stored s.par)
    ∧ ∀ c : BitVec 4, (s.chan c).Stored s.par

/-- The floating-point parameters, ids 0 to 5, are in the ranges of R25: finite, ratio at least 1, half-width at least
`KNEE_EPS`, shape in -1 .. 1, rates at least 0. -/
def DynParams.FloatsLegal (p : Params) (a : DynParams) : Prop :=
  let f := p.fmt
  let one := ofInt f 1
  isFinite f a.t = true
    ∧ isFinite f a.r = true ∧ fle f one a.r = true
    ∧ isFinite f a.w = true ∧ fle f p.kneeEps a.w = true
    ∧ isFinite f a.c = true ∧ fle f (fneg f one) a.c = true ∧ fle f a.c one = true
    ∧ isFinite f a.ra = true ∧ fle f 0 a.ra = true
    ∧ isFinite f a.rr = true ∧ fle f 0 a.rr = true

/-- Every staged and every active parameter is legal (R25: "a stored value is always legal" for the setter's
clamps of 40 R110). -/
def State.ParamsInRange (s : State) : Prop :=
  paramsLegal s.par = true
    ∧ ∀ b : BitVec 4, (s.band b).staged.FloatsLegal s.par ∧ (s.band b).active.FloatsLegal s.par

/-- The mode and the status fields agree: RUNNING only when prepared (R104), no code without a fault (R23), codes 1 to
9 with one (R251), and while prepared no queue holds more than `DQCAP` (R38). -/
def State.ModeConsistent (s : State) : Prop :=
  (s.running = true → s.prepared = true)
    ∧ (s.err = false → s.errCode = 0 ∧ s.errCmd = 0 ∧ s.errPort = .a)
    ∧ (s.err = true → 1 ≤ s.errCode.toNat ∧ s.errCode.toNat ≤ 9)
    ∧ (s.prepared = true → ∀ c : BitVec 4, (s.chan c).dq.length ≤ dqCap s)

end Sys2Proof.Machine
end

