-- ==== Sys2Proof/Certificates/Slice0/Obligations.lean ====
section
/-!
DEFINITION. The statements for the provers, from the spec's numbered rules. Each docstring names the rules; `OBLIGATIONS.json` lists them.

A statement that involves rounded arithmetic says `∃ u : Fpu, u.fmt = ...`: the arithmetic of the format, whatever NaNs it
draws (00_scope.md R9; log 5).
-/

section

open Sys2Proof Sys2Proof.Machine

/-- NOP does nothing, on both ports, in every mode, after a fault; any other word with its opcode is FIELD (R101). -/
def Obligations.NopDoesNothing : Prop :=
  (∀ s : State, exec .nop s = .next s)
    ∧ decode { h := 0, d := 0 } = .ok .nop
    ∧ ∀ (k : Cmd) (s : State), hdrOp k.h = 0 → k ≠ { h := 0, d := 0 } → s.err = false →
        runWords k s = .next (s.raise .field k.h)

/-- CFG.WR writes the one register, clears PREPARED, and makes its checks in order (R102). -/
def Obligations.CfgWrWritesRegister : Prop :=
  ∀ (bnd chs : BitVec 4) (sub : BitVec 8) (d : Word),
    let i : Instr := .cfgWr bnd chs sub d
    let n := d.toNat
    OnlyOn .c i ∧ OnlyStopped i ∧ ∀ s : State, s.Configuring →
      (sub = 0 → bnd = 0 → chs = 0 → 1 ≤ n → n ≤ 16 → exec i s = .next { s with cfgNch := n, prepared := false })
      ∧ (sub = 1 → bnd = 0 → chs = 0 → n ≤ 6 → exec i s = .next { s with cfgS := n, prepared := false })
      ∧ (sub = 2 → bnd = 0 → chs = 0 → 1 ≤ n → n ≤ s.par.maxblkMax →
          exec i s = .next { s with cfgMaxblk := n, prepared := false })
      ∧ (sub = 3 → chs = 0 → s.HasBand bnd → n ≤ 1 →
          exec i s = .next { s.setBand bnd { s.band bnd with topo := if n = 0 then .tdf2 else .svf }
            with prepared := false })
      ∧ (sub = 4 → bnd = 0 → chs.toNat < 6 → 1 ≤ n → n ≤ s.par.kMax →
          exec i s = .next { s.setStage chs.toNat { s.stage chs.toNat with ku := n } with prepared := false })
      ∧ (sub = 5 → bnd = 0 → chs.toNat < 6 → 1 ≤ n → n ≤ s.par.kMax →
          exec i s = .next { s.setStage chs.toNat { s.stage chs.toNat with kd := n } with prepared := false })
      ∧ ((bnd ≠ 0 ∧ sub ≠ 3) ∨ (chs ≠ 0 ∧ sub ≠ 4 ∧ sub ≠ 5) → Faults i s .field)
      ∧ (i.wellFormed = true →
          (5 < sub.toNat ∨ (sub = 3 ∧ ¬ s.HasBand bnd) ∨ ((sub = 4 ∨ sub = 5) ∧ 6 ≤ chs.toNat)) → Faults i s .index)
      ∧ (i.wellFormed = true →
          ((sub = 0 ∧ ¬ (1 ≤ n ∧ n ≤ 16)) ∨ (sub = 1 ∧ 6 < n) ∨ (sub = 2 ∧ ¬ (1 ≤ n ∧ n ≤ s.par.maxblkMax))
            ∨ (sub = 3 ∧ s.HasBand bnd ∧ 1 < n)
            ∨ ((sub = 4 ∨ sub = 5) ∧ chs.toNat < 6 ∧ ¬ (1 ≤ n ∧ n ≤ s.par.kMax))) → Faults i s .value)

/-- PREPARE clears section state, oversampler lines, queues and tracker contents, sets PREPARED, keeps the rest (R103). -/
def Obligations.PrepareClearsRunState : Prop :=
  OnlyOn .c .prepare ∧ OnlyStopped .prepare ∧ ∀ s : State, s.Configuring → ∃ t : State,
    exec .prepare s = .next t ∧ t = { s with bands := t.bands, chans := t.chans, prepared := true }
    ∧ (∀ b : BitVec 4,
        t.band b = { s.band b with
          st := (t.band b).st, rmsBuf := (t.band b).rmsBuf, rmsTot := 0, rmsAcc := 0, rmsPos := 0 }
        ∧ ∀ n : Nat, (t.band b).st.read n = 0 ∧ (t.band b).rmsBuf.read n = 0)
    ∧ (∀ c : BitVec 4, (t.chan c).dq = [] ∧ ∀ n k : Nat, n < 6 →
        (lineAt (t.chan c).ul n).read k = 0 ∧ (lineAt (t.chan c).dl n).read k = 0
          ∧ (lineAt (t.chan c).cl n).read k = 0)
    ∧ exec .prepare t = .next t

/-- RUN enters RUNNING when prepared, STOP leaves it; each changes the one flag (R104, R105). -/
def Obligations.RunAndStopSwitchMode : Prop :=
  OnlyOn .c .run ∧ OnlyOn .c .stop ∧ ∀ s : State, s.Control →
    (s.running = false → s.prepared = true → exec .run s = .next { s with running := true })
    ∧ (s.running = true ∨ s.prepared = false → Faults .run s .mode)
    ∧ (s.running = true → exec .stop s = .next { s with running := false })
    ∧ (s.running = false → Faults .stop s .mode)

/-- BLK applies what is pending in the order parameters, state reset, coefficients, and clears the three flags (R106). -/
def Obligations.BlkRunsBlockBoundary : Prop :=
  ∀ b : BitVec 4, OnlyOn .a (.blk b) ∧ OnlyRunning (.blk b) ∧ ∀ s : State, s.Processing →
    (¬ s.HasBand b → Faults (.blk b) s .index)
    ∧ (s.HasBand b → ∃ (t : State) (u u' : Fpu) (x1 x2 : Band),
        exec (.blk b) s = .next t ∧ t = s.setBand b (t.band b) ∧ u.fmt = s.par.fmt ∧ u'.fmt = s.par.fmt
        ∧ (x1 = if (s.band b).parPend = true then { applyParams u (s.band b) with parPend := false } else s.band b)
        ∧ (x2 = if x1.rstPend = true ∨ (x1.updPend = true ∧ x1.stgN ≠ x1.actN)
            then { resetCascade x1 with rstPend := false } else x1)
        ∧ (t.band b = if x2.updPend = true then { activate u' x2 with updPend := false } else x2)
        ∧ (t.band b).parPend = false ∧ (t.band b).rstPend = false ∧ (t.band b).updPend = false
        ∧ exec (.blk b) t = .next t)

/-- With parameters pending, BLK copies the staged values, derives the knee cache and resizes the window (R111). -/
def Obligations.ApplyParamsCopiesAndDerives : Prop :=
  ∀ (s : State) (b : BitVec 4), s.Processing → s.HasBand b → (s.band b).parPend = true →
    ∃ (t : State) (u : Fpu), u.fmt = s.par.fmt ∧ exec (.blk b) s = .next t ∧ t = s.setBand b (t.band b) ∧
      let f := s.par.fmt
      let one := ofInt f 1
      let x := s.band b
      let y := t.band b
      let a := x.staged
      y.active = a ∧ y.staged = a ∧ y.stgWn = x.stgWn
      ∧ y.knee.lo = fsub u 1 a.t a.w
      ∧ y.knee.hi = fadd u 2 a.t a.w
      ∧ y.knee.sl = fdiv u 0 one a.r
      ∧ y.knee.qa = fdiv u 3 (fsub u 4 y.knee.sl one) (fmul u 5 (ofInt f 4) a.w)
      ∧ y.knee.yh = fadd u 6 a.t (fmul u 7 a.w y.knee.sl)
      ∧ y.knee.ab = fabs f a.c
      ∧ y.knee.sg = flt f a.c 0
      ∧ (x.stgWn ≠ x.rmsW → y.rmsW = x.stgWn ∧ y.rmsTot = 0 ∧ y.rmsAcc = 0 ∧ y.rmsPos = 0
          ∧ ∀ n : Nat, y.rmsBuf.read n = 0)
      ∧ (x.stgWn = x.rmsW → y.rmsW = x.rmsW ∧ y.rmsTot = x.rmsTot ∧ y.rmsAcc = x.rmsAcc ∧ y.rmsPos = x.rmsPos
          ∧ y.rmsBuf = x.rmsBuf)
      ∧ y.foXS = x.foXS ∧ y.foXC = x.foXC ∧ y.dyOut = x.dyOut
      ∧ (x.updPend = false → x.rstPend = false →
          y = { x with parPend := false, active := y.active, knee := y.knee, rmsW := y.rmsW, rmsTot := y.rmsTot,
                       rmsAcc := y.rmsAcc, rmsPos := y.rmsPos, rmsBuf := y.rmsBuf })

/-- With an update pending, BLK narrows all eight staged sections and fills the SVF bank by the transform's equations, and leaves the rest (R129, R130). -/
def Obligations.ActivateConvertsWholeBank : Prop :=
  (∀ (s : State) (b : BitVec 4), s.Processing → s.HasBand b → (s.band b).updPend = true →
    ∃ t : State, exec (.blk b) s = .next t ∧ t = s.setBand b (t.band b) ∧
      let x := s.band b
      let y := t.band b
      y.actN = x.stgN
      ∧ (∀ n k : Nat, n < 8 → k < 5 → ∃ (u : Fpu) (p : Nat), u.fmt = s.par.fmt
          ∧ y.actC.read (5 * n + k) = narrow u p (x.stgC.read (5 * n + k)))
      ∧ (∀ n : Nat, n < 8 → ∃ u : Fpu, u.fmt = s.par.fmt ∧ svfAt y.actV n = svfTransform u (coeffsAt x.stgC n))
      ∧ y = { x with
          parPend := false, rstPend := false, updPend := false, st := y.st,
          active := y.active, knee := y.knee, rmsW := y.rmsW, rmsTot := y.rmsTot, rmsAcc := y.rmsAcc,
          rmsPos := y.rmsPos, rmsBuf := y.rmsBuf, actN := y.actN, actC := y.actC, actV := y.actV }
      ∧ (x.parPend = false →
          y = { x with
            rstPend := false, updPend := false, st := y.st, actN := y.actN, actC := y.actC, actV := y.actV })
      ∧ (x.rstPend = true ∨ x.stgN ≠ x.actN →
          ∀ (c : BitVec 4) (n i : Nat), n < 8 → i < 2 → y.st.read (stIndex c n + i) = 0)
      ∧ (x.rstPend = false → x.stgN = x.actN → y.st = x.st)
      ∧ (x.parPend = false → x.rstPend = false → x.stgN = x.actN →
          y = { x with updPend := false, actN := y.actN, actC := y.actC, actV := y.actV }))
  ∧ ∀ (u : Fpu) (q : Coeffs),
      let one := ofInt .binary64 1
      let two := ofInt .binary64 2
      ∃ (d : Fpu) (sa da t1 t2 p g r2 h chp cbp clp : Word), d.fmt = .binary64
        ∧ sa = fadd d 0 (fadd d 1 one q.a1) q.a2
        ∧ da = fadd d 2 (fsub d 3 one q.a1) q.a2
        ∧ t1 = fsqrt d 4 (fabs .binary64 sa)
        ∧ t2 = fsqrt d 5 (fabs .binary64 da)
        ∧ p = fmul d 6 t1 t2
        ∧ g = fdiv d 7 t1 t2
        ∧ r2 = fdiv d 8 (fmul d 9 two (fsub d 10 one q.a2)) p
        ∧ h = fdiv d 11 one (fadd d 12 (fmul d 13 g (fadd d 14 r2 g)) one)
        ∧ chp = fdiv d 15 (fadd d 16 (fsub d 17 q.b0 q.b1) q.b2) da
        ∧ cbp = fdiv d 18 (fmul d 19 two (fsub d 20 q.b0 q.b2)) p
        ∧ clp = fdiv d 21 (fadd d 22 (fadd d 23 q.b0 q.b1) q.b2) sa
        ∧ svfTransform u q = {
            g := narrow u 24 g, r2 := narrow u 25 r2, h := narrow u 26 h,
            chp := narrow u 27 chp, cbp := narrow u 28 cbp, clp := narrow u 29 clp }

/-- RD.STAT emits the status word on its own port, in every mode and after a fault, and changes nothing else (R107). -/
def Obligations.RdStatEmitsStatusWord : Prop :=
  ∀ s : State, ∃ w : Word, exec .rdStat s = .next (s.emit s.port w)
    ∧ w.getLsbD 0 = s.running ∧ w.getLsbD 1 = s.prepared ∧ w.getLsbD 2 = s.err
    ∧ w.extractLsb' 3 5 = 0 ∧ w.extractLsb' 8 8 = s.errCode
    ∧ w.getLsbD 16 = decide (s.errPort = .c) ∧ w.extractLsb' 17 15 = 0 ∧ w.extractLsb' 32 32 = s.errCmd

/-- RD.LAT emits the latency numerator and the shift computed from the tap counts (R108, R212). -/
def Obligations.RdLatReadsLatency : Prop :=
  OnlyOn .c .rdLat ∧ ∀ s : State, s.IntsLegal → s.Control → ∃ w : Word, exec .rdLat s = .next (s.emit .c w)
    ∧ (w.extractLsb' 0 56).toNat
        = ∑ n ∈ Finset.range s.cfgS, ((s.stage n).ku + (s.stage n).kd - 1) * 2 ^ (s.cfgS - 1 - n)
    ∧ (w.extractLsb' 0 56).toNat < 2 ^ 17
    ∧ (w.extractLsb' 56 8).toNat = max (s.cfgS - 1) 0

/-- RD.PEND emits the three pending flags of its band on the issuing port, in every mode (R109, R26). -/
def Obligations.RdPendEmitsPendingFlags : Prop :=
  ∀ (s : State) (b : BitVec 4), s.err = false →
    (¬ s.HasBand b → Faults (.rdPend b) s .index)
    ∧ (s.HasBand b → ∃ w : Word, exec (.rdPend b) s = .next (s.emit s.port w)
        ∧ w.getLsbD 0 = (s.band b).updPend ∧ w.getLsbD 1 = (s.band b).rstPend ∧ w.getLsbD 2 = (s.band b).parPend
        ∧ w.extractLsb' 3 61 = 0)

/-- PR.WR stages the one clamped parameter and raises PAR_PEND, refuses what cannot be clamped (R110). -/
def Obligations.PrWrStagesClampedValue : Prop :=
  ∀ (b : BitVec 4) (sub : BitVec 8) (d : Word),
    let i : Instr := .prWr b sub d
    let n := d.toNat
    OnlyOn .c i ∧ ∀ s : State, s.Control →
      let f := s.par.fmt
      let one := ofInt f 1
      let x := { s.band b with parPend := true }
      let a := (s.band b).staged
      (¬ s.HasBand b ∨ 10 < sub.toNat → Faults i s .index)
      ∧ (s.HasBand b → sub.toNat ≤ 5 → ∃ u : Fpu, u.fmt = f ∧
          let v := narrow u 0 d
          (isFinite f v = false → Faults i s .value)
          ∧ (isFinite f v = true →
              (sub = 0 → exec i s = .next (s.setBand b { x with staged := { a with t := v } }))
              ∧ (sub = 1 → exec i s = .next (s.setBand b
                  { x with staged := { a with r := if flt f v one = true then one else v } }))
              ∧ (sub = 2 → exec i s = .next (s.setBand b
                  { x with staged := { a with w := if flt f v s.par.kneeEps = true then s.par.kneeEps else v } }))
              ∧ (sub = 3 → exec i s = .next (s.setBand b
                  { x with staged := { a with c := if flt f v (fneg f one) = true then fneg f one
                                                   else if fgt f v one = true then one else v } }))
              ∧ (sub = 4 → exec i s = .next (s.setBand b
                  { x with staged := { a with ra := if flt f v 0 = true then 0 else v } }))
              ∧ (sub = 5 → exec i s = .next (s.setBand b
                  { x with staged := { a with rr := if flt f v 0 = true then 0 else v } }))))
      ∧ (s.HasBand b →
          ((sub = 6 ∨ sub = 7) → 4 < n → Faults i s .value)
          ∧ ((sub = 8 ∨ sub = 9) → 1 < n → Faults i s .value)
          ∧ (sub = 6 → n ≤ 4 → exec i s = .next (s.setBand b { x with staged := { a with sa := n } }))
          ∧ (sub = 7 → n ≤ 4 → exec i s = .next (s.setBand b { x with staged := { a with sr := n } }))
          ∧ (sub = 8 → n ≤ 1 → exec i s = .next (s.setBand b { x with staged := { a with ph := n } }))
          ∧ (sub = 9 → n ≤ 1 → exec i s = .next (s.setBand b { x with staged := { a with byp := n } }))
          ∧ (sub = 10 → exec i s = .next (s.setBand b
              { x with stgWn := if n < 1 then 1 else if n > s.par.wMax then s.par.wMax else n })))

/-- BQ.WRC writes the one staged coefficient, no other of the forty (R121). -/
def Obligations.BqWrcWritesOneCoefficient : Prop :=
  ∀ (b : BitVec 4) (idx sub : BitVec 8) (d : Word),
    let i : Instr := .bqWrc b idx sub d
    OnlyOn .c i ∧ ∀ s : State, s.Control →
      (¬ s.HasBand b ∨ 8 ≤ idx.toNat ∨ 4 < sub.toNat → Faults i s .index)
      ∧ (s.HasBand b → idx.toNat < 8 → sub.toNat ≤ 4 → (s.band b).updPend = true → Faults i s .busy)
      ∧ (s.HasBand b → idx.toNat < 8 → sub.toNat ≤ 4 → (s.band b).updPend = false → ∃ t : State,
          exec i s = .next t ∧ t = s.setBand b { s.band b with stgC := (t.band b).stgC }
          ∧ ∀ n k : Nat, n < 8 → k < 5 → (t.band b).stgC.read (5 * n + k)
              = if n = idx.toNat ∧ k = sub.toNat then d else (s.band b).stgC.read (5 * n + k))

/-- BQ.WRN writes the staged section count, with its three checks in order (R122). -/
def Obligations.BqWrnWritesCount : Prop :=
  ∀ (b : BitVec 4) (d : Word), OnlyOn .c (.bqWrn b d) ∧ ∀ s : State, s.Control →
    (¬ s.HasBand b → Faults (.bqWrn b d) s .index)
    ∧ (s.HasBand b → 8 < d.toNat → Faults (.bqWrn b d) s .value)
    ∧ (s.HasBand b → d.toNat ≤ 8 → (s.band b).updPend = true → Faults (.bqWrn b d) s .busy)
    ∧ (s.HasBand b → d.toNat ≤ 8 → (s.band b).updPend = false →
        exec (.bqWrn b d) s = .next (s.setBand b { s.band b with stgN := d.toNat }))

/-- BQ.COMMIT sets UPD_PEND and, with R, RST_PEND; BQ.RSTREQ sets RST_PEND (R123, R124). -/
def Obligations.CommitAndResetRequestRaiseFlags : Prop :=
  ∀ b : BitVec 4, (∀ r : Bool, OnlyOn .c (.bqCommit b r)) ∧ OnlyOn .c (.bqRstreq b) ∧ ∀ s : State, s.Control →
    (¬ s.HasBand b → (∀ r : Bool, Faults (.bqCommit b r) s .index) ∧ Faults (.bqRstreq b) s .index)
    ∧ (s.HasBand b →
        exec (.bqCommit b false) s = .next (s.setBand b { s.band b with updPend := true })
        ∧ exec (.bqCommit b true) s = .next (s.setBand b { s.band b with updPend := true, rstPend := true })
        ∧ exec (.bqRstreq b) s = .next (s.setBand b { s.band b with rstPend := true }))

/-- BQ.RESET leaves every section state of its band +0 and is idempotent (R125, R131). -/
def Obligations.BqResetClearsSectionState : Prop :=
  ∀ b : BitVec 4, OnlyOn .a (.bqReset b) ∧ OnlyRunning (.bqReset b) ∧ ∀ s : State, s.Processing →
    (¬ s.HasBand b → Faults (.bqReset b) s .index)
    ∧ (s.HasBand b → ∃ t : State, exec (.bqReset b) s = .next t
        ∧ t = s.setBand b { s.band b with st := (t.band b).st }
        ∧ (∀ (c : BitVec 4) (n i : Nat), n < 8 → i < 2 → (t.band b).st.read (stIndex c n + i) = 0)
        ∧ exec (.bqReset b) t = .next t)

/-- BQ.PROC runs the sample through the active sections in series by the equations of their topology, stores their state, emits the output (R126, R127, R128). -/
def Obligations.BqProcRunsSectionsInSeries : Prop :=
  (∀ (b c : BitVec 4) (d : Word), OnlyOn .a (.bqProc b c d) ∧ OnlyRunning (.bqProc b c d) ∧
    ∀ s : State, s.Processing →
      (¬ s.HasBand b ∨ ¬ s.HasChan c → Faults (.bqProc b c d) s .index)
      ∧ (s.HasBand b → s.HasChan c → (s.band b).actN = 0 →
          exec (.bqProc b c d) s = .next (s.emit .a (sampleOperand s.par.fmt d))
          ∧ (s.par.fmt = .binary64 → exec (.bqProc b c d) s = .next (s.emit .a d))
          ∧ (s.par.fmt = .binary32 → exec (.bqProc b c d) s = .next (s.emit .a ((d.extractLsb' 0 32).setWidth 64))))
      ∧ (s.HasBand b → s.HasChan c → (s.band b).actN ≤ 8 → ∃ (t : State) (v : Nat → Word),
          exec (.bqProc b c d) s = .next t
          ∧ v 0 = sampleOperand s.par.fmt d
          ∧ t = (s.setBand b { s.band b with st := (t.band b).st }).emit .a
              (resultWord s.par.fmt (v (s.band b).actN))
          ∧ (∀ n : Nat, n < (s.band b).actN → ∃ (u : Fpu) (o : SectionOut), u.fmt = s.par.fmt
              ∧ o = (match (s.band b).topo with
                  | .tdf2 => tdf2Section u (coeffsAt (s.band b).actC n) ((s.band b).st.read (stIndex c n))
                      ((s.band b).st.read (stIndex c n + 1)) (v n)
                  | .svf => svfSection u (svfAt (s.band b).actV n) ((s.band b).st.read (stIndex c n))
                      ((s.band b).st.read (stIndex c n + 1)) (v n))
              ∧ v (n + 1) = o.y ∧ (t.band b).st.read (stIndex c n) = o.n0
              ∧ (t.band b).st.read (stIndex c n + 1) = o.n1)
          ∧ ∀ j : Nat, (∀ n i : Nat, n < (s.band b).actN → i < 2 → j ≠ stIndex c n + i) →
              (t.band b).st.read j = (s.band b).st.read j))
  ∧ (∀ (u : Fpu) (k : Coeffs) (s1 s2 x : Word),
      let o := tdf2Section u k s1 s2 x
      o.y = fadd u 0 (fmul u 1 k.b0 x) s1
      ∧ o.n0 = fadd u 2 (fsub u 3 (fmul u 4 k.b1 x) (fmul u 5 k.a1 o.y)) s2
      ∧ o.n1 = fsub u 6 (fmul u 7 k.b2 x) (fmul u 8 k.a2 o.y))
  ∧ ∀ (u : Fpu) (v : SvfParams) (ic1 ic2 x : Word),
      let o := svfSection u v ic1 ic2 x
      ∃ t yhp m1 ybp m2 ylp : Word,
        t = fadd u 0 v.g v.r2
        ∧ yhp = fmul u 1 v.h (fsub u 2 (fsub u 3 x (fmul u 4 ic1 t)) ic2)
        ∧ m1 = fmul u 5 yhp v.g
        ∧ ybp = fadd u 6 m1 ic1
        ∧ o.n0 = fadd u 14 m1 ybp
        ∧ m2 = fmul u 7 ybp v.g
        ∧ ylp = fadd u 8 m2 ic2
        ∧ o.n1 = fadd u 15 m2 ylp
        ∧ o.y = fadd u 9 (fadd u 10 (fmul u 11 v.chp yhp) (fmul u 12 v.cbp ybp)) (fmul u 13 v.clp ylp)

/-- What BQ.PROC gives for a channel does not depend on the section state of the other channels, and leaves it alone (R30, R120).
That the two words are one also where a NaN is produced rests on the model's choice of how NaN draws are named (log 5). -/
def Obligations.ChannelsNeverInteract : Prop :=
  ∀ (s s' : State) (b c : BitVec 4) (d : Word),
    s.Processing → s.HasBand b → s.HasChan c → (s.band b).actN ≤ 8 →
    s' = s.setBand b { s.band b with st := (s'.band b).st } →
    (∀ n i : Nat, n < 8 → i < 2 → (s'.band b).st.read (stIndex c n + i) = (s.band b).st.read (stIndex c n + i)) →
    ∃ (t t' : State) (w : Word), exec (.bqProc b c d) s = .next t ∧ exec (.bqProc b c d) s' = .next t'
      ∧ t.respA = s.respA ++ [w] ∧ t'.respA = s.respA ++ [w]
      ∧ (∀ n i : Nat, n < 8 → i < 2 →
          (t'.band b).st.read (stIndex c n + i) = (t.band b).st.read (stIndex c n + i))
      ∧ ∀ (c' : BitVec 4) (n i : Nat), c' ≠ c → n < 8 → i < 2 →
          (t.band b).st.read (stIndex c' n + i) = (s.band b).st.read (stIndex c' n + i)
          ∧ (t'.band b).st.read (stIndex c' n + i) = (s'.band b).st.read (stIndex c' n + i)

/-- BQ.SNAP copies the active bank and its count to the snapshot bank (R132). -/
def Obligations.BqSnapCopiesActiveBank : Prop :=
  ∀ b : BitVec 4, OnlyOn .c (.bqSnap b) ∧ ∀ s : State, s.Control →
    (¬ s.HasBand b → Faults (.bqSnap b) s .index)
    ∧ (s.HasBand b → ∃ t : State, exec (.bqSnap b) s = .next t
        ∧ t = s.setBand b { s.band b with snpN := (s.band b).actN, snpC := (t.band b).snpC }
        ∧ ∀ n k : Nat, n < 8 → k < 5 → (t.band b).snpC.read (5 * n + k) = (s.band b).actC.read (5 * n + k))

/-- BQ.RDS emits one snapshot coefficient or the section count, with FIELD before INDEX (R133). -/
def Obligations.BqRdsReadsSnapshot : Prop :=
  ∀ (b : BitVec 4) (idx sub : BitVec 8), OnlyOn .c (.bqRds b idx sub) ∧ ∀ s : State, s.Control →
    (sub = 5 → idx ≠ 0 → Faults (.bqRds b idx sub) s .field)
    ∧ (¬ (sub = 5 ∧ idx ≠ 0) → (¬ s.HasBand b ∨ 8 ≤ idx.toNat ∨ 5 < sub.toNat) →
        Faults (.bqRds b idx sub) s .index)
    ∧ (s.HasBand b → idx.toNat < 8 → sub.toNat ≤ 4 → exec (.bqRds b idx sub) s =
        .next (s.emit .c (resultWord s.par.fmt ((s.band b).snpC.read (5 * idx.toNat + sub.toNat)))))
    ∧ (s.HasBand b → idx = 0 → sub = 5 → exec (.bqRds b idx sub) s = .next (s.emit .c (resultInt (s.band b).snpN)))

/-- RMS.ACC adds the rounded square of the sample to the open entry (R151). -/
def Obligations.RmsAccAddsSquare : Prop :=
  ∀ (b : BitVec 4) (d : Word), OnlyOn .a (.rmsAcc b d) ∧ OnlyRunning (.rmsAcc b d) ∧ ∀ s : State, s.Processing →
    (¬ s.HasBand b → Faults (.rmsAcc b d) s .index)
    ∧ (s.HasBand b → ∃ u : Fpu, u.fmt = s.par.fmt ∧
        let x := sampleOperand s.par.fmt d
        exec (.rmsAcc b d) s = .next (s.setBand b
          { s.band b with rmsAcc := fadd u 0 (s.band b).rmsAcc (fmul u 1 x x) }))

/-- RMS.PUSH evicts the oldest entry, puts the open one in its place and updates the total (R152). -/
def Obligations.RmsPushReplacesOldestEntry : Prop :=
  ∀ b : BitVec 4, OnlyOn .a (.rmsPush b) ∧ OnlyRunning (.rmsPush b) ∧ ∀ s : State, s.Processing →
    (¬ s.HasBand b → Faults (.rmsPush b) s .index)
    ∧ (s.HasBand b → ∃ (t : State) (u : Fpu), u.fmt = s.par.fmt ∧ exec (.rmsPush b) s = .next t ∧
        let x := s.band b
        t = s.setBand b { x with
          rmsTot := fadd u 0 (fsub u 1 x.rmsTot (x.rmsBuf.read x.rmsPos)) x.rmsAcc
          rmsBuf := (t.band b).rmsBuf
          rmsPos := (x.rmsPos + 1) % x.rmsW
          rmsAcc := 0 }
        ∧ ∀ n : Nat, (t.band b).rmsBuf.read n = if n = x.rmsPos then x.rmsAcc else x.rmsBuf.read n)

/-- RMS.GET emits 10 log10 of the window's mean, or the floor, and changes nothing else (R153, R154). -/
def Obligations.RmsGetEmitsLoudness : Prop :=
  ∀ b : BitVec 4, OnlyOn .a (.rmsGet b) ∧ OnlyRunning (.rmsGet b) ∧ ∀ s : State, s.Processing →
    (¬ s.HasBand b → Faults (.rmsGet b) s .index)
    ∧ (s.HasBand b → ∃ u : Fpu, u.fmt = s.par.fmt ∧
        let f := s.par.fmt
        let ms := fdiv u 0 (s.band b).rmsTot (ofInt f (s.band b).rmsW)
        let l := fmul u 1 (ofInt f 10) (flog10 s.par ms)
        exec (.rmsGet b) s = .next (s.emit .a (resultWord f
          (if fgt f ms 0 = true ∧ fgt f l s.par.loudFloor = true then l else s.par.loudFloor))))

/-- RMS.RESET clears buffer, total, open entry and position, keeps the window length, is idempotent (R155). -/
def Obligations.RmsResetClearsTracker : Prop :=
  ∀ b : BitVec 4, OnlyOn .a (.rmsReset b) ∧ OnlyRunning (.rmsReset b) ∧ ∀ s : State, s.Processing →
    (¬ s.HasBand b → Faults (.rmsReset b) s .index)
    ∧ (s.HasBand b → ∃ t : State, exec (.rmsReset b) s = .next t
        ∧ t = s.setBand b { s.band b with rmsBuf := (t.band b).rmsBuf, rmsTot := 0, rmsAcc := 0, rmsPos := 0 }
        ∧ (∀ n : Nat, (t.band b).rmsBuf.read n = 0)
        ∧ exec (.rmsReset b) t = .next t)

/-- A tracker whose total is a zero reads the floor, whatever the window length and the logarithm (R153, R196). -/
def Obligations.EmptyTrackerReadsFloor : Prop :=
  ∀ (s : State) (b : BitVec 4), s.Processing → s.HasBand b → 1 ≤ (s.band b).rmsW →
    isZero s.par.fmt (s.band b).rmsTot = true →
    exec (.rmsGet b) s = .next (s.emit .a (resultWord s.par.fmt s.par.loudFloor))

/-- KN.EVAL gives the level itself below the knee, the blended line and curve above, the quadratic inside (R167, R168, R169). -/
def Obligations.KnEvalHasThreeRegions : Prop :=
  ∀ (b : BitVec 4) (d : Word), OnlyOn .a (.knEval b d) ∧ OnlyRunning (.knEval b d) ∧ ∀ s : State, s.Processing →
    (¬ s.HasBand b → Faults (.knEval b d) s .index)
    ∧ (s.HasBand b → ∃ (y : Word) (u u' : Fpu), u.fmt = s.par.fmt ∧ u'.fmt = s.par.fmt
        ∧ exec (.knEval b d) s = .next (s.emit .a (resultWord s.par.fmt y)) ∧
        let f := s.par.fmt
        let one := ofInt f 1
        let x := sampleOperand f d
        let a := (s.band b).active
        let k := (s.band b).knee
        let tau := s.par.kneeTau
        (fle f x k.lo = true → y = x)
        ∧ (fle f x k.lo = false → fge f x k.hi = true → ∃ v lin e z cv : Word,
            v = fsub u 0 x k.hi
            ∧ lin = fadd u 1 a.t (fdiv u 2 (fsub u 3 x a.t) a.r)
            ∧ e = fsub u' 0 one (fexp s.par (fdiv u' 1 (fneg f v) tau))
            ∧ z = fmul u' 2 tau e
            ∧ (k.sg = false → cv = fadd u' 7 k.yh (fmul u' 8 k.sl z))
            ∧ (k.sg = true → cv = fsub u' 3 (fadd u' 4 k.yh v) (fmul u' 5 (fsub u' 6 one k.sl) z))
            ∧ y = fadd u 4 (fmul u 5 (fsub u 6 one k.ab) lin) (fmul u 7 k.ab cv))
        ∧ (fle f x k.lo = false → fge f x k.hi = false → ∃ e : Word, e = fsub u 8 x k.lo
            ∧ y = fadd u 9 x (fmul u 10 k.qa (fmul u 11 e e))))

/-- The knee cache at reset is what KneeInterp gives for the default parameters (R42, R166). -/
def Obligations.ResetCacheIsKneeInterp : Prop :=
  ∀ p : Params, paramsLegal p = true → ∃ u : Fpu, u.fmt = p.fmt
    ∧ kneeInterp u (Band.reset p).active = (Band.reset p).knee

/-- FO.STEP moves the first follower toward the target and the second toward the first's new value, emits the second (R181, R182, R183, R185). -/
def Obligations.FoStepRunsBothFollowers : Prop :=
  (∀ (b : BitVec 4) (d : Word), OnlyOn .a (.foStep b d) ∧ OnlyRunning (.foStep b d) ∧
    ∀ s : State, s.Processing →
      (¬ s.HasBand b → Faults (.foStep b d) s .index)
      ∧ (s.HasBand b → ∃ (u u' : Fpu) (xs xc : Word), u.fmt = s.par.fmt ∧ u'.fmt = s.par.fmt
          ∧ xs = followOne s.par u (s.band b).active (s.band b).foXS (sampleOperand s.par.fmt d)
          ∧ xc = followOne s.par u' (s.band b).active (s.band b).foXC xs
          ∧ exec (.foStep b d) s =
              .next ((s.setBand b { s.band b with foXS := xs, foXC := xc }).emit .a (resultWord s.par.fmt xc))))
    ∧ ∀ (p : Params) (u : Fpu) (a : DynParams) (cur tgt : Word), u.fmt = p.fmt →
        let f := p.fmt
        let d := fsub u 0 tgt cur
        let attack := (a.ph = 0 ∧ fgt f d 0 = true) ∨ (a.ph ≠ 0 ∧ flt f d 0 = true)
        ∃ (q st : Word) (v : Fpu), v.fmt = f
          ∧ (attack → q = fmul u 1 a.ra (fabs f (shape p v a.sa d)))
          ∧ (¬ attack → q = fmul u 1 a.rr (fabs f (shape p v a.sr d)))
          ∧ (st = if flt f q (fabs f d) = true then q else fabs f d)
          ∧ followOne p u a cur tgt =
              (if fgt f d 0 = true then (if flt f (fadd u 2 cur st) tgt = true then fadd u 2 cur st else tgt)
               else if flt f d 0 = true then (if fgt f (fsub u 3 cur st) tgt = true then fsub u 3 cur st else tgt)
               else cur)

/-- One follower update never passes its target, for every rate, style and instance of the shapes (R182, R187). -/
def Obligations.FollowerNeverPassesTarget : Prop :=
  ∀ (p : Params) (u : Fpu) (a : DynParams) (cur tgt : Word), u.fmt = p.fmt →
    (flt p.fmt cur tgt = true → fle p.fmt (followOne p u a cur tgt) tgt = true)
    ∧ (flt p.fmt tgt cur = true → fle p.fmt tgt (followOne p u a cur tgt) = true)

/-- One follower update lies between the old value and the target, inclusive, in the format's own arithmetic (R187). -/
def Obligations.FollowerStaysBetween : Prop :=
  ∀ (p : Params) (u : Fpu) (a : DynParams) (cur tgt : Word), u.fmt = p.fmt → a.FloatsLegal p →
    let f := p.fmt
    let new := followOne p u a cur tgt
    (isFinite f cur = true → isFinite f tgt = true →
      (fgt f tgt cur = true → fle f cur new = true ∧ fle f new tgt = true)
      ∧ (flt f tgt cur = true → fle f tgt new = true ∧ fle f new cur = true)
      ∧ (feq f cur tgt = true → new = cur))
    ∧ (isNaN f cur = true ∨ isNaN f tgt = true → new = cur)
    ∧ ∀ x : Band, x.active = a → isFinite f x.foXS = true → isFinite f x.foXC = true → isFinite f tgt = true →
        let y := followStep p u x tgt
        isFinite f y.foXS = true ∧ isFinite f y.foXC = true
        ∧ (fle f x.foXS tgt = true → fle f x.foXC tgt = true →
            fle f x.foXS y.foXS = true ∧ fle f y.foXS tgt = true ∧ fle f y.foXC tgt = true)
        ∧ (fle f tgt x.foXS = true → fle f tgt x.foXC = true →
            fle f y.foXS x.foXS = true ∧ fle f tgt y.foXS = true ∧ fle f tgt y.foXC = true)

/-- FO.RESET sets both follower variables to +0 and changes nothing else; PREPARE does not reset them (R186). -/
def Obligations.FoResetClearsFollower : Prop :=
  (∀ b : BitVec 4, OnlyOn .a (.foReset b) ∧ OnlyRunning (.foReset b) ∧ ∀ s : State, s.Processing →
    (¬ s.HasBand b → Faults (.foReset b) s .index)
    ∧ (s.HasBand b → ∃ t : State, t = s.setBand b { s.band b with foXS := 0, foXC := 0 }
        ∧ exec (.foReset b) s = .next t ∧ exec (.foReset b) t = .next t))
    ∧ ∀ s : State, s.Configuring → ∃ t : State, exec .prepare s = .next t ∧ ∀ b : BitVec 4,
        (t.band b).foXS = (s.band b).foXS ∧ (t.band b).foXC = (s.band b).foXC

/-- DY.RUN feeds knee output minus tracker reading to the follower and emits the gain, or +0 when bypassed (R196). -/
def Obligations.DyRunComposesTheChain : Prop :=
  ∀ b : BitVec 4, OnlyOn .a (.dyRun b) ∧ OnlyRunning (.dyRun b) ∧ ∀ s : State, s.Processing →
    (¬ s.HasBand b → Faults (.dyRun b) s .index)
    ∧ (s.HasBand b → ∃ (u1 u2 u3 u4 : Fpu) (l yk gk : Word),
        (u1.fmt = s.par.fmt ∧ u2.fmt = s.par.fmt ∧ u3.fmt = s.par.fmt ∧ u4.fmt = s.par.fmt)
        ∧ l = loudness s.par u1 (s.band b)
        ∧ yk = kneeEval s.par u2 (s.band b).active (s.band b).knee l
        ∧ gk = fsub u3 0 yk l ∧
        let y := followStep s.par u4 (s.band b) gk
        let out := if (s.band b).active.byp = 0 then y.foXC else 0
        exec (.dyRun b) s = .next ((s.setBand b { s.band b with foXS := y.foXS, foXC := y.foXC, dyOut := out }).emit
          .a (resultWord s.par.fmt out)))

/-- With the bypass on, DY.RUN returns +0 and moves the follower exactly as with it off (R197). -/
def Obligations.BypassOnlyDiscardsTheGain : Prop :=
  ∀ (s s' : State) (b : BitVec 4) (n : Nat), s.Processing → s.HasBand b →
    s' = s.setBand b { s.band b with active := { (s.band b).active with byp := n } } →
    ∃ t t' : State, exec (.dyRun b) s = .next t ∧ exec (.dyRun b) s' = .next t'
      ∧ (t'.band b).foXS = (t.band b).foXS ∧ (t'.band b).foXC = (t.band b).foXC
      ∧ ((s.band b).active.byp = 1 → (t.band b).dyOut = 0 ∧ t.respA = s.respA ++ [0])

/-- OS.WRT writes the one narrowed tap, clears PREPARED, and makes its checks in order (R202). -/
def Obligations.OsWrtWritesOneTap : Prop :=
  ∀ (st : BitVec 4) (idx sub : BitVec 8) (d : Word),
    let i : Instr := .osWrt st idx sub d
    OnlyOn .c i ∧ OnlyStopped i ∧ ∀ s : State, s.Configuring →
      ((sub = 2 ∨ sub = 3) → idx ≠ 0 → Faults i s .field)
      ∧ (i.wellFormed = true → (6 ≤ st.toNat ∨ 3 < sub.toNat ∨ (sub.toNat ≤ 1 ∧ s.par.kMax ≤ idx.toNat)) →
          Faults i s .index)
      ∧ (st.toNat < 6 → (sub.toNat ≤ 1 ∧ idx.toNat < s.par.kMax) ∨ ((sub = 2 ∨ sub = 3) ∧ idx = 0) →
          ∃ (t : State) (u : Fpu), u.fmt = s.par.fmt ∧ exec i s = .next t
          ∧ t = { s.setStage st.toNat (t.stage st.toNat) with prepared := false } ∧
          let g := s.stage st.toNat
          let h := t.stage st.toNat
          let v := narrow u 0 d
          (sub = 0 → h = { g with tu := h.tu } ∧
            ∀ k : Nat, h.tu.read k = if k = idx.toNat then v else g.tu.read k)
          ∧ (sub = 1 → h = { g with td := h.td } ∧
            ∀ k : Nat, h.td.read k = if k = idx.toNat then v else g.td.read k)
          ∧ (sub = 2 → h = { g with cu := v })
          ∧ (sub = 3 → h = { g with cd := v }))

/-- A stage's up path shifts its line by one and gives the original K inputs late and the symmetric sum (R203). -/
def Obligations.StageUpShiftsAndInterpolates : Prop :=
  ∀ (u : Fpu) (g : Stage) (line : Bank) (x : Word), 1 ≤ g.ku →
    let r := stageUp u g line x
    let n := g.ku
    (∀ j : Nat, r.1.read j = if j = 0 then x else if j < 2 * n then line.read (j - 1) else line.read j)
    ∧ (∃ (v : Fpu) (p : Nat), v.fmt = u.fmt ∧ r.2.1 = fmul v p g.cu (r.1.read n))
    ∧ ∃ acc : Nat → Word, r.2.2 = acc (n - 1)
        ∧ (∃ (v : Fpu) (p q : Nat), v.fmt = u.fmt
            ∧ acc 0 = fmul v p (g.tu.read 0) (fadd v q (r.1.read 0) (r.1.read (2 * n - 1))))
        ∧ ∀ k : Nat, 1 ≤ k → k ≤ n - 1 → ∃ (v : Fpu) (p q m : Nat), v.fmt = u.fmt
            ∧ acc k = fadd v p (acc (k - 1))
                (fmul v q (g.tu.read k) (fadd v m (r.1.read k) (r.1.read (2 * n - 1 - k))))

/-- A stage's down path shifts both lines and gives centre tap times the straight-through sample plus the symmetric sum (R204). -/
def Obligations.StageDownShiftsAndDecimates : Prop :=
  ∀ (u : Fpu) (g : Stage) (cl dl : Bank) (v0 v1 : Word), 1 ≤ g.kd →
    let r := stageDown u g cl dl v0 v1
    let n := g.kd
    (∀ j : Nat, r.1.read j = if j = 0 then v0 else if j < n then cl.read (j - 1) else cl.read j)
    ∧ (∀ j : Nat, r.2.1.read j = if j = 0 then v1 else if j < 2 * n then dl.read (j - 1) else dl.read j)
    ∧ ∃ acc : Nat → Word,
        (∃ (v : Fpu) (p q : Nat), v.fmt = u.fmt
          ∧ r.2.2 = fadd v p (fmul v q g.cd (r.1.read (n - 1))) (acc (n - 1)))
        ∧ (∃ (v : Fpu) (p q : Nat), v.fmt = u.fmt
            ∧ acc 0 = fmul v p (g.td.read 0) (fadd v q (r.2.1.read 0) (r.2.1.read (2 * n - 1))))
        ∧ ∀ k : Nat, 1 ≤ k → k ≤ n - 1 → ∃ (v : Fpu) (p q m : Nat), v.fmt = u.fmt
            ∧ acc k = fadd v p (acc (k - 1))
                (fmul v q (g.td.read k) (fadd v m (r.2.1.read k) (r.2.1.read (2 * n - 1 - k))))

/-- OS.UP runs the sample through the stages, stage 0 first, and emits the 2^S results, the earliest first (R205, R207). -/
def Obligations.OsUpRunsEveryStage : Prop :=
  ∀ (c : BitVec 4) (d : Word), OnlyOn .a (.osUp c d) ∧ OnlyRunning (.osUp c d) ∧ ∀ s : State, s.Processing →
    (¬ s.HasChan c → Faults (.osUp c d) s .index)
    ∧ (s.HasChan c → s.cfgS ≤ 6 → ∃ (t : State) (q : Nat → List Word), exec (.osUp c d) s = .next t
        ∧ t = (s.setChan c { s.chan c with ul := (t.chan c).ul }).emitAll .a
            ((q s.cfgS).map (resultWord s.par.fmt))
        ∧ q 0 = [sampleOperand s.par.fmt d] ∧ (q s.cfgS).length = 2 ^ s.cfgS
        ∧ (∀ n : Nat, n < s.cfgS → UpRun s.par.fmt (s.stage n) (lineAt (s.chan c).ul n) (q n)
            (lineAt (t.chan c).ul n) (q (n + 1)))
        ∧ ∀ n : Nat, s.cfgS ≤ n → lineAt (t.chan c).ul n = lineAt (s.chan c).ul n)

/-- OS.DOWN takes 2^S samples from the head of the queue through the stages in reverse order and emits the one result (R206, R209). -/
def Obligations.OsDownUnwindsStages : Prop :=
  ∀ c : BitVec 4, OnlyOn .a (.osDown c) ∧ OnlyRunning (.osDown c) ∧ ∀ s : State, s.Processing →
    (¬ s.HasChan c → Faults (.osDown c) s .index)
    ∧ (s.HasChan c → (s.chan c).dq.length < 2 ^ s.cfgS → Faults (.osDown c) s .underflow)
    ∧ (s.HasChan c → 2 ^ s.cfgS ≤ (s.chan c).dq.length → s.cfgS ≤ 6 →
        ∃ (t : State) (q : Nat → List Word) (w : Word), exec (.osDown c) s = .next t
        ∧ t = (s.setChan c { s.chan c with
            dq := (s.chan c).dq.drop (2 ^ s.cfgS), cl := (t.chan c).cl, dl := (t.chan c).dl }).emit .a
            (resultWord s.par.fmt w)
        ∧ q s.cfgS = (s.chan c).dq.take (2 ^ s.cfgS) ∧ q 0 = [w]
        ∧ (∀ n : Nat, n < s.cfgS → DownRun s.par.fmt (s.stage n) (lineAt (s.chan c).cl n) (lineAt (s.chan c).dl n)
            (q (n + 1)) (lineAt (t.chan c).cl n) (lineAt (t.chan c).dl n) (q n))
        ∧ ∀ n : Nat, s.cfgS ≤ n → lineAt (t.chan c).cl n = lineAt (s.chan c).cl n
            ∧ lineAt (t.chan c).dl n = lineAt (s.chan c).dl n)

/-- OS.WR appends the sample to the channel's queue, up to its capacity (R208). -/
def Obligations.OsWrAppendsToQueue : Prop :=
  ∀ (c : BitVec 4) (d : Word), OnlyOn .a (.osWr c d) ∧ OnlyRunning (.osWr c d) ∧ ∀ s : State, s.Processing →
    (¬ s.HasChan c → Faults (.osWr c d) s .index)
    ∧ (s.HasChan c → s.cfgMaxblk * 2 ^ s.cfgS ≤ (s.chan c).dq.length → Faults (.osWr c d) s .overflow)
    ∧ (s.HasChan c → (s.chan c).dq.length < s.cfgMaxblk * 2 ^ s.cfgS → exec (.osWr c d) s =
        .next (s.setChan c { s.chan c with dq := (s.chan c).dq ++ [sampleOperand s.par.fmt d] }))

/-- OS.RESET clears every line and queue of every channel, keeps taps and configuration, is idempotent (R211). -/
def Obligations.OsResetClearsOversampler : Prop :=
  OnlyOn .a .osReset ∧ OnlyRunning .osReset ∧ ∀ s : State, s.Processing → ∃ t : State,
    exec .osReset s = .next t ∧ t = { s with chans := t.chans }
    ∧ (∀ c : BitVec 4, (t.chan c).dq = [] ∧ ∀ n k : Nat, n < 6 →
        (lineAt (t.chan c).ul n).read k = 0 ∧ (lineAt (t.chan c).dl n).read k = 0
          ∧ (lineAt (t.chan c).cl n).read k = 0)
    ∧ exec .osReset t = .next t

/-- With CFG_S = 0 the oversampler passes samples through, bit for bit, and the latency word is 0 (R214). -/
def Obligations.OversamplerOffPassesThrough : Prop :=
  (∀ s : State, s.cfgS = 0 →
    (s.Control → exec .rdLat s = .next (s.emit .c 0))
    ∧ (s.Processing → ∀ c : BitVec 4, s.HasChan c →
        (∀ d : Word, exec (.osUp c d) s = .next (s.emit .a (sampleOperand s.par.fmt d)))
        ∧ (∀ d : Word, (s.chan c).dq.length < s.cfgMaxblk → exec (.osWr c d) s =
            .next (s.setChan c { s.chan c with dq := (s.chan c).dq ++ [sampleOperand s.par.fmt d] }))
        ∧ ∀ (w : Word) (rest : List Word), (s.chan c).dq = w :: rest →
            exec (.osDown c) s = .next ((s.setChan c { s.chan c with dq := rest }).emit .a (resultWord s.par.fmt w))))
  ∧ ∀ w : Word, sampleOperand .binary64 w = w ∧ resultWord .binary64 w = w
      ∧ sampleOperand .binary32 w = (w.extractLsb' 0 32).setWidth 64
      ∧ resultWord .binary32 w = (w.extractLsb' 0 32).setWidth 64

/-- A step that raises a fault makes the four status writes and no other change to the block (R252). -/
def Obligations.FaultsArePrecise : Prop :=
  (ErrCode.illegal.code = 1 ∧ ErrCode.field.code = 2 ∧ ErrCode.port.code = 3 ∧ ErrCode.mode.code = 4
    ∧ ErrCode.index.code = 5 ∧ ErrCode.value.code = 6 ∧ ErrCode.busy.code = 7 ∧ ErrCode.underflow.code = 8
    ∧ ErrCode.overflow.code = 9)
  ∧ ∀ (s t : State) (p : Port) (k : Cmd),
    s.err = false → s.resetDueNow = false → s.pick = some (p, k) → step s = .next t → t.err = true →
    t.faultLine = true ∧ ∃ code : ErrCode,
      t = { s.accept p with err := true, errCode := code.code, errCmd := k.h, errPort := p }

/-- While ERR is set every command but RD.STAT only advances the position; RD.STAT emits the status word (R254). -/
def Obligations.FailStopAfterFault : Prop :=
  ∀ (s : State) (p : Port) (k : Cmd), s.err = true → s.resetDueNow = false → s.pick = some (p, k) →
    (k = { h := 0x06000000, d := 0 } → step s = .next ((s.accept p).emit p (statusWord s)))
    ∧ (k ≠ { h := 0x06000000, d := 0 } → step s = .next (s.accept p))

/-- ILLEGAL before PORT before FIELD before MODE, each recording the header of the words (R253, R86). -/
def Obligations.ChecksComeInOrder : Prop :=
  ∀ (k : Cmd) (s : State), s.err = false →
    (Op.ofCode (hdrOp k.h) = none → runWords k s = .next (s.raise .illegal k.h))
    ∧ ∀ o : Op, Op.ofCode (hdrOp k.h) = some o →
      (portOk o.port s.port = false → runWords k s = .next (s.raise .port k.h))
      ∧ (portOk o.port s.port = true →
          (k.h &&& o.mask ≠ o.pattern ∨ (o.noOperand = true ∧ k.d ≠ 0) ∨ (o.build k).wellFormed = false) →
          runWords k s = .next (s.raise .field k.h))
      ∧ (portOk o.port s.port = true → k.h &&& o.mask = o.pattern → (o.noOperand = true → k.d = 0) →
          (o.build k).wellFormed = true → modeOk o.when s = false → runWords k s = .next (s.raise .mode k.h))

/-- Each command is legal on its ports and in its modes, and raises PORT or MODE elsewhere (R259). -/
def Obligations.RightsOfPortsAndModes : Prop :=
  ∀ (i : Instr) (s : State), s.err = false →
    (i.op ∈ [Op.nop, .rdStat, .rdPend] → ¬ Faults i s .port ∧ ¬ Faults i s .mode)
    ∧ (i.op ∈ [Op.cfgWr, .prepare, .osWrt] → (s.port = .a → Faults i s .port)
        ∧ (s.port = .c → i.wellFormed = true → (s.running = true ↔ Faults i s .mode)))
    ∧ (i.op = .run → (s.port = .a → Faults i s .port)
        ∧ (s.port = .c → (¬ (s.running = false ∧ s.prepared = true) ↔ Faults i s .mode)))
    ∧ (i.op = .stop → (s.port = .a → Faults i s .port) ∧ (s.port = .c → (¬ s.running = true ↔ Faults i s .mode)))
    ∧ (i.op ∈ [Op.rdLat, .prWr, .bqWrc, .bqWrn, .bqCommit, .bqRstreq, .bqSnap, .bqRds] →
        (s.port = .a → Faults i s .port) ∧ (s.port = .c → ¬ Faults i s .port ∧ ¬ Faults i s .mode))
    ∧ (i.op ∈ [Op.blk, .bqReset, .bqProc, .rmsAcc, .rmsPush, .rmsGet, .rmsReset, .knEval, .foStep, .foReset, .dyRun,
          .osUp, .osWr, .osDown, .osReset] →
        (s.port = .c → Faults i s .port) ∧ (s.port = .a → (s.running = false ↔ Faults i s .mode)))

/-- A step runs the next command of one port: exec of what its words decode to, after the position is advanced (R21, R67, R100).
The list `inputs` (log 6, log 10), the host's lists in the state (log 7), the field `port` (log 8), the draw counter (log 5) and the stop
`runOver` (log 9) are the model's choices. -/
def Obligations.StepRunsDecodedCommand : Prop :=
  ∀ s : State, s.resetDueNow = false →
    (∀ ka : Cmd, s.progA[s.cpA]? = some ka → (s.progC[s.cpC]? = none ∨ ∃ rest, s.inputs = .port .a :: rest) →
      step s = runWords ka { s with cpA := s.cpA + 1, port := .a, inputs := s.inputs.tail, draw := s.draw + 1 })
    ∧ (∀ kc : Cmd, s.progC[s.cpC]? = some kc → (s.progA[s.cpA]? = none ∨ ∃ rest, s.inputs = .port .c :: rest) →
      step s = runWords kc { s with cpC := s.cpC + 1, port := .c, inputs := s.inputs.tail, draw := s.draw + 1 })
    ∧ (∀ ka kc : Cmd, s.progA[s.cpA]? = some ka → s.progC[s.cpC]? = some kc →
      step s = runWords ka (s.accept .a) ∨ step s = runWords kc (s.accept .c))
    ∧ (s.progA[s.cpA]? = none → s.progC[s.cpC]? = none → step s = .fault .runOver)
    ∧ ∀ (k : Cmd) (i : Instr) (s' : State), decode k = .ok i → runWords k s' = exec i s'

/-- Decoding the words of any instruction gives it back (30_encoding.md sections 1 to 3, R81, R84, R85). -/
def Obligations.DecodeOfEncodeIsTheInstruction : Prop :=
  ∀ i : Instr, decode (encode i) = .ok i

/-- Every pair of words is the encoding of exactly one well-formed command or raises exactly one fault (R87). -/
def Obligations.EveryPairDecodesOrFaults : Prop :=
  (∀ k : Cmd,
    (∃ i : Instr, decode k = .ok i ∧ encode i = k ∧ ∀ j : Instr, encode j = k → j = i)
    ∨ ((∀ i : Instr, encode i ≠ k) ∧ ∀ s : State, s.err = false →
        (Op.ofCode (hdrOp k.h) = none ∧ runWords k s = .next (s.raise .illegal k.h))
        ∨ (Op.ofCode (hdrOp k.h) ≠ none
            ∧ (runWords k s = .next (s.raise .port k.h) ∨ runWords k s = .next (s.raise .field k.h)))))
  ∧ ∀ (i : Instr) (s : State), s.err = false → i.wellFormed = false → Faults i s .port ∨ Faults i s .field

/-- Hardware reset puts every piece of the block's state to the value of the reset table, and only it clears ERR (R275, R42, log 7 (notes/assumptions/7.md), log 10 (notes/assumptions/10.md)).
That a reset keeps the host's lists and positions (log 7) and is an entry of `inputs` (log 10) are the model's choices. -/
def Obligations.ResetLeavesTableValues : Prop :=
  (∀ p : Params, (State.resetWith p).AtReset ∧ (State.resetWith p).par = p)
    ∧ State.reset.AtReset
    ∧ (∀ s : State, s.resetDueNow = true → ∃ t : State, step s = .next t ∧ t.AtReset ∧ t.par = s.par
        ∧ t.progA = s.progA ∧ t.progC = s.progC ∧ t.cpA = s.cpA ∧ t.cpC = s.cpC)
    ∧ ∀ s t : State, s.resetDueNow = false → s.err = true → step s = .next t → t.err = true

/-- Words the spec writes out decode to the commands it says they are (R101, R102, R106, R121, R123, R126, R133, R151, R169, R185, R202, R207). -/
def Obligations.SpecWordsDecode : Prop :=
  decode { h := 0x00000000, d := 0 } = .ok .nop
    ∧ decode { h := 0x01000001, d := 2 } = .ok (.cfgWr 0 0 1 2)
    ∧ decode { h := 0x05100000, d := 0 } = .ok (.blk 1)
    ∧ decode { h := 0x10000103, d := 0xBFE0000000000000 } = .ok (.bqWrc 0 1 3 0xBFE0000000000000)
    ∧ decode { h := 0x12200001, d := 0 } = .ok (.bqCommit 2 true)
    ∧ decode { h := 0x15000000, d := 0x3FF0000000000000 } = .ok (.bqProc 0 0 0x3FF0000000000000)
    ∧ decode { h := 0x17000005, d := 0 } = .ok (.bqRds 0 0 5)
    ∧ decode { h := 0x20000000, d := 0x3F000000 } = .ok (.rmsAcc 0 0x3F000000)
    ∧ decode { h := 0x30000000, d := 0xC1A00000 } = .ok (.knEval 0 0xC1A00000)
    ∧ decode { h := 0x40000000, d := 0x3FF0000000000000 } = .ok (.foStep 0 0x3FF0000000000000)
    ∧ decode { h := 0x60010003, d := 0x3FE0000000000000 } = .ok (.osWrt 1 0 3 0x3FE0000000000000)
    ∧ decode { h := 0x61000000, d := 0x3F800000 } = .ok (.osUp 0 0x3F800000)

/-- A command's twelve bytes, header first and each word little-endian, read back as the command (R61). -/
def Obligations.CommandBytesRoundTrip : Prop :=
  ∀ (k : Cmd) (rest : List Byte), k.toBytes.length = 12
    ∧ (∀ n : Nat, n < 4 → k.toBytes[n]? = some (k.h.extractLsb' (8 * n) 8))
    ∧ (∀ n : Nat, n < 8 → k.toBytes[4 + n]? = some (k.d.extractLsb' (8 * n) 8))
    ∧ Cmd.ofBytes (k.toBytes ++ rest) = some (k, rest)

/-- Every step keeps every stored integer in its stated range (R7, R24, R25, R32). -/
def Obligations.StepKeepsIntegersLegal : Prop :=
  ∀ s t : State, s.IntsLegal → step s = .next t → t.IntsLegal

/-- Every step keeps every index space in canonical form and inside its index range (R27, R30, R32, R36, R37, R40).
The canonical form is the model's choice (log 11); the index ranges are the spec's. -/
def Obligations.StepKeepsIndexSpacesCanonical : Prop :=
  ∀ s t : State, s.IntsLegal → s.Stored → step s = .next t → t.IntsLegal ∧ t.Stored

/-- Every step keeps every staged and active parameter in its range (R25, R110). -/
def Obligations.StepKeepsParametersInRange : Prop :=
  ∀ s t : State, s.ParamsInRange → step s = .next t → t.ParamsInRange

/-- Every step keeps: RUNNING implies PREPARED, the fault fields agree with ERR, queues within capacity (R22, R23, R38, R104, R251). -/
def Obligations.StepKeepsModesConsistent : Prop :=
  ∀ s t : State, s.ModeConsistent → step s = .next t → t.ModeConsistent

/-- The state after reset meets every invariant, for every legal choice of the implementation parameters (R42, R6).
The parameters of `State.reset` are the model's choice (log 1, log 2), and so is the canonical form (log 11). -/
def Obligations.ResetMeetsInvariants : Prop :=
  (∀ p : Params, paramsLegal p = true → (State.resetWith p).IntsLegal ∧ (State.resetWith p).Stored
      ∧ (State.resetWith p).ParamsInRange ∧ (State.resetWith p).ModeConsistent)
    ∧ State.reset.IntsLegal ∧ State.reset.Stored ∧ State.reset.ParamsInRange ∧ State.reset.ModeConsistent

/-- The active bank, the SVF bank, the active parameters, the knee cache and the window length change only in BLK of their band (R25, R28, R29, R33, R69, R70). -/
def Obligations.OnlyBlkActivates : Prop :=
  ∀ (s t : State) (p : Port) (k : Cmd) (b : BitVec 4), s.resetDueNow = false → s.pick = some (p, k) →
    decode k ≠ .ok (.blk b) → step s = .next t →
    (t.band b).actN = (s.band b).actN ∧ (t.band b).actC = (s.band b).actC ∧ (t.band b).actV = (s.band b).actV
      ∧ (t.band b).active = (s.band b).active ∧ (t.band b).knee = (s.band b).knee ∧ (t.band b).rmsW = (s.band b).rmsW

/-- In mode RUNNING no step changes a configuration register, a topology or a tap (R24, R36, R285). -/
def Obligations.ConfigurationFixedWhileRunning : Prop :=
  ∀ s t : State, s.resetDueNow = false → s.running = true → step s = .next t →
    t.cfgNch = s.cfgNch ∧ t.cfgS = s.cfgS ∧ t.cfgMaxblk = s.cfgMaxblk ∧ t.stages = s.stages
      ∧ ∀ b : BitVec 4, (t.band b).topo = (s.band b).topo

/-- A command appends its result words to the stream of its own port, as many as its row says, none if it faults (R68). -/
def Obligations.ResultsAppendToOwnStream : Prop :=
  ∀ (s t : State) (p : Port) (k : Cmd), s.resetDueNow = false → s.pick = some (p, k) → step s = .next t →
    ∃ ws : List Word,
      (p = .a → t.respA = s.respA ++ ws ∧ t.respC = s.respC)
      ∧ (p = .c → t.respC = s.respC ++ ws ∧ t.respA = s.respA)
      ∧ (s.err = false → t.err = true → ws = [])
      ∧ (t.err = false → ∀ i : Instr, decode k = .ok i → ws.length = resultCount i s)

/-- A command other than PREPARE changes only the band its bnd field names and, OS.RESET apart, the channel its chs field names (R106, R126, R150, R207). -/
def Obligations.CommandsTouchOneBandOneChannel : Prop :=
  ∀ (i : Instr) (s t : State), exec i s = .next t → i ≠ .prepare →
    (∀ b : BitVec 4, b ≠ i.fields.bnd → t.band b = s.band b)
    ∧ (i ≠ .osReset → ∀ c : BitVec 4, c ≠ i.fields.chs → t.chan c = s.chan c)

end
end

