-- ==== Sys2Proof/Laws/Bank.lean ====
section
/-!
SUPPORT. What the operations over index spaces do: reading after a write, reading after a shift, and that every
operation keeps the canonical form. The reading laws hold of every bank, canonical or not.
-/

namespace Sys2Proof.Machine

/-! ### Reading -/

@[simp] theorem Bank.read_nil (i : Nat) : Bank.read [] i = 0 := rfl

theorem Bank.read_cons (k : Nat) (v : Word) (rest : Bank) (i : Nat) :
    Bank.read ((k, v) :: rest) i = if k = i then v else Bank.read rest i := rfl

theorem Bank.read_erase (b : Bank) (i j : Nat) :
    Bank.read (Bank.erase b i) j = if j = i then 0 else Bank.read b j := by
  induction b with
  | nil => simp [Bank.erase]
  | cons e rest ih =>
    obtain ⟨k, v⟩ := e
    unfold Bank.erase at ih ⊢
    rw [List.filter_cons]
    by_cases hk : k = i
    · subst hk
      by_cases hj : j = k
      · simp_all
      · simp_all [Bank.read_cons, Ne.symm hj]
    · by_cases hj : j = i
      · subst hj
        simp_all [Bank.read_cons]
      · by_cases hjk : k = j <;> simp_all [Bank.read_cons]

theorem Bank.read_insert (b : Bank) (i j : Nat) (x : Word) (h : ∀ e ∈ b, e.1 ≠ i) :
    Bank.read (Bank.insert b i x) j = if j = i then x else Bank.read b j := by
  induction b with
  | nil =>
    rw [Bank.insert, Bank.read_cons]
    by_cases hj : j = i
    · simp [hj]
    · simp [hj, Ne.symm hj]
  | cons e rest ih =>
    obtain ⟨k, v⟩ := e
    have hk : k ≠ i := h (k, v) (List.mem_cons_self ..)
    have ih := ih fun e he => h e (List.mem_cons_of_mem _ he)
    unfold Bank.insert
    by_cases hlt : i < k
    · rw [if_pos hlt, Bank.read_cons]
      by_cases hj : j = i
      · simp [hj]
      · simp [hj, Ne.symm hj]
    · rw [if_neg hlt, Bank.read_cons, Bank.read_cons, ih]
      by_cases hj : j = i
      · subst hj
        simp [hk]
      · simp [hj]

theorem Bank.mem_erase_ne (b : Bank) (i : Nat) : ∀ e ∈ Bank.erase b i, e.1 ≠ i := by
  intro e he
  simpa using (List.mem_filter.mp he).2

/-- Reading after a write: the element written, and every other element as before. -/
theorem Bank.read_write (b : Bank) (i j : Nat) (x : Word) :
    Bank.read (Bank.write b i x) j = if j = i then x else Bank.read b j := by
  unfold Bank.write
  by_cases hx : x = 0
  · rw [if_pos hx, Bank.read_erase, hx]
  · rw [if_neg hx, Bank.read_insert _ _ _ _ (Bank.mem_erase_ne b i), Bank.read_erase]
    by_cases hj : j = i <;> simp [hj]

@[simp] theorem Bank.read_write_same (b : Bank) (i : Nat) (x : Word) : Bank.read (Bank.write b i x) i = x := by
  simp [Bank.read_write]

theorem Bank.read_write_other (b : Bank) {i j : Nat} (x : Word) (h : j ≠ i) :
    Bank.read (Bank.write b i x) j = Bank.read b j := by
  simp [Bank.read_write, h]

/-- Reading after consecutive writes. -/
theorem Bank.read_writeList (xs : List Word) (b : Bank) (i j : Nat) :
    Bank.read (Bank.writeList b i xs) j =
      if i ≤ j ∧ j < i + xs.length then xs.getD (j - i) 0 else Bank.read b j := by
  induction xs generalizing b i with
  | nil =>
    simp [Bank.writeList]
  | cons x xs ih =>
    rw [Bank.writeList, ih, Bank.read_write]
    by_cases hj : j = i
    · subst hj
      simp
    · by_cases hin : i + 1 ≤ j ∧ j < i + 1 + xs.length
      · have h2 : i ≤ j ∧ j < i + (x :: xs).length := by
          simp only [List.length_cons]
          omega
        have h3 : j - i = (j - (i + 1)) + 1 := by omega
        rw [if_pos hin, if_pos h2, h3]
        simp
      · have h2 : ¬(i ≤ j ∧ j < i + (x :: xs).length) := by
          simp only [List.length_cons]
          omega
        rw [if_neg hin, if_neg h2, if_neg hj]

theorem Bank.read_filterMap_shift (b : Bank) (n j : Nat) :
    Bank.read (b.filterMap (Bank.shiftEntry n)) j =
      if n ≤ j then Bank.read b j else if j = 0 then 0 else Bank.read b (j - 1) := by
  induction b with
  | nil => simp
  | cons e rest ih =>
    obtain ⟨k, v⟩ := e
    rw [List.filterMap_cons]
    unfold Bank.shiftEntry at ih ⊢
    simp only at ih ⊢
    by_cases h1 : k + 1 < n
    · simp only [h1, if_true]
      rw [Bank.read_cons, ih, Bank.read_cons, Bank.read_cons]
      by_cases hj : n ≤ j
      · have : k + 1 ≠ j := by omega
        have : k ≠ j := by omega
        simp [*]
      · by_cases h0 : j = 0
        · subst h0
          simp [hj]
        · by_cases hk : k + 1 = j
          · subst hk
            simp [hj]
          · have : k ≠ j - 1 := by omega
            simp [*]
    · by_cases h2 : k < n
      · simp only [h1, h2, if_true, if_false]
        rw [ih, Bank.read_cons, Bank.read_cons]
        by_cases hj : n ≤ j
        · have : k ≠ j := by omega
          simp [*]
        · by_cases h0 : j = 0
          · rw [if_neg hj, if_neg hj, if_pos h0, if_pos h0]
          · have : k ≠ j - 1 := by omega
            simp [*]
      · simp only [h1, h2, if_false]
        rw [Bank.read_cons, ih, Bank.read_cons, Bank.read_cons]
        by_cases hj : n ≤ j
        · simp [hj]
        · have : k ≠ j := by omega
          have : k ≠ j - 1 := by omega
          simp [*]

/-- Reading a delay line after its step over `n` elements (46 R203, R204). -/
theorem Bank.read_shiftIn (b : Bank) (n j : Nat) (x : Word) :
    Bank.read (Bank.shiftIn b n x) j =
      if j = 0 then x else if j < n then Bank.read b (j - 1) else Bank.read b j := by
  unfold Bank.shiftIn
  rw [Bank.read_write, Bank.read_filterMap_shift]
  by_cases h0 : j = 0
  · simp [h0]
  · by_cases hj : j < n
    · have : ¬n ≤ j := by omega
      simp [*]
    · have : n ≤ j := by omega
      simp [*]

/-! ### The canonical form -/

theorem Bank.wfFrom_mono {size lo lo' : Nat} {b : Bank} (h : Bank.wfFrom size lo b = true) (hl : lo' ≤ lo) :
    Bank.wfFrom size lo' b = true := by
  cases b with
  | nil => rfl
  | cons e rest =>
    obtain ⟨k, v⟩ := e
    simp only [Bank.wfFrom, Bool.and_eq_true, decide_eq_true_eq] at h ⊢
    exact ⟨⟨⟨by omega, h.1.1.2⟩, h.1.2⟩, h.2⟩

theorem Bank.wfFrom_erase {size lo : Nat} {b : Bank} (h : Bank.wfFrom size lo b = true) (i : Nat) :
    Bank.wfFrom size lo (Bank.erase b i) = true := by
  induction b generalizing lo with
  | nil => rfl
  | cons e rest ih =>
    obtain ⟨k, v⟩ := e
    simp only [Bank.wfFrom, Bool.and_eq_true, decide_eq_true_eq] at h
    have hrest := ih h.2
    unfold Bank.erase at hrest ⊢
    rw [List.filter_cons]
    split
    · simp only [Bank.wfFrom, Bool.and_eq_true, decide_eq_true_eq]
      exact ⟨⟨⟨h.1.1.1, h.1.1.2⟩, h.1.2⟩, hrest⟩
    · exact Bank.wfFrom_mono hrest (by omega)

theorem Bank.wfFrom_insert {size lo : Nat} {b : Bank} (h : Bank.wfFrom size lo b = true) {i : Nat} {x : Word}
    (hl : lo ≤ i) (hi : i < size) (hx : x ≠ 0) (hne : ∀ e ∈ b, e.1 ≠ i) :
    Bank.wfFrom size lo (Bank.insert b i x) = true := by
  induction b generalizing lo with
  | nil => simpa [Bank.insert, Bank.wfFrom, hl, hi] using hx
  | cons e rest ih =>
    obtain ⟨k, v⟩ := e
    simp only [Bank.wfFrom, Bool.and_eq_true, decide_eq_true_eq] at h
    have hk : k ≠ i := hne (k, v) (List.mem_cons_self ..)
    unfold Bank.insert
    split
    · simp only [Bank.wfFrom, Bool.and_eq_true, decide_eq_true_eq]
      exact ⟨⟨⟨hl, hi⟩, hx⟩, ⟨⟨by omega, h.1.1.2⟩, h.1.2⟩, h.2⟩
    · simp only [Bank.wfFrom, Bool.and_eq_true, decide_eq_true_eq]
      exact ⟨⟨⟨h.1.1.1, h.1.1.2⟩, h.1.2⟩,
        ih h.2 (by omega) fun e he => hne e (List.mem_cons_of_mem _ he)⟩

/-- A write inside the index range keeps the canonical form. -/
theorem Bank.wf_write {size : Nat} {b : Bank} (h : Bank.wf size b = true) {i : Nat} (hi : i < size) (x : Word) :
    Bank.wf size (Bank.write b i x) = true := by
  unfold Bank.write
  split
  · exact Bank.wfFrom_erase h i
  · rename_i hx
    exact Bank.wfFrom_insert (Bank.wfFrom_erase h i) (Nat.zero_le _) hi hx (Bank.mem_erase_ne b i)

/-- Consecutive writes inside the index range keep the canonical form. -/
theorem Bank.wf_writeList {size : Nat} (xs : List Word) {b : Bank} (h : Bank.wf size b = true) {i : Nat}
    (hi : i + xs.length ≤ size) : Bank.wf size (Bank.writeList b i xs) = true := by
  induction xs generalizing b i with
  | nil => exact h
  | cons x xs ih =>
    simp only [List.length_cons] at hi
    exact ih (Bank.wf_write h (by omega) x) (by omega)

/-- A shift over `n` elements leaves what lies beyond them. -/
theorem Bank.wfFrom_shift_beyond {size lo n : Nat} {b : Bank} (h : Bank.wfFrom size lo b = true) (hn : n ≤ lo) :
    Bank.wfFrom size lo (b.filterMap (Bank.shiftEntry n)) = true := by
  induction b generalizing lo with
  | nil => rfl
  | cons e rest ih =>
    obtain ⟨k, v⟩ := e
    simp only [Bank.wfFrom, Bool.and_eq_true, decide_eq_true_eq] at h
    have h1 : ¬k + 1 < n := by omega
    have h2 : ¬k < n := by omega
    rw [List.filterMap_cons]
    simp only [Bank.shiftEntry, h1, h2, if_false, Bank.wfFrom, Bool.and_eq_true, decide_eq_true_eq]
    exact ⟨h.1, ih h.2 (by omega)⟩

/-- A shift over `n` elements moves up what lies among them. -/
theorem Bank.wfFrom_shift_within {size lo n : Nat} {b : Bank} (h : Bank.wfFrom size lo b = true) (hl : lo < n)
    (hn : n ≤ size) : Bank.wfFrom size (lo + 1) (b.filterMap (Bank.shiftEntry n)) = true := by
  induction b generalizing lo with
  | nil => rfl
  | cons e rest ih =>
    obtain ⟨k, v⟩ := e
    simp only [Bank.wfFrom, Bool.and_eq_true, decide_eq_true_eq] at h
    rw [List.filterMap_cons]
    by_cases h1 : k + 1 < n
    · simp only [Bank.shiftEntry, h1, if_true, Bank.wfFrom, Bool.and_eq_true, decide_eq_true_eq]
      exact ⟨⟨⟨by omega, by omega⟩, h.1.2⟩, ih h.2 h1⟩
    · have hbeyond := Bank.wfFrom_shift_beyond h.2 (n := n) (by omega)
      by_cases h2 : k < n
      · simp only [Bank.shiftEntry, h1, h2, if_true, if_false]
        exact Bank.wfFrom_mono hbeyond (by omega)
      · simp only [Bank.shiftEntry, h1, h2, if_false, Bank.wfFrom, Bool.and_eq_true, decide_eq_true_eq]
        exact ⟨⟨⟨by omega, h.1.1.2⟩, h.1.2⟩, hbeyond⟩

/-- A delay line's step inside the line's length keeps the canonical form. -/
theorem Bank.wf_shiftIn {size n : Nat} {b : Bank} (h : Bank.wf size b = true) (hn : n ≤ size) (hs : 0 < size)
    (x : Word) : Bank.wf size (Bank.shiftIn b n x) = true := by
  refine Bank.wf_write ?_ hs x
  by_cases h0 : n = 0
  · subst h0
    exact Bank.wfFrom_shift_beyond h (Nat.zero_le _)
  · exact Bank.wfFrom_mono (Bank.wfFrom_shift_within h (by omega) hn) (Nat.zero_le _)

/-! ### The canonical form is canonical -/

theorem Bank.read_eq_zero_of_lt {size lo : Nat} {b : Bank} (h : Bank.wfFrom size lo b = true) {i : Nat}
    (hi : i < lo) : Bank.read b i = 0 := by
  induction b generalizing lo with
  | nil => rfl
  | cons e rest ih =>
    obtain ⟨k, v⟩ := e
    simp only [Bank.wfFrom, Bool.and_eq_true, decide_eq_true_eq] at h
    have : k ≠ i := by omega
    rw [Bank.read_cons, if_neg this, ih h.2 (by omega)]

/-- An index beyond the space's size reads as +0. -/
theorem Bank.read_eq_zero_of_ge {size lo : Nat} {b : Bank} (h : Bank.wfFrom size lo b = true) {i : Nat}
    (hi : size ≤ i) : Bank.read b i = 0 := by
  induction b generalizing lo with
  | nil => rfl
  | cons e rest ih =>
    obtain ⟨k, v⟩ := e
    simp only [Bank.wfFrom, Bool.and_eq_true, decide_eq_true_eq] at h
    have : k ≠ i := by omega
    rw [Bank.read_cons, if_neg this, ih h.2]

theorem Bank.ext_from {size lo : Nat} {a b : Bank} (ha : Bank.wfFrom size lo a = true)
    (hb : Bank.wfFrom size lo b = true) (h : ∀ i, Bank.read a i = Bank.read b i) : a = b := by
  induction a generalizing b lo with
  | nil =>
    cases b with
    | nil => rfl
    | cons e rest =>
      obtain ⟨k, v⟩ := e
      simp only [Bank.wfFrom, Bool.and_eq_true, decide_eq_true_eq] at hb
      have := h k
      simp only [Bank.read_nil, Bank.read_cons, if_true] at this
      exact absurd this.symm hb.1.2
  | cons e rest ih =>
    obtain ⟨k, v⟩ := e
    have hA := ha
    simp only [Bank.wfFrom, Bool.and_eq_true, decide_eq_true_eq] at ha
    cases b with
    | nil =>
      have := h k
      simp only [Bank.read_nil, Bank.read_cons, if_true] at this
      exact absurd this ha.1.2
    | cons e' rest' =>
      obtain ⟨k', v'⟩ := e'
      have hB := hb
      simp only [Bank.wfFrom, Bool.and_eq_true, decide_eq_true_eq] at hb
      rcases Nat.lt_trichotomy k k' with hlt | heq | hgt
      · have h1 := h k
        have h2 : Bank.read ((k', v') :: rest') k = 0 := by
          rw [Bank.read_cons, if_neg (by omega)]
          exact Bank.read_eq_zero_of_lt hb.2 (by omega)
        rw [h2, Bank.read_cons, if_pos rfl] at h1
        exact absurd h1 ha.1.2
      · subst heq
        have h1 := h k
        simp only [Bank.read_cons, if_true] at h1
        subst h1
        congr 1
        refine ih ha.2 hb.2 fun i => ?_
        have h2 := h i
        simp only [Bank.read_cons] at h2
        by_cases hi : k = i
        · subst hi
          rw [Bank.read_eq_zero_of_lt ha.2 (by omega), Bank.read_eq_zero_of_lt hb.2 (by omega)]
        · simpa [hi] using h2
      · have h1 := h k'
        have h2 : Bank.read ((k, v) :: rest) k' = 0 := by
          rw [Bank.read_cons, if_neg (by omega)]
          exact Bank.read_eq_zero_of_lt ha.2 (by omega)
        rw [h2, Bank.read_cons, if_pos rfl] at h1
        exact absurd h1.symm hb.1.2

/-- Two banks in canonical form that read alike are the same data. -/
theorem Bank.ext_of_wf {size : Nat} {a b : Bank} (ha : Bank.wf size a = true) (hb : Bank.wf size b = true)
    (h : ∀ i, Bank.read a i = Bank.read b i) : a = b :=
  Bank.ext_from ha hb h

end Sys2Proof.Machine
end

