-- ==== Sys2Proof/Laws/State.lean ====
section
/-!
SUPPORT. What each update of the state leaves in each field, one lemma per field per update, so that no proof unfolds a record update.
-/

namespace Sys2Proof.Machine

/-! ### Replacing a band, a channel or a stage -/

@[simp] theorem State.setBand_running (s : State) (b : BitVec 4) (x : Band) :
    (s.setBand b x).running = s.running := rfl

@[simp] theorem State.setBand_prepared (s : State) (b : BitVec 4) (x : Band) :
    (s.setBand b x).prepared = s.prepared := rfl

@[simp] theorem State.setBand_err (s : State) (b : BitVec 4) (x : Band) :
    (s.setBand b x).err = s.err := rfl

@[simp] theorem State.setBand_errCode (s : State) (b : BitVec 4) (x : Band) :
    (s.setBand b x).errCode = s.errCode := rfl

@[simp] theorem State.setBand_errCmd (s : State) (b : BitVec 4) (x : Band) :
    (s.setBand b x).errCmd = s.errCmd := rfl

@[simp] theorem State.setBand_errPort (s : State) (b : BitVec 4) (x : Band) :
    (s.setBand b x).errPort = s.errPort := rfl

@[simp] theorem State.setBand_cfgNch (s : State) (b : BitVec 4) (x : Band) :
    (s.setBand b x).cfgNch = s.cfgNch := rfl

@[simp] theorem State.setBand_cfgS (s : State) (b : BitVec 4) (x : Band) :
    (s.setBand b x).cfgS = s.cfgS := rfl

@[simp] theorem State.setBand_cfgMaxblk (s : State) (b : BitVec 4) (x : Band) :
    (s.setBand b x).cfgMaxblk = s.cfgMaxblk := rfl

@[simp] theorem State.setBand_stages (s : State) (b : BitVec 4) (x : Band) :
    (s.setBand b x).stages = s.stages := rfl

@[simp] theorem State.setBand_chans (s : State) (b : BitVec 4) (x : Band) :
    (s.setBand b x).chans = s.chans := rfl

@[simp] theorem State.setBand_respA (s : State) (b : BitVec 4) (x : Band) :
    (s.setBand b x).respA = s.respA := rfl

@[simp] theorem State.setBand_respC (s : State) (b : BitVec 4) (x : Band) :
    (s.setBand b x).respC = s.respC := rfl

@[simp] theorem State.setBand_progA (s : State) (b : BitVec 4) (x : Band) :
    (s.setBand b x).progA = s.progA := rfl

@[simp] theorem State.setBand_progC (s : State) (b : BitVec 4) (x : Band) :
    (s.setBand b x).progC = s.progC := rfl

@[simp] theorem State.setBand_cpA (s : State) (b : BitVec 4) (x : Band) :
    (s.setBand b x).cpA = s.cpA := rfl

@[simp] theorem State.setBand_cpC (s : State) (b : BitVec 4) (x : Band) :
    (s.setBand b x).cpC = s.cpC := rfl

@[simp] theorem State.setBand_par (s : State) (b : BitVec 4) (x : Band) :
    (s.setBand b x).par = s.par := rfl

@[simp] theorem State.setBand_inputs (s : State) (b : BitVec 4) (x : Band) :
    (s.setBand b x).inputs = s.inputs := rfl

@[simp] theorem State.setBand_port (s : State) (b : BitVec 4) (x : Band) :
    (s.setBand b x).port = s.port := rfl

@[simp] theorem State.setBand_draw (s : State) (b : BitVec 4) (x : Band) :
    (s.setBand b x).draw = s.draw := rfl

@[simp] theorem State.setChan_running (s : State) (c : BitVec 4) (x : Chan) :
    (s.setChan c x).running = s.running := rfl

@[simp] theorem State.setChan_prepared (s : State) (c : BitVec 4) (x : Chan) :
    (s.setChan c x).prepared = s.prepared := rfl

@[simp] theorem State.setChan_err (s : State) (c : BitVec 4) (x : Chan) :
    (s.setChan c x).err = s.err := rfl

@[simp] theorem State.setChan_errCode (s : State) (c : BitVec 4) (x : Chan) :
    (s.setChan c x).errCode = s.errCode := rfl

@[simp] theorem State.setChan_errCmd (s : State) (c : BitVec 4) (x : Chan) :
    (s.setChan c x).errCmd = s.errCmd := rfl

@[simp] theorem State.setChan_errPort (s : State) (c : BitVec 4) (x : Chan) :
    (s.setChan c x).errPort = s.errPort := rfl

@[simp] theorem State.setChan_cfgNch (s : State) (c : BitVec 4) (x : Chan) :
    (s.setChan c x).cfgNch = s.cfgNch := rfl

@[simp] theorem State.setChan_cfgS (s : State) (c : BitVec 4) (x : Chan) :
    (s.setChan c x).cfgS = s.cfgS := rfl

@[simp] theorem State.setChan_cfgMaxblk (s : State) (c : BitVec 4) (x : Chan) :
    (s.setChan c x).cfgMaxblk = s.cfgMaxblk := rfl

@[simp] theorem State.setChan_bands (s : State) (c : BitVec 4) (x : Chan) :
    (s.setChan c x).bands = s.bands := rfl

@[simp] theorem State.setChan_stages (s : State) (c : BitVec 4) (x : Chan) :
    (s.setChan c x).stages = s.stages := rfl

@[simp] theorem State.setChan_respA (s : State) (c : BitVec 4) (x : Chan) :
    (s.setChan c x).respA = s.respA := rfl

@[simp] theorem State.setChan_respC (s : State) (c : BitVec 4) (x : Chan) :
    (s.setChan c x).respC = s.respC := rfl

@[simp] theorem State.setChan_progA (s : State) (c : BitVec 4) (x : Chan) :
    (s.setChan c x).progA = s.progA := rfl

@[simp] theorem State.setChan_progC (s : State) (c : BitVec 4) (x : Chan) :
    (s.setChan c x).progC = s.progC := rfl

@[simp] theorem State.setChan_cpA (s : State) (c : BitVec 4) (x : Chan) :
    (s.setChan c x).cpA = s.cpA := rfl

@[simp] theorem State.setChan_cpC (s : State) (c : BitVec 4) (x : Chan) :
    (s.setChan c x).cpC = s.cpC := rfl

@[simp] theorem State.setChan_par (s : State) (c : BitVec 4) (x : Chan) :
    (s.setChan c x).par = s.par := rfl

@[simp] theorem State.setChan_inputs (s : State) (c : BitVec 4) (x : Chan) :
    (s.setChan c x).inputs = s.inputs := rfl

@[simp] theorem State.setChan_port (s : State) (c : BitVec 4) (x : Chan) :
    (s.setChan c x).port = s.port := rfl

@[simp] theorem State.setChan_draw (s : State) (c : BitVec 4) (x : Chan) :
    (s.setChan c x).draw = s.draw := rfl

@[simp] theorem State.setStage_running (s : State) (n : Nat) (x : Stage) :
    (s.setStage n x).running = s.running := rfl

@[simp] theorem State.setStage_prepared (s : State) (n : Nat) (x : Stage) :
    (s.setStage n x).prepared = s.prepared := rfl

@[simp] theorem State.setStage_err (s : State) (n : Nat) (x : Stage) :
    (s.setStage n x).err = s.err := rfl

@[simp] theorem State.setStage_errCode (s : State) (n : Nat) (x : Stage) :
    (s.setStage n x).errCode = s.errCode := rfl

@[simp] theorem State.setStage_errCmd (s : State) (n : Nat) (x : Stage) :
    (s.setStage n x).errCmd = s.errCmd := rfl

@[simp] theorem State.setStage_errPort (s : State) (n : Nat) (x : Stage) :
    (s.setStage n x).errPort = s.errPort := rfl

@[simp] theorem State.setStage_cfgNch (s : State) (n : Nat) (x : Stage) :
    (s.setStage n x).cfgNch = s.cfgNch := rfl

@[simp] theorem State.setStage_cfgS (s : State) (n : Nat) (x : Stage) :
    (s.setStage n x).cfgS = s.cfgS := rfl

@[simp] theorem State.setStage_cfgMaxblk (s : State) (n : Nat) (x : Stage) :
    (s.setStage n x).cfgMaxblk = s.cfgMaxblk := rfl

@[simp] theorem State.setStage_bands (s : State) (n : Nat) (x : Stage) :
    (s.setStage n x).bands = s.bands := rfl

@[simp] theorem State.setStage_chans (s : State) (n : Nat) (x : Stage) :
    (s.setStage n x).chans = s.chans := rfl

@[simp] theorem State.setStage_respA (s : State) (n : Nat) (x : Stage) :
    (s.setStage n x).respA = s.respA := rfl

@[simp] theorem State.setStage_respC (s : State) (n : Nat) (x : Stage) :
    (s.setStage n x).respC = s.respC := rfl

@[simp] theorem State.setStage_progA (s : State) (n : Nat) (x : Stage) :
    (s.setStage n x).progA = s.progA := rfl

@[simp] theorem State.setStage_progC (s : State) (n : Nat) (x : Stage) :
    (s.setStage n x).progC = s.progC := rfl

@[simp] theorem State.setStage_cpA (s : State) (n : Nat) (x : Stage) :
    (s.setStage n x).cpA = s.cpA := rfl

@[simp] theorem State.setStage_cpC (s : State) (n : Nat) (x : Stage) :
    (s.setStage n x).cpC = s.cpC := rfl

@[simp] theorem State.setStage_par (s : State) (n : Nat) (x : Stage) :
    (s.setStage n x).par = s.par := rfl

@[simp] theorem State.setStage_inputs (s : State) (n : Nat) (x : Stage) :
    (s.setStage n x).inputs = s.inputs := rfl

@[simp] theorem State.setStage_port (s : State) (n : Nat) (x : Stage) :
    (s.setStage n x).port = s.port := rfl

@[simp] theorem State.setStage_draw (s : State) (n : Nat) (x : Stage) :
    (s.setStage n x).draw = s.draw := rfl

/-! ### Results -/

@[simp] theorem State.emit_running (s : State) (p : Port) (w : Word) :
    (s.emit p w).running = s.running := by cases p <;> rfl

@[simp] theorem State.emit_prepared (s : State) (p : Port) (w : Word) :
    (s.emit p w).prepared = s.prepared := by cases p <;> rfl

@[simp] theorem State.emit_err (s : State) (p : Port) (w : Word) :
    (s.emit p w).err = s.err := by cases p <;> rfl

@[simp] theorem State.emit_errCode (s : State) (p : Port) (w : Word) :
    (s.emit p w).errCode = s.errCode := by cases p <;> rfl

@[simp] theorem State.emit_errCmd (s : State) (p : Port) (w : Word) :
    (s.emit p w).errCmd = s.errCmd := by cases p <;> rfl

@[simp] theorem State.emit_errPort (s : State) (p : Port) (w : Word) :
    (s.emit p w).errPort = s.errPort := by cases p <;> rfl

@[simp] theorem State.emit_cfgNch (s : State) (p : Port) (w : Word) :
    (s.emit p w).cfgNch = s.cfgNch := by cases p <;> rfl

@[simp] theorem State.emit_cfgS (s : State) (p : Port) (w : Word) :
    (s.emit p w).cfgS = s.cfgS := by cases p <;> rfl

@[simp] theorem State.emit_cfgMaxblk (s : State) (p : Port) (w : Word) :
    (s.emit p w).cfgMaxblk = s.cfgMaxblk := by cases p <;> rfl

@[simp] theorem State.emit_bands (s : State) (p : Port) (w : Word) :
    (s.emit p w).bands = s.bands := by cases p <;> rfl

@[simp] theorem State.emit_stages (s : State) (p : Port) (w : Word) :
    (s.emit p w).stages = s.stages := by cases p <;> rfl

@[simp] theorem State.emit_chans (s : State) (p : Port) (w : Word) :
    (s.emit p w).chans = s.chans := by cases p <;> rfl

@[simp] theorem State.emit_progA (s : State) (p : Port) (w : Word) :
    (s.emit p w).progA = s.progA := by cases p <;> rfl

@[simp] theorem State.emit_progC (s : State) (p : Port) (w : Word) :
    (s.emit p w).progC = s.progC := by cases p <;> rfl

@[simp] theorem State.emit_cpA (s : State) (p : Port) (w : Word) :
    (s.emit p w).cpA = s.cpA := by cases p <;> rfl

@[simp] theorem State.emit_cpC (s : State) (p : Port) (w : Word) :
    (s.emit p w).cpC = s.cpC := by cases p <;> rfl

@[simp] theorem State.emit_par (s : State) (p : Port) (w : Word) :
    (s.emit p w).par = s.par := by cases p <;> rfl

@[simp] theorem State.emit_inputs (s : State) (p : Port) (w : Word) :
    (s.emit p w).inputs = s.inputs := by cases p <;> rfl

@[simp] theorem State.emit_port (s : State) (p : Port) (w : Word) :
    (s.emit p w).port = s.port := by cases p <;> rfl

@[simp] theorem State.emit_draw (s : State) (p : Port) (w : Word) :
    (s.emit p w).draw = s.draw := by cases p <;> rfl

@[simp] theorem State.emit_a_respA (s : State) (w : Word) :
    (s.emit .a w).respA = s.respA ++ [w] := rfl

@[simp] theorem State.emit_a_respC (s : State) (w : Word) :
    (s.emit .a w).respC = s.respC := rfl

@[simp] theorem State.emit_c_respA (s : State) (w : Word) :
    (s.emit .c w).respA = s.respA := rfl

@[simp] theorem State.emit_c_respC (s : State) (w : Word) :
    (s.emit .c w).respC = s.respC ++ [w] := rfl

@[simp] theorem State.emitAll_running (s : State) (p : Port) (ws : List Word) :
    (s.emitAll p ws).running = s.running := by cases p <;> rfl

@[simp] theorem State.emitAll_prepared (s : State) (p : Port) (ws : List Word) :
    (s.emitAll p ws).prepared = s.prepared := by cases p <;> rfl

@[simp] theorem State.emitAll_err (s : State) (p : Port) (ws : List Word) :
    (s.emitAll p ws).err = s.err := by cases p <;> rfl

@[simp] theorem State.emitAll_errCode (s : State) (p : Port) (ws : List Word) :
    (s.emitAll p ws).errCode = s.errCode := by cases p <;> rfl

@[simp] theorem State.emitAll_errCmd (s : State) (p : Port) (ws : List Word) :
    (s.emitAll p ws).errCmd = s.errCmd := by cases p <;> rfl

@[simp] theorem State.emitAll_errPort (s : State) (p : Port) (ws : List Word) :
    (s.emitAll p ws).errPort = s.errPort := by cases p <;> rfl

@[simp] theorem State.emitAll_cfgNch (s : State) (p : Port) (ws : List Word) :
    (s.emitAll p ws).cfgNch = s.cfgNch := by cases p <;> rfl

@[simp] theorem State.emitAll_cfgS (s : State) (p : Port) (ws : List Word) :
    (s.emitAll p ws).cfgS = s.cfgS := by cases p <;> rfl

@[simp] theorem State.emitAll_cfgMaxblk (s : State) (p : Port) (ws : List Word) :
    (s.emitAll p ws).cfgMaxblk = s.cfgMaxblk := by cases p <;> rfl

@[simp] theorem State.emitAll_bands (s : State) (p : Port) (ws : List Word) :
    (s.emitAll p ws).bands = s.bands := by cases p <;> rfl

@[simp] theorem State.emitAll_stages (s : State) (p : Port) (ws : List Word) :
    (s.emitAll p ws).stages = s.stages := by cases p <;> rfl

@[simp] theorem State.emitAll_chans (s : State) (p : Port) (ws : List Word) :
    (s.emitAll p ws).chans = s.chans := by cases p <;> rfl

@[simp] theorem State.emitAll_progA (s : State) (p : Port) (ws : List Word) :
    (s.emitAll p ws).progA = s.progA := by cases p <;> rfl

@[simp] theorem State.emitAll_progC (s : State) (p : Port) (ws : List Word) :
    (s.emitAll p ws).progC = s.progC := by cases p <;> rfl

@[simp] theorem State.emitAll_cpA (s : State) (p : Port) (ws : List Word) :
    (s.emitAll p ws).cpA = s.cpA := by cases p <;> rfl

@[simp] theorem State.emitAll_cpC (s : State) (p : Port) (ws : List Word) :
    (s.emitAll p ws).cpC = s.cpC := by cases p <;> rfl

@[simp] theorem State.emitAll_par (s : State) (p : Port) (ws : List Word) :
    (s.emitAll p ws).par = s.par := by cases p <;> rfl

@[simp] theorem State.emitAll_inputs (s : State) (p : Port) (ws : List Word) :
    (s.emitAll p ws).inputs = s.inputs := by cases p <;> rfl

@[simp] theorem State.emitAll_port (s : State) (p : Port) (ws : List Word) :
    (s.emitAll p ws).port = s.port := by cases p <;> rfl

@[simp] theorem State.emitAll_draw (s : State) (p : Port) (ws : List Word) :
    (s.emitAll p ws).draw = s.draw := by cases p <;> rfl

@[simp] theorem State.emitAll_a_respA (s : State) (ws : List Word) :
    (s.emitAll .a ws).respA = s.respA ++ ws := rfl

@[simp] theorem State.emitAll_a_respC (s : State) (ws : List Word) :
    (s.emitAll .a ws).respC = s.respC := rfl

@[simp] theorem State.emitAll_c_respA (s : State) (ws : List Word) :
    (s.emitAll .c ws).respA = s.respA := rfl

@[simp] theorem State.emitAll_c_respC (s : State) (ws : List Word) :
    (s.emitAll .c ws).respC = s.respC ++ ws := rfl

/-! ### Taking a fault -/

@[simp] theorem State.raise_running (s : State) (k : ErrCode) (h : Header) :
    (s.raise k h).running = s.running := rfl

@[simp] theorem State.raise_prepared (s : State) (k : ErrCode) (h : Header) :
    (s.raise k h).prepared = s.prepared := rfl

@[simp] theorem State.raise_err (s : State) (k : ErrCode) (h : Header) :
    (s.raise k h).err = true := rfl

@[simp] theorem State.raise_errCode (s : State) (k : ErrCode) (h : Header) :
    (s.raise k h).errCode = k.code := rfl

@[simp] theorem State.raise_errCmd (s : State) (k : ErrCode) (h : Header) :
    (s.raise k h).errCmd = h := rfl

@[simp] theorem State.raise_errPort (s : State) (k : ErrCode) (h : Header) :
    (s.raise k h).errPort = s.port := rfl

@[simp] theorem State.raise_cfgNch (s : State) (k : ErrCode) (h : Header) :
    (s.raise k h).cfgNch = s.cfgNch := rfl

@[simp] theorem State.raise_cfgS (s : State) (k : ErrCode) (h : Header) :
    (s.raise k h).cfgS = s.cfgS := rfl

@[simp] theorem State.raise_cfgMaxblk (s : State) (k : ErrCode) (h : Header) :
    (s.raise k h).cfgMaxblk = s.cfgMaxblk := rfl

@[simp] theorem State.raise_bands (s : State) (k : ErrCode) (h : Header) :
    (s.raise k h).bands = s.bands := rfl

@[simp] theorem State.raise_stages (s : State) (k : ErrCode) (h : Header) :
    (s.raise k h).stages = s.stages := rfl

@[simp] theorem State.raise_chans (s : State) (k : ErrCode) (h : Header) :
    (s.raise k h).chans = s.chans := rfl

@[simp] theorem State.raise_respA (s : State) (k : ErrCode) (h : Header) :
    (s.raise k h).respA = s.respA := rfl

@[simp] theorem State.raise_respC (s : State) (k : ErrCode) (h : Header) :
    (s.raise k h).respC = s.respC := rfl

@[simp] theorem State.raise_progA (s : State) (k : ErrCode) (h : Header) :
    (s.raise k h).progA = s.progA := rfl

@[simp] theorem State.raise_progC (s : State) (k : ErrCode) (h : Header) :
    (s.raise k h).progC = s.progC := rfl

@[simp] theorem State.raise_cpA (s : State) (k : ErrCode) (h : Header) :
    (s.raise k h).cpA = s.cpA := rfl

@[simp] theorem State.raise_cpC (s : State) (k : ErrCode) (h : Header) :
    (s.raise k h).cpC = s.cpC := rfl

@[simp] theorem State.raise_par (s : State) (k : ErrCode) (h : Header) :
    (s.raise k h).par = s.par := rfl

@[simp] theorem State.raise_inputs (s : State) (k : ErrCode) (h : Header) :
    (s.raise k h).inputs = s.inputs := rfl

@[simp] theorem State.raise_port (s : State) (k : ErrCode) (h : Header) :
    (s.raise k h).port = s.port := rfl

@[simp] theorem State.raise_draw (s : State) (k : ErrCode) (h : Header) :
    (s.raise k h).draw = s.draw := rfl

/-! ### Accepting a command -/

@[simp] theorem State.accept_running (s : State) (p : Port) :
    (s.accept p).running = s.running := by cases p <;> rfl

@[simp] theorem State.accept_prepared (s : State) (p : Port) :
    (s.accept p).prepared = s.prepared := by cases p <;> rfl

@[simp] theorem State.accept_err (s : State) (p : Port) :
    (s.accept p).err = s.err := by cases p <;> rfl

@[simp] theorem State.accept_errCode (s : State) (p : Port) :
    (s.accept p).errCode = s.errCode := by cases p <;> rfl

@[simp] theorem State.accept_errCmd (s : State) (p : Port) :
    (s.accept p).errCmd = s.errCmd := by cases p <;> rfl

@[simp] theorem State.accept_errPort (s : State) (p : Port) :
    (s.accept p).errPort = s.errPort := by cases p <;> rfl

@[simp] theorem State.accept_cfgNch (s : State) (p : Port) :
    (s.accept p).cfgNch = s.cfgNch := by cases p <;> rfl

@[simp] theorem State.accept_cfgS (s : State) (p : Port) :
    (s.accept p).cfgS = s.cfgS := by cases p <;> rfl

@[simp] theorem State.accept_cfgMaxblk (s : State) (p : Port) :
    (s.accept p).cfgMaxblk = s.cfgMaxblk := by cases p <;> rfl

@[simp] theorem State.accept_bands (s : State) (p : Port) :
    (s.accept p).bands = s.bands := by cases p <;> rfl

@[simp] theorem State.accept_stages (s : State) (p : Port) :
    (s.accept p).stages = s.stages := by cases p <;> rfl

@[simp] theorem State.accept_chans (s : State) (p : Port) :
    (s.accept p).chans = s.chans := by cases p <;> rfl

@[simp] theorem State.accept_respA (s : State) (p : Port) :
    (s.accept p).respA = s.respA := by cases p <;> rfl

@[simp] theorem State.accept_respC (s : State) (p : Port) :
    (s.accept p).respC = s.respC := by cases p <;> rfl

@[simp] theorem State.accept_progA (s : State) (p : Port) :
    (s.accept p).progA = s.progA := by cases p <;> rfl

@[simp] theorem State.accept_progC (s : State) (p : Port) :
    (s.accept p).progC = s.progC := by cases p <;> rfl

@[simp] theorem State.accept_par (s : State) (p : Port) :
    (s.accept p).par = s.par := by cases p <;> rfl

@[simp] theorem State.accept_inputs (s : State) (p : Port) :
    (s.accept p).inputs = s.inputs.tail := by cases p <;> rfl

@[simp] theorem State.accept_port (s : State) (p : Port) :
    (s.accept p).port = p := by cases p <;> rfl

@[simp] theorem State.accept_draw (s : State) (p : Port) :
    (s.accept p).draw = s.draw + 1 := by cases p <;> rfl

@[simp] theorem State.accept_a_cpA (s : State) :
    (s.accept .a).cpA = s.cpA + 1 := rfl

@[simp] theorem State.accept_a_cpC (s : State) :
    (s.accept .a).cpC = s.cpC := rfl

@[simp] theorem State.accept_c_cpA (s : State) :
    (s.accept .c).cpA = s.cpA := rfl

@[simp] theorem State.accept_c_cpC (s : State) :
    (s.accept .c).cpC = s.cpC + 1 := rfl

/-! ### Hardware reset -/

@[simp] theorem State.hardwareReset_running (s : State) :
    s.hardwareReset.running = (State.resetWith s.par).running := rfl

@[simp] theorem State.hardwareReset_prepared (s : State) :
    s.hardwareReset.prepared = (State.resetWith s.par).prepared := rfl

@[simp] theorem State.hardwareReset_err (s : State) :
    s.hardwareReset.err = (State.resetWith s.par).err := rfl

@[simp] theorem State.hardwareReset_errCode (s : State) :
    s.hardwareReset.errCode = (State.resetWith s.par).errCode := rfl

@[simp] theorem State.hardwareReset_errCmd (s : State) :
    s.hardwareReset.errCmd = (State.resetWith s.par).errCmd := rfl

@[simp] theorem State.hardwareReset_errPort (s : State) :
    s.hardwareReset.errPort = (State.resetWith s.par).errPort := rfl

@[simp] theorem State.hardwareReset_cfgNch (s : State) :
    s.hardwareReset.cfgNch = (State.resetWith s.par).cfgNch := rfl

@[simp] theorem State.hardwareReset_cfgS (s : State) :
    s.hardwareReset.cfgS = (State.resetWith s.par).cfgS := rfl

@[simp] theorem State.hardwareReset_cfgMaxblk (s : State) :
    s.hardwareReset.cfgMaxblk = (State.resetWith s.par).cfgMaxblk := rfl

@[simp] theorem State.hardwareReset_bands (s : State) :
    s.hardwareReset.bands = (State.resetWith s.par).bands := rfl

@[simp] theorem State.hardwareReset_stages (s : State) :
    s.hardwareReset.stages = (State.resetWith s.par).stages := rfl

@[simp] theorem State.hardwareReset_chans (s : State) :
    s.hardwareReset.chans = (State.resetWith s.par).chans := rfl

@[simp] theorem State.hardwareReset_respA (s : State) :
    s.hardwareReset.respA = (State.resetWith s.par).respA := rfl

@[simp] theorem State.hardwareReset_respC (s : State) :
    s.hardwareReset.respC = (State.resetWith s.par).respC := rfl

@[simp] theorem State.hardwareReset_progA (s : State) :
    s.hardwareReset.progA = s.progA := rfl

@[simp] theorem State.hardwareReset_progC (s : State) :
    s.hardwareReset.progC = s.progC := rfl

@[simp] theorem State.hardwareReset_cpA (s : State) :
    s.hardwareReset.cpA = s.cpA := rfl

@[simp] theorem State.hardwareReset_cpC (s : State) :
    s.hardwareReset.cpC = s.cpC := rfl

@[simp] theorem State.hardwareReset_par (s : State) :
    s.hardwareReset.par = s.par := rfl

@[simp] theorem State.hardwareReset_inputs (s : State) :
    s.hardwareReset.inputs = s.inputs.tail := rfl

@[simp] theorem State.hardwareReset_port (s : State) :
    s.hardwareReset.port = s.port := rfl

@[simp] theorem State.hardwareReset_draw (s : State) :
    s.hardwareReset.draw = s.draw + 1 := rfl

/-! ### Reading a band, a channel or a stage after an update -/

@[simp] theorem State.setBand_band (s : State) (b : BitVec 4) (x : Band) : (s.setBand b x).band b = x := by
  simp [State.band, State.setBand]

theorem State.setBand_band_ne (s : State) {b b' : BitVec 4} (x : Band) (h : b' ≠ b) :
    (s.setBand b x).band b' = s.band b' := by
  have : b.toNat ≠ b'.toNat := fun e => h (BitVec.eq_of_toNat_eq e.symm)
  simp [State.band, State.setBand, this]

theorem State.setBand_band_eq (s : State) (b b' : BitVec 4) (x : Band) :
    (s.setBand b x).band b' = if b' = b then x else s.band b' := by
  by_cases h : b' = b
  · simp [h]
  · simp [h, State.setBand_band_ne]

@[simp] theorem State.setBand_self (s : State) (b : BitVec 4) : s.setBand b (s.band b) = s := by
  simp [State.setBand, State.band]

@[simp] theorem State.setChan_chan (s : State) (c : BitVec 4) (x : Chan) : (s.setChan c x).chan c = x := by
  simp [State.chan, State.setChan]

theorem State.setChan_chan_ne (s : State) {c c' : BitVec 4} (x : Chan) (h : c' ≠ c) :
    (s.setChan c x).chan c' = s.chan c' := by
  have : c.toNat ≠ c'.toNat := fun e => h (BitVec.eq_of_toNat_eq e.symm)
  simp [State.chan, State.setChan, this]

theorem State.setChan_chan_eq (s : State) (c c' : BitVec 4) (x : Chan) :
    (s.setChan c x).chan c' = if c' = c then x else s.chan c' := by
  by_cases h : c' = c
  · simp [h]
  · simp [h, State.setChan_chan_ne]

@[simp] theorem State.setChan_self (s : State) (c : BitVec 4) : s.setChan c (s.chan c) = s := by
  simp [State.setChan, State.chan]

theorem State.setStage_stage (s : State) {n : Nat} (x : Stage) (h : n < 6) : (s.setStage n x).stage n = x := by
  simp [State.stage, State.setStage, h]

theorem State.setStage_stage_ne (s : State) {n m : Nat} (x : Stage) (h : m ≠ n) :
    (s.setStage n x).stage m = s.stage m := by
  have h' : n ≠ m := fun e => h e.symm
  unfold State.stage State.setStage
  by_cases hm : m < 6
  · simp [h']
  · simp [hm]

@[simp] theorem State.setChan_band (s : State) (c : BitVec 4) (x : Chan) (b : BitVec 4) :
    (s.setChan c x).band b = s.band b := rfl

@[simp] theorem State.setStage_band (s : State) (n : Nat) (x : Stage) (b : BitVec 4) :
    (s.setStage n x).band b = s.band b := rfl

@[simp] theorem State.emit_band (s : State) (p : Port) (w : Word) (b : BitVec 4) :
    (s.emit p w).band b = s.band b := by cases p <;> rfl

@[simp] theorem State.emitAll_band (s : State) (p : Port) (ws : List Word) (b : BitVec 4) :
    (s.emitAll p ws).band b = s.band b := by cases p <;> rfl

@[simp] theorem State.raise_band (s : State) (k : ErrCode) (h : Header) (b : BitVec 4) :
    (s.raise k h).band b = s.band b := rfl

@[simp] theorem State.accept_band (s : State) (p : Port) (b : BitVec 4) :
    (s.accept p).band b = s.band b := by cases p <;> rfl

@[simp] theorem State.setBand_chan (s : State) (b : BitVec 4) (x : Band) (c' : BitVec 4) :
    (s.setBand b x).chan c' = s.chan c' := rfl

@[simp] theorem State.setStage_chan (s : State) (n : Nat) (x : Stage) (c' : BitVec 4) :
    (s.setStage n x).chan c' = s.chan c' := rfl

@[simp] theorem State.emit_chan (s : State) (p : Port) (w : Word) (c' : BitVec 4) :
    (s.emit p w).chan c' = s.chan c' := by cases p <;> rfl

@[simp] theorem State.emitAll_chan (s : State) (p : Port) (ws : List Word) (c' : BitVec 4) :
    (s.emitAll p ws).chan c' = s.chan c' := by cases p <;> rfl

@[simp] theorem State.raise_chan (s : State) (k : ErrCode) (h : Header) (c' : BitVec 4) :
    (s.raise k h).chan c' = s.chan c' := rfl

@[simp] theorem State.accept_chan (s : State) (p : Port) (c' : BitVec 4) :
    (s.accept p).chan c' = s.chan c' := by cases p <;> rfl

@[simp] theorem State.setBand_stage (s : State) (b : BitVec 4) (x : Band) (m : Nat) :
    (s.setBand b x).stage m = s.stage m := rfl

@[simp] theorem State.setChan_stage (s : State) (c : BitVec 4) (x : Chan) (m : Nat) :
    (s.setChan c x).stage m = s.stage m := rfl

@[simp] theorem State.emit_stage (s : State) (p : Port) (w : Word) (m : Nat) :
    (s.emit p w).stage m = s.stage m := by cases p <;> rfl

@[simp] theorem State.emitAll_stage (s : State) (p : Port) (ws : List Word) (m : Nat) :
    (s.emitAll p ws).stage m = s.stage m := by cases p <;> rfl

@[simp] theorem State.raise_stage (s : State) (k : ErrCode) (h : Header) (m : Nat) :
    (s.raise k h).stage m = s.stage m := rfl

@[simp] theorem State.accept_stage (s : State) (p : Port) (m : Nat) :
    (s.accept p).stage m = s.stage m := by cases p <;> rfl

theorem State.resetWith_band (p : Params) (b : BitVec 4) : (State.resetWith p).band b = Band.reset p := by
  simp [State.band, State.resetWith]

theorem State.resetWith_chan (p : Params) (c : BitVec 4) : (State.resetWith p).chan c = Chan.reset := by
  simp [State.chan, State.resetWith]

theorem State.resetWith_stage (p : Params) (n : Nat) : (State.resetWith p).stage n = Stage.reset := by
  by_cases h : n < 6 <;> simp [State.stage, State.resetWith, h]

end Sys2Proof.Machine
end

