-- ==== Sys2Proof/Laws/Ops.lean ====
section
/-!
SUPPORT. What each shared operation can do, said once: the checks of a command, the whole of `command`, the choice of the port,
the parts of a step, and the fact that every command answers a next state.
-/

namespace Sys2Proof.Machine

/-! ### The checks -/

@[simp] theorem firstFailure_nil : firstFailure [] = none := rfl

@[simp] theorem firstFailure_cons_true (k : ErrCode) (l : List (Bool × ErrCode)) :
    firstFailure ((true, k) :: l) = some k := rfl

@[simp] theorem firstFailure_cons_false (k : ErrCode) (l : List (Bool × ErrCode)) :
    firstFailure ((false, k) :: l) = firstFailure l := rfl

theorem firstFailure_cons (b : Bool) (k : ErrCode) (l : List (Bool × ErrCode)) :
    firstFailure ((b, k) :: l) = if b = true then some k else firstFailure l := by cases b <;> rfl

theorem firstFailure_eq_none_iff (l : List (Bool × ErrCode)) :
    firstFailure l = none ↔ ∀ e ∈ l, e.1 = false := by
  induction l with
  | nil => simp
  | cons e rest ih =>
    obtain ⟨b, k⟩ := e
    cases b <;> simp [ih]

theorem commonChecks_none_iff (i : Instr) (s : State) (own : List (Bool × ErrCode)) :
    firstFailure (commonChecks i s ++ own) = none ↔
      portOk i.op.port s.port = true ∧ i.wellFormed = true ∧ modeOk i.op.when s = true ∧ firstFailure own = none := by
  simp only [commonChecks, List.cons_append, List.nil_append, firstFailure_cons, Bool.not_eq_true']
  cases portOk i.op.port s.port <;> cases i.wellFormed <;> cases modeOk i.op.when s <;> simp

/-! ### The common part of every command -/

theorem command_of_err {i : Instr} {s : State} (own : List (Bool × ErrCode)) (e : State) (h : s.err = true) :
    command i s own e = .next s := by simp [command, h]

/-- A command whose checks all pass has its effect. -/
theorem command_completes {i : Instr} {s : State} {own : List (Bool × ErrCode)} (e : State) (h : s.err = false)
    (hp : portOk i.op.port s.port = true) (hw : i.wellFormed = true) (hm : modeOk i.op.when s = true)
    (ho : firstFailure own = none) : command i s own e = .next e := by
  have := (commonChecks_none_iff i s own).2 ⟨hp, hw, hm, ho⟩
  simp [command, h, this]

/-- All that a command can do: nothing while `ERR` is set, the fault of its first failing check, or its effect. -/
theorem command_cases (i : Instr) (s : State) (own : List (Bool × ErrCode)) (e : State) :
    (s.err = true ∧ command i s own e = .next s) ∨
    (s.err = false ∧ ∃ k, firstFailure (commonChecks i s ++ own) = some k ∧
      command i s own e = .next (s.raise k i.header)) ∨
    (s.err = false ∧ portOk i.op.port s.port = true ∧ i.wellFormed = true ∧ modeOk i.op.when s = true ∧
      firstFailure own = none ∧ command i s own e = .next e) := by
  cases h : s.err with
  | true => exact .inl ⟨rfl, command_of_err own e h⟩
  | false =>
    cases hf : firstFailure (commonChecks i s ++ own) with
    | some k => exact .inr (.inl ⟨rfl, k, rfl, by simp [command, h, hf]⟩)
    | none =>
      obtain ⟨hp, hw, hm, ho⟩ := (commonChecks_none_iff i s own).1 hf
      exact .inr (.inr ⟨rfl, hp, hw, hm, ho, command_completes e h hp hw hm ho⟩)

theorem command_next (i : Instr) (s : State) (own : List (Bool × ErrCode)) (e : State) :
    ∃ t, command i s own e = .next t := by
  rcases command_cases i s own e with ⟨_, h⟩ | ⟨_, _, _, h⟩ | ⟨_, _, _, _, _, h⟩ <;> exact ⟨_, h⟩

/-- The same, read from the state it answers. -/
theorem command_inv {i : Instr} {s t : State} {own : List (Bool × ErrCode)} {e : State}
    (h : command i s own e = .next t) :
    (s.err = true ∧ t = s) ∨ (s.err = false ∧ ∃ k, t = s.raise k i.header) ∨
    (s.err = false ∧ portOk i.op.port s.port = true ∧ i.wellFormed = true ∧ modeOk i.op.when s = true ∧
      firstFailure own = none ∧ t = e) := by
  rcases command_cases i s own e with ⟨h1, h2⟩ | ⟨h1, k, _, h2⟩ | ⟨h1, h2, h3, h4, h5, h6⟩
  · rw [h2] at h; cases h; exact .inl ⟨h1, rfl⟩
  · rw [h2] at h; cases h; exact .inr (.inl ⟨h1, k, rfl⟩)
  · rw [h6] at h; cases h; exact .inr (.inr ⟨h1, h2, h3, h4, h5, rfl⟩)

/-- No command stops: it answers a next state, a fault of the block being one. -/
theorem exec_next (i : Instr) (s : State) : ∃ t, exec i s = .next t := by
  cases i
  case rdStat =>
    cases h : s.err with
    | true => exact ⟨s.emit s.port (statusWord s), by simp [exec, execRdStat, h]⟩
    | false =>
      obtain ⟨t, ht⟩ := command_next .rdStat s [] (s.emit s.port (statusWord s))
      exact ⟨t, by simpa [exec, execRdStat, h] using ht⟩
  all_goals
    simp only [exec, execNop, execCfgWr, execPrepare, execRun, execStop, execBlk, execRdLat, execPrWr, execRdPend,
      execBqWrc, execBqWrn, execBqCommit, execBqRstreq, execBqReset, execBqProc, execBqSnap, execBqRds, execRmsAcc,
      execRmsPush, execRmsGet, execRmsReset, execKnEval, execFoStep, execFoReset, execDyRun, execOsWrt, execOsUp,
      execOsWr, execOsDown, execOsReset]
    exact command_next _ _ _ _

/-! ### The words of a command, and a step -/

/-- What a pair of words that is no command does. -/
theorem rejectWords_cases (o : Option Op) (h : Header) (s : State) :
    (s.err = true ∧ rejectWords o h s = s) ∨
    (s.err = false ∧ o = none ∧ rejectWords o h s = s.raise .illegal h) ∨
    (s.err = false ∧ ∃ q, o = some q ∧ portOk q.port s.port = false ∧ rejectWords o h s = s.raise .port h) ∨
    (s.err = false ∧ ∃ q, o = some q ∧ portOk q.port s.port = true ∧ rejectWords o h s = s.raise .field h) := by
  cases he : s.err with
  | true => exact .inl ⟨rfl, by simp [rejectWords, he]⟩
  | false =>
    cases o with
    | none => exact .inr (.inl ⟨rfl, rfl, by simp [rejectWords, he]⟩)
    | some q =>
      cases hp : portOk q.port s.port with
      | false => exact .inr (.inr (.inl ⟨rfl, q, rfl, hp, by simp [rejectWords, he, hp]⟩))
      | true => exact .inr (.inr (.inr ⟨rfl, q, rfl, hp, by simp [rejectWords, he, hp]⟩))

theorem runWords_ok {k : Cmd} {i : Instr} (h : decode k = .ok i) (s : State) : runWords k s = exec i s := by
  simp [runWords, h]

/-- All that running a pair of words can do. -/
theorem runWords_cases (k : Cmd) (s : State) :
    (∃ i, decode k = .ok i ∧ runWords k s = exec i s) ∨
    (decode k = .illegal ∧ runWords k s = .next (rejectWords none k.h s)) ∨
    (∃ o, decode k = .reserved o ∧ runWords k s = .next (rejectWords (some o) k.h s)) := by
  cases h : decode k with
  | ok i => exact .inl ⟨i, rfl, runWords_ok h s⟩
  | illegal => exact .inr (.inl ⟨rfl, by simp [runWords, h]⟩)
  | reserved o => exact .inr (.inr ⟨o, rfl, by simp [runWords, h]⟩)

theorem runWords_next (k : Cmd) (s : State) : ∃ t, runWords k s = .next t := by
  rcases runWords_cases k s with ⟨i, _, h⟩ | ⟨_, h⟩ | ⟨_, _, h⟩
  · exact h ▸ exec_next i s
  · exact ⟨_, h⟩
  · exact ⟨_, h⟩

/-- A port that moves has a next command, and it is the one that runs. -/
theorem pick_some {s : State} {p : Port} {k : Cmd} (h : s.pick = some (p, k)) : s.nextCmd p = some k := by
  unfold State.pick at h
  cases ha : s.nextCmd .a <;> cases hc : s.nextCmd .c <;> simp only [ha, hc] at h
  · simp at h
  · simp at h; obtain ⟨rfl, rfl⟩ := h; exact hc
  · simp at h; obtain ⟨rfl, rfl⟩ := h; exact ha
  · cases hch : s.chosenPort <;> simp only [hch] at h <;> simp at h <;> obtain ⟨rfl, rfl⟩ := h
    · exact ha
    · exact hc

theorem pick_none_iff (s : State) : s.pick = none ↔ s.nextCmd .a = none ∧ s.nextCmd .c = none := by
  unfold State.pick
  cases ha : s.nextCmd .a <;> cases hc : s.nextCmd .c <;> simp
  cases s.chosenPort <;> simp

/-- All that a step can do: the hardware reset, one command of one port, or, where no port has one, the end. -/
theorem step_cases (s : State) :
    (s.resetDueNow = true ∧ step s = .next s.hardwareReset) ∨
    (s.resetDueNow = false ∧ s.pick = none ∧ step s = .fault .runOver) ∨
    (s.resetDueNow = false ∧ ∃ p k, s.pick = some (p, k) ∧ step s = runWords k (s.accept p)) := by
  unfold step commandStep
  cases s.resetDueNow with
  | true => exact .inl ⟨rfl, rfl⟩
  | false =>
    cases h : s.pick with
    | none => exact .inr (.inl ⟨rfl, rfl, rfl⟩)
    | some q => exact .inr (.inr ⟨rfl, q.1, q.2, rfl, rfl⟩)

/-- A property that the reset, the acceptance of a command, the faults and every instruction keep is kept by every
step. -/
theorem step_keeps (P : State → Prop) (hreset : ∀ s, P s → P s.hardwareReset) (haccept : ∀ s p, P s → P (s.accept p))
    (hraise : ∀ s k h, P s → P (s.raise k h)) (hexec : ∀ i s t, P s → exec i s = .next t → P t)
    {s t : State} (hs : P s) (h : step s = .next t) : P t := by
  rcases step_cases s with ⟨_, h'⟩ | ⟨_, _, h'⟩ | ⟨_, p, k, _, h'⟩
  · rw [h'] at h; cases h; exact hreset s hs
  · rw [h'] at h; cases h
  · rw [h'] at h
    have ha := haccept s p hs
    rcases runWords_cases k (s.accept p) with ⟨i, _, h2⟩ | ⟨_, h2⟩ | ⟨o, _, h2⟩
    · rw [h2] at h; exact hexec i _ t ha h
    · rw [h2] at h; cases h
      rcases rejectWords_cases none k.h (s.accept p) with ⟨_, e⟩ | ⟨_, _, e⟩ | ⟨_, q, _, _, e⟩ | ⟨_, q, _, _, e⟩ <;>
        rw [e] <;> first | exact ha | exact hraise _ _ _ ha
    · rw [h2] at h; cases h
      rcases rejectWords_cases (some o) k.h (s.accept p) with ⟨_, e⟩ | ⟨_, _, e⟩ | ⟨_, q, _, _, e⟩ | ⟨_, q, _, _, e⟩ <;>
        rw [e] <;> first | exact ha | exact hraise _ _ _ ha

end Sys2Proof.Machine
end

