-- ==== Sys2Proof/Laws/PerInstr.lean ====
section
/-!
SUPPORT. A statement about every command as encoded words, one lemma per constructor: its header agrees with the match and the
mask of its row (30_encoding.md R85).
-/

namespace Sys2Proof.Laws.HeaderMatch

/-- The header of a command is well-formed for its row: `H & mask = match` (R85). -/
def Statement (i : Instr) : Prop := i.header &&& i.op.mask = i.op.pattern

/-- A header under a mask, field by field. -/
theorem header_and (op op' : BitVec 8) (bnd bnd' chs chs' : BitVec 4) (idx idx' sub sub' : BitVec 8) :
    mkHeader op bnd chs idx sub &&& mkHeader op' bnd' chs' idx' sub' =
      mkHeader (op &&& op') (bnd &&& bnd') (chs &&& chs') (idx &&& idx') (sub &&& sub') := by
  unfold mkHeader
  apply BitVec.eq_of_getLsbD_eq
  intro i hi
  simp only [BitVec.getLsbD_and, BitVec.getLsbD_append]
  split <;> try rfl
  split <;> try rfl
  split <;> try rfl
  split <;> rfl

theorem nop : Statement .nop := by unfold Statement; decide

theorem cfgWr (bnd : BitVec 4) (chs : BitVec 4) (sub : BitVec 8) (d : Word) : Statement (.cfgWr bnd chs sub d) := by
  exact (congrArg _ (show Op.mask .cfgWr = mkHeader 0xFF 0x0 0x0 0xFF 0x0 by decide)).trans ((header_and ..).trans (by
    simp [Instr.fields, Instr.op, Op.code, Op.pattern, mkHeader]))

theorem prepare : Statement .prepare := by unfold Statement; decide

theorem run : Statement .run := by unfold Statement; decide

theorem stop : Statement .stop := by unfold Statement; decide

theorem blk (b : BitVec 4) : Statement (.blk b) := by
  exact (congrArg _ (show Op.mask .blk = mkHeader 0xFF 0x0 0xF 0xFF 0xFF by decide)).trans ((header_and ..).trans (by
    simp [Instr.fields, Instr.op, Op.code, Op.pattern, mkHeader]))

theorem rdStat : Statement .rdStat := by unfold Statement; decide

theorem rdLat : Statement .rdLat := by unfold Statement; decide

theorem prWr (b : BitVec 4) (sub : BitVec 8) (d : Word) : Statement (.prWr b sub d) := by
  exact (congrArg _ (show Op.mask .prWr = mkHeader 0xFF 0x0 0xF 0xFF 0x0 by decide)).trans ((header_and ..).trans (by
    simp [Instr.fields, Instr.op, Op.code, Op.pattern, mkHeader]))

theorem rdPend (b : BitVec 4) : Statement (.rdPend b) := by
  exact (congrArg _ (show Op.mask .rdPend = mkHeader 0xFF 0x0 0xF 0xFF 0xFF by decide)).trans ((header_and ..).trans (by
    simp [Instr.fields, Instr.op, Op.code, Op.pattern, mkHeader]))

theorem bqWrc (b : BitVec 4) (idx : BitVec 8) (sub : BitVec 8) (d : Word) : Statement (.bqWrc b idx sub d) := by
  exact (congrArg _ (show Op.mask .bqWrc = mkHeader 0xFF 0x0 0xF 0x0 0x0 by decide)).trans ((header_and ..).trans (by
    simp [Instr.fields, Instr.op, Op.code, Op.pattern, mkHeader]))

theorem bqWrn (b : BitVec 4) (d : Word) : Statement (.bqWrn b d) := by
  exact (congrArg _ (show Op.mask .bqWrn = mkHeader 0xFF 0x0 0xF 0xFF 0xFF by decide)).trans ((header_and ..).trans (by
    simp [Instr.fields, Instr.op, Op.code, Op.pattern, mkHeader]))

theorem bqCommit (b : BitVec 4) (r : Bool) : Statement (.bqCommit b r) := by
  cases r <;>
    exact (congrArg _ (show Op.mask .bqCommit = mkHeader 0xFF 0x0 0xF 0xFF 0xFE by decide)).trans ((header_and ..).trans (by
      simp [Instr.fields, Instr.op, Op.code, Op.pattern, mkHeader]))

theorem bqRstreq (b : BitVec 4) : Statement (.bqRstreq b) := by
  exact (congrArg _ (show Op.mask .bqRstreq = mkHeader 0xFF 0x0 0xF 0xFF 0xFF by decide)).trans ((header_and ..).trans (by
    simp [Instr.fields, Instr.op, Op.code, Op.pattern, mkHeader]))

theorem bqReset (b : BitVec 4) : Statement (.bqReset b) := by
  exact (congrArg _ (show Op.mask .bqReset = mkHeader 0xFF 0x0 0xF 0xFF 0xFF by decide)).trans ((header_and ..).trans (by
    simp [Instr.fields, Instr.op, Op.code, Op.pattern, mkHeader]))

theorem bqProc (b : BitVec 4) (c : BitVec 4) (d : Word) : Statement (.bqProc b c d) := by
  exact (congrArg _ (show Op.mask .bqProc = mkHeader 0xFF 0x0 0x0 0xFF 0xFF by decide)).trans ((header_and ..).trans (by
    simp [Instr.fields, Instr.op, Op.code, Op.pattern, mkHeader]))

theorem bqSnap (b : BitVec 4) : Statement (.bqSnap b) := by
  exact (congrArg _ (show Op.mask .bqSnap = mkHeader 0xFF 0x0 0xF 0xFF 0xFF by decide)).trans ((header_and ..).trans (by
    simp [Instr.fields, Instr.op, Op.code, Op.pattern, mkHeader]))

theorem bqRds (b : BitVec 4) (idx : BitVec 8) (sub : BitVec 8) : Statement (.bqRds b idx sub) := by
  exact (congrArg _ (show Op.mask .bqRds = mkHeader 0xFF 0x0 0xF 0x0 0x0 by decide)).trans ((header_and ..).trans (by
    simp [Instr.fields, Instr.op, Op.code, Op.pattern, mkHeader]))

theorem rmsAcc (b : BitVec 4) (d : Word) : Statement (.rmsAcc b d) := by
  exact (congrArg _ (show Op.mask .rmsAcc = mkHeader 0xFF 0x0 0xF 0xFF 0xFF by decide)).trans ((header_and ..).trans (by
    simp [Instr.fields, Instr.op, Op.code, Op.pattern, mkHeader]))

theorem rmsPush (b : BitVec 4) : Statement (.rmsPush b) := by
  exact (congrArg _ (show Op.mask .rmsPush = mkHeader 0xFF 0x0 0xF 0xFF 0xFF by decide)).trans ((header_and ..).trans (by
    simp [Instr.fields, Instr.op, Op.code, Op.pattern, mkHeader]))

theorem rmsGet (b : BitVec 4) : Statement (.rmsGet b) := by
  exact (congrArg _ (show Op.mask .rmsGet = mkHeader 0xFF 0x0 0xF 0xFF 0xFF by decide)).trans ((header_and ..).trans (by
    simp [Instr.fields, Instr.op, Op.code, Op.pattern, mkHeader]))

theorem rmsReset (b : BitVec 4) : Statement (.rmsReset b) := by
  exact (congrArg _ (show Op.mask .rmsReset = mkHeader 0xFF 0x0 0xF 0xFF 0xFF by decide)).trans ((header_and ..).trans (by
    simp [Instr.fields, Instr.op, Op.code, Op.pattern, mkHeader]))

theorem knEval (b : BitVec 4) (d : Word) : Statement (.knEval b d) := by
  exact (congrArg _ (show Op.mask .knEval = mkHeader 0xFF 0x0 0xF 0xFF 0xFF by decide)).trans ((header_and ..).trans (by
    simp [Instr.fields, Instr.op, Op.code, Op.pattern, mkHeader]))

theorem foStep (b : BitVec 4) (d : Word) : Statement (.foStep b d) := by
  exact (congrArg _ (show Op.mask .foStep = mkHeader 0xFF 0x0 0xF 0xFF 0xFF by decide)).trans ((header_and ..).trans (by
    simp [Instr.fields, Instr.op, Op.code, Op.pattern, mkHeader]))

theorem foReset (b : BitVec 4) : Statement (.foReset b) := by
  exact (congrArg _ (show Op.mask .foReset = mkHeader 0xFF 0x0 0xF 0xFF 0xFF by decide)).trans ((header_and ..).trans (by
    simp [Instr.fields, Instr.op, Op.code, Op.pattern, mkHeader]))

theorem dyRun (b : BitVec 4) : Statement (.dyRun b) := by
  exact (congrArg _ (show Op.mask .dyRun = mkHeader 0xFF 0x0 0xF 0xFF 0xFF by decide)).trans ((header_and ..).trans (by
    simp [Instr.fields, Instr.op, Op.code, Op.pattern, mkHeader]))

theorem osWrt (st : BitVec 4) (idx : BitVec 8) (sub : BitVec 8) (d : Word) : Statement (.osWrt st idx sub d) := by
  exact (congrArg _ (show Op.mask .osWrt = mkHeader 0xFF 0xF 0x0 0x0 0x0 by decide)).trans ((header_and ..).trans (by
    simp [Instr.fields, Instr.op, Op.code, Op.pattern, mkHeader]))

theorem osUp (c : BitVec 4) (d : Word) : Statement (.osUp c d) := by
  exact (congrArg _ (show Op.mask .osUp = mkHeader 0xFF 0xF 0x0 0xFF 0xFF by decide)).trans ((header_and ..).trans (by
    simp [Instr.fields, Instr.op, Op.code, Op.pattern, mkHeader]))

theorem osWr (c : BitVec 4) (d : Word) : Statement (.osWr c d) := by
  exact (congrArg _ (show Op.mask .osWr = mkHeader 0xFF 0xF 0x0 0xFF 0xFF by decide)).trans ((header_and ..).trans (by
    simp [Instr.fields, Instr.op, Op.code, Op.pattern, mkHeader]))

theorem osDown (c : BitVec 4) : Statement (.osDown c) := by
  exact (congrArg _ (show Op.mask .osDown = mkHeader 0xFF 0xF 0x0 0xFF 0xFF by decide)).trans ((header_and ..).trans (by
    simp [Instr.fields, Instr.op, Op.code, Op.pattern, mkHeader]))

theorem osReset : Statement .osReset := by unfold Statement; decide

end Sys2Proof.Laws.HeaderMatch
end

