-- ==== Sys2Proof/Laws/Units.lean ====
section
/-!
SUPPORT. What the shared operations of the units can do, said once: operand and result words, comparisons, the section chain of a
band, the sequences of the oversampler, the block boundary, and the index spaces after reset.
-/

namespace Sys2Proof.Machine

/-! ### Words of the format -/

theorem two_pow_width_le (f : Fmt) : 2 ^ width f ≤ 2 ^ 64 := by cases f <;> decide

theorem toFormat_toNat (f : Fmt) (w : Word) : (toFormat f w).toNat = w.toNat % 2 ^ width f := by
  have h := two_pow_width_le f
  have h1 : w.toNat % 2 ^ width f < 2 ^ width f := Nat.mod_lt _ (by positivity)
  rw [toFormat, BitVec.toNat_ofNat]
  exact Nat.mod_eq_of_lt (by omega)

@[simp] theorem toFormat_toFormat (f : Fmt) (w : Word) : toFormat f (toFormat f w) = toFormat f w := by
  apply BitVec.eq_of_toNat_eq
  rw [toFormat_toNat, toFormat_toNat, Nat.mod_mod]

@[simp] theorem resultWord_sampleOperand (f : Fmt) (d : Word) : resultWord f (sampleOperand f d) = sampleOperand f d :=
  toFormat_toFormat f d

@[simp] theorem toFormat_binary64 (w : Word) : toFormat .binary64 w = w := by
  apply BitVec.eq_of_toNat_eq
  rw [toFormat_toNat]
  exact Nat.mod_eq_of_lt w.isLt

/-! ### Comparisons (00_scope.md R10) -/

theorem flt_iff (f : Fmt) (a b : Word) :
    flt f a b = true ↔ isNaN f a = false ∧ isNaN f b = false ∧ orderKey f a < orderKey f b := by
  simp [flt, and_assoc]

theorem fle_iff (f : Fmt) (a b : Word) :
    fle f a b = true ↔ isNaN f a = false ∧ isNaN f b = false ∧ orderKey f a ≤ orderKey f b := by
  simp [fle, and_assoc]

theorem fle_self {f : Fmt} {a : Word} (h : isNaN f a = false) : fle f a a = true := by simp [fle, h]

theorem fle_of_flt {f : Fmt} {a b : Word} (h : flt f a b = true) : fle f a b = true := by
  rw [flt_iff] at h
  exact (fle_iff ..).2 ⟨h.1, h.2.1, h.2.2.le⟩

theorem fle_of_not_flt {f : Fmt} {a b : Word} (ha : isNaN f a = false) (hb : isNaN f b = false)
    (h : flt f a b = false) : fle f b a = true := by
  rw [fle_iff]
  refine ⟨hb, ha, ?_⟩
  by_contra hc
  exact absurd ((flt_iff ..).2 ⟨ha, hb, by omega⟩) (by simp [h])

theorem isNaN_of_isFinite {f : Fmt} {a : Word} (h : isFinite f a = true) : isNaN f a = false := by
  simp only [isFinite, isNaN, decide_eq_true_eq, decide_eq_false_iff_not] at *
  omega

/-! ### The sections of a band (41_biquad_cascade.md R126) -/

/-- What `runSections` can do: a chain of samples from the input to the output, each active section's two state
variables written with what the section answers on their old values, every other element left. -/
theorem runSections_spec (u : Fpu) (x : Band) (c : BitVec 4) (w : Word) (n : Nat) :
    ∃ v : Nat → Word, v 0 = w ∧ (runSections u x c n (w, x.st)).1 = v n
      ∧ (∀ m < n, ∃ (u' : Fpu) (o : SectionOut), u'.fmt = u.fmt
          ∧ o = (match x.topo with
              | .tdf2 => tdf2Section u' (coeffsAt x.actC m) (x.st.read (stIndex c m)) (x.st.read (stIndex c m + 1)) (v m)
              | .svf => svfSection u' (svfAt x.actV m) (x.st.read (stIndex c m)) (x.st.read (stIndex c m + 1)) (v m))
          ∧ v (m + 1) = o.y ∧ (runSections u x c n (w, x.st)).2.read (stIndex c m) = o.n0
          ∧ (runSections u x c n (w, x.st)).2.read (stIndex c m + 1) = o.n1)
      ∧ ∀ j : Nat, (∀ m i : Nat, m < n → i < 2 → j ≠ stIndex c m + i) →
          (runSections u x c n (w, x.st)).2.read j = x.st.read j := by
  induction n with
  | zero => exact ⟨fun _ => w, rfl, rfl, by simp, by simp [runSections]⟩
  | succ n ih =>
    obtain ⟨v, h0, h1, h2, h3⟩ := ih
    generalize hq : runSections u x c n (w, x.st) = q at h1 h2 h3
    have r0 : q.2.read (stIndex c n) = x.st.read (stIndex c n) :=
      h3 _ (by intro m i hm hi; simp only [stIndex]; omega)
    have r1 : q.2.read (stIndex c n + 1) = x.st.read (stIndex c n + 1) :=
      h3 _ (by intro m i hm hi; simp only [stIndex]; omega)
    have e : runSections u x c (n + 1) (w, x.st) = runSection u x c n q.2 q.1 := by simp [runSections, hq]
    refine ⟨fun m => if m ≤ n then v m else (runSection u x c n q.2 q.1).1, by simpa using h0, by simp [e], ?_, ?_⟩
    · intro m hm
      rw [e]
      by_cases hmn : m = n
      · subst hmn
        refine ⟨u.at m, _, rfl, rfl, ?_⟩
        simp only [le_refl, if_true, show ¬ m + 1 ≤ m by omega, if_false]
        rw [← h1]
        unfold runSection
        simp only [r0, r1]
        refine ⟨by trivial, ?_, ?_⟩ <;> cases x.topo <;> simp [Bank.writeList, Bank.read_write]
      · obtain ⟨u', o, a, b, c1, c2, c3⟩ := h2 m (by omega)
        refine ⟨u', o, a, ?_, ?_, ?_, ?_⟩
        · simpa [show m ≤ n by omega] using b
        · simpa [show m + 1 ≤ n by omega] using c1
        · rw [← c2]
          simp only [runSection, Bank.writeList, Bank.read_write, stIndex]
          rw [if_neg (by omega), if_neg (by omega)]
        · rw [← c3]
          simp only [runSection, Bank.writeList, Bank.read_write, stIndex]
          rw [if_neg (by omega), if_neg (by omega)]
    · intro j hj
      rw [e]
      have a0 := hj n 0 (by omega) (by omega)
      have a1 := hj n 1 (by omega) (by omega)
      rw [← h3 j (fun m i hm hi => hj m i (by omega) hi)]
      simp only [runSection, Bank.writeList, Bank.read_write]
      rw [if_neg a1, if_neg (by simpa using a0)]

/-! ### The oversampler's sequences (46_oversampler.md R205, R206) -/

theorem runUp_spec (u : Fpu) (g : Stage) (l : Bank) (vs : List Word) :
    UpRun u.fmt g l vs (runUp u g l vs).1 (runUp u g l vs).2 := by
  induction vs generalizing l with
  | nil => exact ⟨rfl, rfl⟩
  | cons v rest ih => exact ⟨u.at rest.length, _, rfl, rfl, ih _⟩

theorem runUp_length (u : Fpu) (g : Stage) (l : Bank) (vs : List Word) :
    (runUp u g l vs).2.length = 2 * vs.length := by
  induction vs generalizing l with
  | nil => rfl
  | cons v rest ih => simp only [runUp, List.length_cons, ih]; omega

theorem cascadeUp_length (u : Fpu) (s : State) (n : Nat) (p : Vector Bank 6 × List Word) :
    (cascadeUp u s n p).2.length = 2 ^ n * p.2.length := by
  induction n with
  | zero => simp [cascadeUp]
  | succ n ih => simp only [cascadeUp, runUp_length, ih, Nat.pow_succ]; ring

/-! ### The block boundary (40_system.md R106) -/

/-- What the block boundary can do to its band, whatever is pending: the flags are clear, and nothing else changes but the
section state, the active parameters, the knee cache, the tracker and the active banks; each of these groups only where
its own flag asks for it. -/
theorem blockBoundary_frame (u : Fpu) (x : Band) :
    let y := blockBoundary u x
    y = { x with
        parPend := false, rstPend := false, updPend := false, st := y.st,
        active := y.active, knee := y.knee, rmsW := y.rmsW, rmsTot := y.rmsTot, rmsAcc := y.rmsAcc,
        rmsPos := y.rmsPos, rmsBuf := y.rmsBuf, actN := y.actN, actC := y.actC, actV := y.actV }
    ∧ (x.parPend = false → y.active = x.active ∧ y.knee = x.knee ∧ y.rmsW = x.rmsW ∧ y.rmsTot = x.rmsTot
        ∧ y.rmsAcc = x.rmsAcc ∧ y.rmsPos = x.rmsPos ∧ y.rmsBuf = x.rmsBuf)
    ∧ (x.updPend = false → y.actN = x.actN ∧ y.actC = x.actC ∧ y.actV = x.actV)
    ∧ (resetDue x = true → y.st = []) ∧ (resetDue x = false → y.st = x.st) := by
  cases hp : x.parPend <;> cases hr : x.rstPend <;> cases hu : x.updPend <;> by_cases hn : x.stgN = x.actN <;>
    by_cases hw : x.stgWn = x.rmsW <;> rcases x with ⟨⟩ <;>
    simp_all [blockBoundary, blockParams, blockReset, blockActivate, activate, resetDue, applyParams, rmsResize, rmsClear,
      resetCascade]

/-! ### After reset (10_state.md R42) -/

@[simp] theorem Bank.wf_nil (size : Nat) : Bank.wf size [] = true := rfl

theorem Band.reset_stored (p : Params) : (Band.reset p).Stored := ⟨rfl, rfl, rfl, rfl, rfl, rfl⟩

theorem Stage.reset_stored (p : Params) : Stage.reset.Stored p := ⟨rfl, rfl⟩

theorem Chan.reset_stored (p : Params) : Chan.reset.Stored p := by
  intro n hn
  simp [Chan.reset, lineAt, hn]

theorem State.resetWith_stored (p : Params) : (State.resetWith p).Stored :=
  ⟨fun b => by rw [State.resetWith_band]; exact Band.reset_stored p,
   fun n _ => by rw [State.resetWith_stage]; exact Stage.reset_stored _,
   fun c => by rw [State.resetWith_chan]; exact Chan.reset_stored _⟩

end Sys2Proof.Machine
end

