-- ==== Sys2Proof/Machine/Assembler.lean ====
section
/-!
DEFINITION. The pseudo-commands (30_encoding.md R89) and the assembler syntax (R88).
-/

namespace Sys2Proof.Machine

/-! ### Pseudo-commands: fixed expansions, not atomic (R89) -/

/-- `BQ.LOAD b, s, v0, v1, v2, v3, v4`. -/
def pseudoBqLoad (b : BitVec 4) (sec : BitVec 8) (v0 v1 v2 v3 v4 : Word) : List Instr :=
  [.bqWrc b sec 0 v0, .bqWrc b sec 1 v1, .bqWrc b sec 2 v2, .bqWrc b sec 3 v3, .bqWrc b sec 4 v4]

/-- `BQ.PUBLISH b, n` and, with `r`, `BQ.PUBLISH b, n, R`. -/
def pseudoBqPublish (b : BitVec 4) (n : Word) (r : Bool) : List Instr := [.bqWrn b n, .bqCommit b r]

/-- The tap writes of `OS.TAPS`, from tap `k` on; `sub` is the path selector. -/
def tapWrites (st : BitVec 4) (sub : BitVec 8) : Nat → List Word → List Instr
  | _, [] => []
  | k, v :: rest => .osWrt st (BitVec.ofNat 8 k) sub v :: tapWrites st sub (k + 1) rest

/-- `OS.TAPS s, U, vc, t0, ...` (`up`) and `OS.TAPS s, D, vc, t0, ...`. -/
def pseudoOsTaps (st : BitVec 4) (up : Bool) (vc : Word) (taps : List Word) : List Instr :=
  .cfgWr 0 st (if up then 4 else 5) (BitVec.ofNat 64 taps.length)
    :: .osWrt st 0 (if up then 2 else 3) vc :: tapWrites st (if up then 0 else 1) 0 taps

/-- `RMS.SAMPLE b, x`. -/
def pseudoRmsSample (b : BitVec 4) (x : Word) : List Instr := [.rmsAcc b x, .rmsPush b]

/-- `OS.DOWNN c, v0, ..., v(n-1)`. -/
def pseudoOsDownN (c : BitVec 4) (vs : List Word) : List Instr := vs.map (.osWr c) ++ [.osDown c]

/-! ### The printer (R88): operands in the order of R88; a sample or parameter operand is printed as its bits -/

/-- A hexadecimal digit. -/
def hexDigit (n : Nat) : String := ("0123456789ABCDEF".toList.map fun c => c.toString).getD n "0"

/-- The lowest `k` hexadecimal digits of `n`, the most significant first. -/
def hexDigits (n : Nat) : Nat → String
  | 0 => ""
  | k + 1 => hexDigits (n / 16) k ++ hexDigit (n % 16)

/-- A data operand by its bits. -/
def showBits (d : Word) : String := "bits:0x" ++ hexDigits d.toNat 16

/-- The name of a table entry, or the number where the table has none. -/
def showName (names : List String) (n : Nat) : String := names.getD n (toString n)

/-- The name of a configuration register with its index. -/
def showCfg (bnd chs : BitVec 4) (sub : BitVec 8) : String :=
  match sub.toNat with
  | 0 => "NCH"
  | 1 => "S"
  | 2 => "MAXBLK"
  | 3 => "TOPO[" ++ toString bnd.toNat ++ "]"
  | 4 => "KU[" ++ toString chs.toNat ++ "]"
  | 5 => "KD[" ++ toString chs.toNat ++ "]"
  | n => toString n

/-- A mnemonic and its operands. -/
def showLine (o : Op) (operands : List String) : String :=
  match operands with
  | [] => o.mnemonic
  | _ => o.mnemonic ++ " " ++ ", ".intercalate operands

/-- The operands of a command, in the order of R88. -/
def asmOperands : Instr → List String
  | .nop | .prepare | .run | .stop | .rdStat | .rdLat | .osReset => []
  | .cfgWr bnd chs sub d => [showCfg bnd chs sub, toString d.toNat]
  | .blk b | .rdPend b | .bqRstreq b | .bqReset b | .bqSnap b => [toString b.toNat]
  | .rmsPush b | .rmsGet b | .rmsReset b | .foReset b | .dyRun b => [toString b.toNat]
  | .prWr b sub d =>
    [toString b.toNat, showName ["T", "R", "W", "C", "RA", "RR", "SA", "SR", "PH", "BYP", "WN"] sub.toNat,
     if sub.toNat ≤ 5 then showBits d else toString d.toNat]
  | .bqWrc b idx sub d =>
    [toString b.toNat, toString idx.toNat, showName ["b0", "b1", "b2", "a1", "a2"] sub.toNat, showBits d]
  | .bqWrn b d => [toString b.toNat, toString d.toNat]
  | .bqCommit b r => if r then [toString b.toNat, "R"] else [toString b.toNat]
  | .bqProc b c d => [toString b.toNat, toString c.toNat, showBits d]
  | .bqRds b idx sub =>
    [toString b.toNat, toString idx.toNat, showName ["b0", "b1", "b2", "a1", "a2", "N"] sub.toNat]
  | .rmsAcc b d | .knEval b d | .foStep b d => [toString b.toNat, showBits d]
  | .osWrt st idx sub d =>
    if sub.toNat ≤ 1 then
      [toString st.toNat, showName ["TU", "TD"] sub.toNat, toString idx.toNat, showBits d]
    else [toString st.toNat, showName ["TU", "TD", "CU", "CD"] sub.toNat, showBits d]
  | .osUp c d | .osWr c d => [toString c.toNat, showBits d]
  | .osDown c => [toString c.toNat]

/-- A command as a line of the assembler syntax (R88). -/
def showInstr (i : Instr) : String := showLine i.op (asmOperands i)

/-- The same with the prefix that says which port carries it (R88). -/
def showOnPort (p : Port) (i : Instr) : String :=
  (match p with
    | .a => "A: "
    | .c => "C: ") ++ showInstr i

end Sys2Proof.Machine
end

