-- ==== Sys2Proof/Tests/Slice0.lean ====
section
/-!
SUPPORT. The model's own tests: ill-formed commands, one decoded word per command, single steps against the spec's examples and
test vectors (95_test_vectors.md V<n>), and for every statement with hypotheses a state and operands that meet them.
-/

namespace Sys2Proof.Tests

open Sys2Proof.Machine

/-! ### Ill-formed commands: one for each check of WellFormed -/

theorem test_ill_formed_cfg_band : (Instr.cfgWr 1 0 9 0).wellFormed = false := by decide

theorem test_ill_formed_cfg_stage : (Instr.cfgWr 0 1 3 0).wellFormed = false := by decide

theorem test_ill_formed_tap_index : (Instr.osWrt 0 1 2 0).wellFormed = false := by decide

theorem test_ill_formed_snap_index : (Instr.bqRds 0 1 5).wellFormed = false := by decide

/-! ### Decoding: one word per command, written out from the encoding (30_encoding.md R81, R84; the rules' examples) -/

theorem test_decode_nop : decode { h := 0x00000000, d := 0 } = .ok .nop := by decide

/-- `CFG.WR KD[2], 7`: `chs` = 2, `sub` = 5. -/
theorem test_decode_cfgWr : decode { h := 0x01020005, d := 7 } = .ok (.cfgWr 0 2 5 7) := by decide

theorem test_decode_prepare : decode { h := 0x02000000, d := 0 } = .ok .prepare := by decide

theorem test_decode_run : decode { h := 0x03000000, d := 0 } = .ok .run := by decide

theorem test_decode_stop : decode { h := 0x04000000, d := 0 } = .ok .stop := by decide

theorem test_decode_blk : decode { h := 0x05100000, d := 0 } = .ok (.blk 1) := by decide

theorem test_decode_rdStat : decode { h := 0x06000000, d := 0 } = .ok .rdStat := by decide

theorem test_decode_rdLat : decode { h := 0x07000000, d := 0 } = .ok .rdLat := by decide

theorem test_decode_prWr :
    decode { h := 0x08000001, d := 0x4010000000000000 } = .ok (.prWr 0 1 0x4010000000000000) := by decide

theorem test_decode_rdPend : decode { h := 0x09F00000, d := 0 } = .ok (.rdPend 15) := by decide

theorem test_decode_bqWrc :
    decode { h := 0x10000103, d := 0xBFE0000000000000 } = .ok (.bqWrc 0 1 3 0xBFE0000000000000) := by decide

theorem test_decode_bqWrn : decode { h := 0x11000000, d := 2 } = .ok (.bqWrn 0 2) := by decide

theorem test_decode_bqCommit : decode { h := 0x12200001, d := 0 } = .ok (.bqCommit 2 true) := by decide

theorem test_decode_bqRstreq : decode { h := 0x13000000, d := 0 } = .ok (.bqRstreq 0) := by decide

theorem test_decode_bqReset : decode { h := 0x14300000, d := 0 } = .ok (.bqReset 3) := by decide

theorem test_decode_bqProc :
    decode { h := 0x15210000, d := 0x3FF0000000000000 } = .ok (.bqProc 2 1 0x3FF0000000000000) := by decide

theorem test_decode_bqSnap : decode { h := 0x16000000, d := 0 } = .ok (.bqSnap 0) := by decide

theorem test_decode_bqRds : decode { h := 0x17000005, d := 0 } = .ok (.bqRds 0 0 5) := by decide

theorem test_decode_rmsAcc : decode { h := 0x20000000, d := 0x3F000000 } = .ok (.rmsAcc 0 0x3F000000) := by decide

theorem test_decode_rmsPush : decode { h := 0x21400000, d := 0 } = .ok (.rmsPush 4) := by decide

theorem test_decode_rmsGet : decode { h := 0x22500000, d := 0 } = .ok (.rmsGet 5) := by decide

theorem test_decode_rmsReset : decode { h := 0x23600000, d := 0 } = .ok (.rmsReset 6) := by decide

theorem test_decode_knEval : decode { h := 0x30000000, d := 0xC1A00000 } = .ok (.knEval 0 0xC1A00000) := by decide

theorem test_decode_foStep :
    decode { h := 0x40000000, d := 0x3FF0000000000000 } = .ok (.foStep 0 0x3FF0000000000000) := by decide

theorem test_decode_foReset : decode { h := 0x41000000, d := 0 } = .ok (.foReset 0) := by decide

theorem test_decode_dyRun : decode { h := 0x50700000, d := 0 } = .ok (.dyRun 7) := by decide

/-- `OS.WRT 1, TD, 63, 0.5`: `chs` = 1, `idx` = 63, `sub` = 1. -/
theorem test_decode_osWrt :
    decode { h := 0x60013F01, d := 0x3FE0000000000000 } = .ok (.osWrt 1 63 1 0x3FE0000000000000) := by decide

theorem test_decode_osUp : decode { h := 0x610F0000, d := 0x3F800000 } = .ok (.osUp 15 0x3F800000) := by decide

theorem test_decode_osWr :
    decode { h := 0x62000000, d := 0x3FE0000000000000 } = .ok (.osWr 0 0x3FE0000000000000) := by decide

theorem test_decode_osDown : decode { h := 0x63080000, d := 0 } = .ok (.osDown 8) := by decide

theorem test_decode_osReset : decode { h := 0x64000000, d := 0 } = .ok .osReset := by decide

/-- R86: the first unassigned opcodes of two gaps, a set unused field, an operand where there is none. -/
theorem test_decode_refuses :
    decode { h := 0x0A000000, d := 0 } = .illegal ∧ decode { h := 0x65000000, d := 0 } = .illegal
      ∧ decode { h := 0x05000100, d := 0 } = .reserved .blk ∧ decode { h := 0, d := 1 } = .reserved .nop
      ∧ decode { h := 0x12000002, d := 0 } = .reserved .bqCommit := by decide

/-- The bits of a table word: the operand begins at bit 32. -/
theorem test_table_word : decodeTableWord 96 0x0000000000000002_01000001 = some (.cfgWr 0 0 1 2) := by decide

/-- R61: the bytes of `BQ.WRC 0, 1, a1, -0.5`, each word little-endian, the header first. -/
theorem test_command_bytes : (Cmd.toBytes { h := 0x10000103, d := 0xBFE0000000000000 }) =
    [0x03, 0x01, 0x00, 0x10, 0, 0, 0, 0, 0, 0, 0xE0, 0xBF] := by decide

/-! ### States of the tests -/

/-- The state an outcome goes on with. -/
def nextOf : Host.Outcome State Fault Refusal → Option State
  | .next s => some s
  | .fault _ => none
  | .refused _ => none

/-- Reset, prepared and running; the command comes on port A. -/
def audio : State := { State.reset with prepared := true, running := true }

/-- The same in binary32. -/
def audio32 : State := { State.resetWith (defaultParams .binary32) with prepared := true, running := true }

/-- Reset; the command comes on port C. -/
def control : State := { State.reset with port := .c }

/-- Running; the command comes on port C. -/
def controlRunning : State := { audio with port := .c }

/-- Band 0 changed. -/
def onBand (s : State) (f : Band → Band) : State := s.setBand 0 (f (s.band 0))

/-- A fault is recorded. -/
def failed : State := { State.reset with err := true, errCode := 1, errCmd := 0x0A000000 }

/-- Section S0 of 95_test_vectors.md: 0.25, 0.5, 0.25, -0.5, 0.25. -/
def s0 : Bank :=
  [(0, 0x3FD0000000000000), (1, 0x3FE0000000000000), (2, 0x3FD0000000000000), (3, 0xBFE0000000000000),
   (4, 0x3FD0000000000000)]

/-- Knee K1 of 95_test_vectors.md: -20, 4, 6, 0. -/
def k1 : DynParams :=
  { DynParams.reset (defaultParams .binary64) with
    t := 0xC034000000000000, r := 0x4010000000000000, w := 0x4018000000000000 }

/-- The cache of K1 (V30). -/
def k1Cache : Knee where
  lo := 0xC03A000000000000
  hi := 0xC02C000000000000
  sl := 0x3FD0000000000000
  qa := 0xBFA0000000000000
  yh := 0xC032800000000000
  ab := 0
  sg := false

/-! ### Single steps against the spec's examples -/

/-- R107: "after `PREPARE` and `RUN` it returns 3". -/
theorem test_rdStat_running : (nextOf (exec .rdStat audio)).map State.respA = some [3] := by decide

/-- V4: after a fault `RD.STAT` still answers. -/
theorem test_rdStat_failed : (nextOf (exec .rdStat failed)).map State.respA = some [0x0A00000000000104] := by decide

/-- V1: `CFG.WR NCH, 1` clears `PREPARED`. -/
theorem test_cfgWr_clears_prepared :
    (nextOf (exec (.cfgWr 0 0 0 1) { control with prepared := true })).map State.prepared = some false := by decide

/-- V2 h: `CFG.WR S, 7` is `VALUE`. -/
theorem test_cfgWr_value :
    (nextOf (exec (.cfgWr 0 0 1 7) control)).map statusWord = some 0x0100000100010604 := by decide

/-- V3: `MODE` before `INDEX`. -/
theorem test_cfgWr_mode_first :
    (nextOf (runWords { h := 0x01000009, d := 0 } controlRunning)).map statusWord = some 0x0100000900010407 := by
  decide

/-- V2 j: `RUN` needs `PREPARE`. -/
theorem test_run_unprepared : (nextOf (exec .run control)).map statusWord = some 0x0300000000010404 := by decide

/-- V7: `KU = KD = [2, 1]`, two stages. -/
theorem test_rdLat :
    (nextOf (exec .rdLat { (control.setStage 0 { Stage.reset with ku := 2, kd := 2 }) with cfgS := 2 })).map State.respC
      = some [0x0100000000000007] := by decide

/-- V6: after `BQ.COMMIT 0, R` the flags read 3. -/
theorem test_rdPend : ((nextOf (exec (.bqCommit 0 true) control)).bind fun s => nextOf (exec (.rdPend 0) s)).map State.respC
    = some [3] := by decide

/-- V5: the ratio 0.5 is raised to 1. -/
theorem test_prWr_ratio : (nextOf (exec (.prWr 0 1 0x3FE0000000000000) control)).map (fun s => (s.band 0).staged.r)
    = some 0x3FF0000000000000 := by decide

/-- V5: `PR.WR 0, R, 1e300` is `VALUE` in binary32, infinite after narrowing. -/
theorem test_prWr_narrow : (nextOf (exec (.prWr 0 1 0x7E37E43C8800759C) { audio32 with port := .c })).map State.errCode
    = some 6 := by decide

/-- V30: `BLK` derives the cache of K1. -/
theorem test_blk_cache :
    (nextOf (exec (.blk 0) (onBand audio fun x => { x with staged := k1, parPend := true }))).map
      (fun s => (s.band 0).knee) = some k1Cache := by decide

/-- V17 c: the section count changes, so the section state is cleared. -/
theorem test_blk_count_change :
    (nextOf (exec (.blk 0) (onBand audio fun x =>
        { x with st := [(0, 0x3FE4000000000000)], actN := 1, stgN := 2, updPend := true }))).map
      (fun s => ((s.band 0).st, (s.band 0).actN)) = some ([], 2) := by decide

/-- V11: the SVF parameters of S0. -/
theorem test_blk_svf :
    (nextOf (exec (.blk 0) (onBand audio fun x => { x with stgC := s0, stgN := 1, updPend := true }))).map
      (fun s => svfAt (s.band 0).actV 0)
    = some { g := 0x3FE4F2EC413CB52A, r2 := 0x3FF4F2EC413CB52B, h := 0x3FDC000000000000, chp := 0, cbp := 0,
             clp := 0x3FF5555555555555 } := by decide +kernel

/-- V2 k: a staging write while an update is pending is `BUSY`. -/
theorem test_bqWrc_busy :
    (nextOf (exec (.bqWrc 0 0 0 0) (onBand control fun x => { x with updPend := true }))).map statusWord
      = some 0x1000000000010704 := by decide

/-- V2 l: 9 sections are `VALUE`. -/
theorem test_bqWrn_value : (nextOf (exec (.bqWrn 0 9) control)).map statusWord = some 0x1100000000010604 := by decide

/-- R127's example: the output 0.25 and the state 0.625, 0.1875. -/
theorem test_bqProc_tdf2 :
    (nextOf (exec (.bqProc 0 0 0x3FF0000000000000) (onBand audio fun x => { x with actC := s0, actN := 1 }))).map
      (fun s => (s.respA, (s.band 0).st))
    = some ([0x3FD0000000000000], [(0, 0x3FE4000000000000), (1, 0x3FC8000000000000)]) := by decide +kernel

/-- V14: with no sections a NaN's payload passes untouched. -/
theorem test_bqProc_pass_through :
    (nextOf (exec (.bqProc 0 0 0xDEADBEEF7FC00123) audio32)).map State.respA = some [0x7FC00123] := by decide

/-- V18: the snapshot is the active bank when `BQ.SNAP` runs. -/
theorem test_bqSnap_then_bqRds :
    ((nextOf (exec (.bqSnap 0) (onBand control fun x => { x with actC := s0, actN := 1 }))).bind
      fun s => nextOf (exec (.bqRds 0 0 3) s)).map State.respC = some [0xBFE0000000000000] := by decide

/-- R151's example: the square of 0.5. -/
theorem test_rmsAcc : (nextOf (exec (.rmsAcc 0 0x3F000000) audio32)).map (fun s => (s.band 0).rmsAcc)
    = some 0x3E800000 := by decide

/-- R152's example. -/
theorem test_rmsPush :
    (nextOf (exec (.rmsPush 0) (onBand audio fun x => { x with
        rmsW := 2, rmsBuf := [(0, 0x3FD0000000000000), (1, 0x3FF0000000000000)], rmsTot := 0x3FF4000000000000,
        rmsAcc := 0x4010000000000000 }))).map
      (fun s => ((s.band 0).rmsBuf, (s.band 0).rmsPos, (s.band 0).rmsTot, (s.band 0).rmsAcc))
    = some ([(0, 0x4010000000000000), (1, 0x3FF0000000000000)], 1, 0x4014000000000000, 0) := by decide

/-- R154's example: the floor. -/
theorem test_rmsGet_floor : (nextOf (exec (.rmsGet 0) audio)).map State.respA = some [0xC06E000000000000] := by decide

/-- V24: a mean of 0.25 in binary64. -/
theorem test_rmsGet_log :
    (nextOf (exec (.rmsGet 0) (onBand audio fun x => { x with rmsTot := 0x3FD0000000000000 }))).map State.respA
      = some [0xC018151824C7587F] := by decide +kernel

/-- V31: inside the knee. -/
theorem test_knEval_inside :
    (nextOf (exec (.knEval 0 0xC034000000000000) (onBand audio fun x => { x with active := k1, knee := k1Cache }))).map
      State.respA = some [0xC035200000000000] := by decide

/-- V32: above the knee with the curve shape 1, at 0 dB. -/
theorem test_knEval_curve :
    (nextOf (exec (.knEval 0 0) (onBand audio fun x =>
        { x with active := { k1 with c := 0x3FF0000000000000 },
                 knee := { k1Cache with ab := 0x3FF0000000000000 } }))).map
      State.respA = some [0xC02FB248B21D361A] := by decide +kernel

/-- R185's example: the first step gives 0.5 and 0.25. -/
theorem test_foStep :
    (nextOf (exec (.foStep 0 0x3FF0000000000000) (onBand audio fun x => { x with
        active := { x.active with ra := 0x3FE0000000000000, rr := 0x3FE0000000000000 } }))).map
      (fun s => ((s.band 0).foXS, s.respA)) = some (0x3FE0000000000000, [0x3FD0000000000000]) := by decide +kernel

/-- V43: the rounded sum lands beyond the target; the target is returned. -/
theorem test_follow_overshoot :
    followOne (defaultParams .binary32) { fmt := .binary32, now := 0, place := [] }
      { DynParams.reset (defaultParams .binary32) with ra := 0x40000000 } 0xC0AD9799 0x410E7C93 = 0x410E7C93 := by
  decide

/-- V48: the bypassed chain returns +0 and moves the follower. -/
theorem test_dyRun_bypassed :
    (nextOf (exec (.dyRun 0) (onBand audio fun x => { x with
        active := { k1 with ra := 0x3FE0000000000000, rr := 0x3FE0000000000000 }, knee := k1Cache,
        rmsTot := 0x3FF0000000000000 }))).map
      (fun s => ((s.band 0).foXS, (s.band 0).dyOut, s.respA)) = some (0xC01E000000000000, 0, [0]) := by decide +kernel

/-- R202's example: the centre tap of stage 1's down path. -/
theorem test_osWrt : (nextOf (exec (.osWrt 1 0 3 0x3FE0000000000000) control)).map (fun s => (s.stage 1).cd)
    = some 0x3FE0000000000000 := by decide

/-- R203's example: the second input. -/
theorem test_osUp :
    (nextOf (exec (.osUp 0 0) { (audio.setStage 0 { Stage.reset with cu := 0x3FF0000000000000, tu := [(0, 0x3FE0000000000000)] }).setChan
        0 { Chan.reset with ul := Chan.reset.ul.set 0 [(0, 0x3FF0000000000000)] } with cfgS := 1 })).map State.respA
      = some [0x3FF0000000000000, 0x3FE0000000000000] := by decide +kernel

/-- R204's example: the first pair. -/
theorem test_osDown :
    (nextOf (exec (.osDown 0) { (audio.setStage 0 { Stage.reset with cd := 0x3FE0000000000000, td := [(0, 0x3FD0000000000000)] }).setChan
        0 { Chan.reset with dq := [0, 0x3FE0000000000000] } with cfgS := 1 })).map State.respA
      = some [0x3FC0000000000000] := by decide +kernel

/-- V2 m: nothing queued is `UNDERFLOW`. -/
theorem test_osDown_underflow : (nextOf (exec (.osDown 0) { audio with cfgS := 1 })).map statusWord
    = some 0x6300000000000807 := by decide

/-- V2 n: a full queue is `OVERFLOW`. -/
theorem test_osWr_overflow :
    (nextOf (exec (.osWr 0 0) (audio.setChan 0 { Chan.reset with dq := [0] }))).map statusWord
      = some 0x6200000000000907 := by decide

/-- R42: the reset cache in both formats (V34). -/
theorem test_reset_cache : (Knee.reset (defaultParams .binary32)).lo = 0xBA800000
    ∧ (Knee.reset (defaultParams .binary64)).lo = 0xBF50000000000000
    ∧ (Knee.reset (defaultParams .binary64)).hi = 0x3F50000000000000 := by decide +kernel

/-- A step after reset runs the placed word: V2 e, `BQ.PROC` stopped is `MODE`, and `cp_A` has advanced. -/
theorem test_step_placed :
    (nextOf (step (State.reset.withFetchWord 96 0x3FF0000000000000_15000000))).map (fun s => (statusWord s, s.cpA, s.cpC))
      = some (0x1500000000000404, 1, 0) := by decide

/-- A port-C word is placed on port C: `PREPARE` runs. -/
theorem test_step_placed_c :
    (nextOf (step (State.reset.withFetchWord 96 0x02000000))).map (fun s => (s.prepared, s.cpA, s.cpC))
      = some (true, 0, 1) := by decide

/-! ### What the statements assume can be met

For every statement with hypotheses: a state and operands that meet them, at the boundary values of its clauses. -/

/-- The hypotheses of `OnlyOn`, `OnlyRunning` and `OnlyStopped`. -/
theorem test_meets_rights_of_ports : (audio.err = false ∧ audio.port ≠ .c) ∧ (control.err = false ∧ control.port ≠ .a)
    ∧ (State.reset.err = false ∧ State.reset.port = .a ∧ State.reset.running = false)
    ∧ (controlRunning.err = false ∧ controlRunning.port = .c ∧ controlRunning.running = true
        ∧ (Instr.cfgWr 0 0 0 1).wellFormed = true ∧ Instr.prepare.wellFormed = true
        ∧ (Instr.osWrt 0 0 3 1).wellFormed = true) := by decide

theorem test_meets_NopDoesNothing : hdrOp 0x00000001 = 0 ∧ ({ h := 0x00000001, d := 0 } : Cmd) ≠ { h := 0, d := 0 }
    ∧ ({ h := 0, d := 1 } : Cmd) ≠ { h := 0, d := 0 } ∧ audio.err = false ∧ control.err = false := by decide

theorem test_meets_CfgWrWritesRegister : control.Configuring
    ∧ (1 ≤ (16 : Word).toNat ∧ (16 : Word).toNat ≤ 16) ∧ (6 : Word).toNat ≤ 6
    ∧ (1 ≤ (8192 : Word).toNat ∧ (8192 : Word).toNat ≤ control.par.maxblkMax)
    ∧ (control.HasBand 0 ∧ (1 : Word).toNat ≤ 1)
    ∧ ((5 : BitVec 4).toNat < 6 ∧ 1 ≤ (64 : Word).toNat ∧ (64 : Word).toNat ≤ control.par.kMax)
    ∧ ((1 : BitVec 4) ≠ 0 ∧ (2 : BitVec 8) ≠ 3) ∧ ((1 : BitVec 4) ≠ 0 ∧ (3 : BitVec 8) ≠ 4 ∧ (3 : BitVec 8) ≠ 5)
    ∧ ((Instr.cfgWr 0 0 6 0).wellFormed = true ∧ 5 < (6 : BitVec 8).toNat)
    ∧ ((Instr.cfgWr 1 0 3 0).wellFormed = true ∧ ¬ control.HasBand 1)
    ∧ ((Instr.cfgWr 0 6 4 1).wellFormed = true ∧ 6 ≤ (6 : BitVec 4).toNat)
    ∧ ¬ (1 ≤ (17 : Word).toNat ∧ (17 : Word).toNat ≤ 16) ∧ 6 < (7 : Word).toNat
    ∧ ¬ (1 ≤ (0 : Word).toNat ∧ (0 : Word).toNat ≤ control.par.maxblkMax) ∧ 1 < (2 : Word).toNat
    ∧ ¬ (1 ≤ (65 : Word).toNat ∧ (65 : Word).toNat ≤ control.par.kMax) := by decide

theorem test_meets_PrepareClearsRunState : control.Configuring := by decide

theorem test_meets_RunAndStopSwitchMode :
    (({ control with prepared := true } : State).Control ∧ ({ control with prepared := true } : State).running = false)
    ∧ (control.Control ∧ control.prepared = false) ∧ (controlRunning.Control ∧ controlRunning.running = true) := by
  decide

theorem test_meets_BlkRunsBlockBoundary : audio.Processing ∧ audio.HasBand 0 ∧ ¬ audio.HasBand 1 := by decide

/-- The pending flags of the three statements about `BLK`: the window changed and unchanged; an update with and without
parameters pending, with a reset requested, due by the section count, and not due. -/
theorem test_meets_blk_pending :
    let s := onBand audio fun x => { x with parPend := true, updPend := true, stgWn := 2 }
    let r := onBand audio fun x => { x with parPend := true }
    let w := onBand audio fun x => { x with updPend := true }
    (s.Processing ∧ s.HasBand 0 ∧ (s.band 0).parPend = true ∧ (s.band 0).stgWn ≠ (s.band 0).rmsW)
    ∧ ((s.band 0).updPend = true ∧ (s.band 0).rstPend = false ∧ (s.band 0).stgN = (s.band 0).actN)
    ∧ (r.Processing ∧ (r.band 0).parPend = true ∧ (r.band 0).stgWn = (r.band 0).rmsW
        ∧ (r.band 0).updPend = false ∧ (r.band 0).rstPend = false)
    ∧ (w.Processing ∧ w.HasBand 0 ∧ (w.band 0).updPend = true ∧ (w.band 0).parPend = false
        ∧ (w.band 0).rstPend = false ∧ (w.band 0).stgN = (w.band 0).actN)
    ∧ ((onBand w fun x => { x with rstPend := true }).band 0).rstPend = true
    ∧ ((onBand w fun x => { x with stgN := 8 }).band 0).stgN ≠ ((onBand w fun x => { x with stgN := 8 }).band 0).actN :=
  by decide

theorem test_meets_RdLatReadsLatency : control.IntsLegal ∧ control.Control := by
  refine ⟨?_, by decide⟩
  unfold State.IntsLegal Band.IntsLegal DynParams.IntsLegal Stage.IntsLegal
  decide

theorem test_meets_RdPendEmitsPendingFlags : audio.err = false ∧ audio.HasBand 0 ∧ ¬ audio.HasBand 1 := by decide

theorem test_meets_PrWrStagesClampedValue : control.Control ∧ control.HasBand 0 ∧ ¬ control.HasBand 1
    ∧ 10 < (11 : BitVec 8).toNat ∧ (5 : BitVec 8).toNat ≤ 5
    ∧ (isFinite .binary64 (narrow control.fpu 0 0x7FEFFFFFFFFFFFFF) = true
        ∧ isFinite .binary64 (narrow control.fpu 0 0x7FF0000000000000) = false)
    ∧ (4 < (5 : Word).toNat ∧ (4 : Word).toNat ≤ 4) ∧ (1 < (2 : Word).toNat ∧ (1 : Word).toNat ≤ 1) := by decide

theorem test_meets_BqWrcWritesOneCoefficient :
    let s := onBand control fun x => { x with updPend := true }
    (control.Control ∧ control.HasBand 0 ∧ (7 : BitVec 8).toNat < 8 ∧ (4 : BitVec 8).toNat ≤ 4
      ∧ (control.band 0).updPend = false)
    ∧ (¬ control.HasBand 1 ∧ 8 ≤ (8 : BitVec 8).toNat ∧ 4 < (5 : BitVec 8).toNat)
    ∧ (s.Control ∧ s.HasBand 0 ∧ (s.band 0).updPend = true) := by decide

theorem test_meets_BqWrnWritesCount :
    let s := onBand control fun x => { x with updPend := true }
    (control.Control ∧ control.HasBand 0 ∧ (8 : Word).toNat ≤ 8 ∧ (control.band 0).updPend = false)
    ∧ ¬ control.HasBand 1 ∧ 8 < (9 : Word).toNat ∧ (s.Control ∧ s.HasBand 0 ∧ (s.band 0).updPend = true) := by decide

/-- `BQ.COMMIT`, `BQ.RSTREQ`, `BQ.SNAP`, `BQ.RDS`: band in range and out of range; the indices of `BQ.RDS`. -/
theorem test_meets_control_bands : control.Control ∧ control.HasBand 0 ∧ ¬ control.HasBand 1
    ∧ ((5 : BitVec 8) = 5 ∧ (1 : BitVec 8) ≠ 0) ∧ ¬ ((6 : BitVec 8) = 5 ∧ (0 : BitVec 8) ≠ 0)
    ∧ 8 ≤ (8 : BitVec 8).toNat ∧ 5 < (6 : BitVec 8).toNat ∧ (7 : BitVec 8).toNat < 8 ∧ (4 : BitVec 8).toNat ≤ 4 := by
  decide

/-- The port-A commands of a band: `BQ.RESET`, `RMS.*`, `KN.EVAL`, `FO.*`, `DY.RUN`. -/
theorem test_meets_audio_bands : audio.Processing ∧ audio.HasBand 0 ∧ ¬ audio.HasBand 1 := by decide

theorem test_meets_BqProcRunsSectionsInSeries :
    let s := onBand audio fun x => { x with actN := 8 }
    (s.Processing ∧ s.HasBand 0 ∧ s.HasChan 0 ∧ (s.band 0).actN ≤ 8)
    ∧ (audio.Processing ∧ audio.HasBand 0 ∧ audio.HasChan 0 ∧ (audio.band 0).actN = 0 ∧ audio.par.fmt = .binary64)
    ∧ (audio32.Processing ∧ audio32.HasBand 0 ∧ audio32.HasChan 0 ∧ (audio32.band 0).actN = 0
        ∧ audio32.par.fmt = .binary32)
    ∧ ¬ s.HasBand 1 ∧ ¬ s.HasChan 1 := by decide

/-- Two states that differ in the section state of channel 1. -/
theorem test_meets_ChannelsNeverInteract :
    let s := onBand { audio with cfgNch := 2 } fun x => { x with actN := 8 }
    let s' := onBand s fun x => { x with st := [(16, 1)] }
    s.Processing ∧ s.HasBand 0 ∧ s.HasChan 0 ∧ (s.band 0).actN ≤ 8
      ∧ s' = s.setBand 0 { s.band 0 with st := (s'.band 0).st } ∧ (s'.band 0).st ≠ (s.band 0).st
      ∧ (∀ n : Fin 8, ∀ i : Fin 2,
          (s'.band 0).st.read (stIndex 0 n + i) = (s.band 0).st.read (stIndex 0 n + i))
      ∧ (1 : BitVec 4) ≠ 0 := by decide +kernel

theorem test_meets_EmptyTrackerReadsFloor : audio.Processing ∧ audio.HasBand 0 ∧ 1 ≤ (audio.band 0).rmsW
    ∧ isZero audio.par.fmt (audio.band 0).rmsTot = true ∧ isZero .binary64 0x8000000000000000 = true := by decide

/-- The three regions, at both boundary points and for a NaN. -/
theorem test_meets_KnEvalHasThreeRegions :
    fle .binary64 k1Cache.lo k1Cache.lo = true
    ∧ (fle .binary64 k1Cache.hi k1Cache.lo = false ∧ fge .binary64 k1Cache.hi k1Cache.hi = true)
    ∧ (fle .binary64 0xC034000000000000 k1Cache.lo = false ∧ fge .binary64 0xC034000000000000 k1Cache.hi = false)
    ∧ (fle .binary64 0x7FF8000000000000 k1Cache.lo = false ∧ fge .binary64 0x7FF8000000000000 k1Cache.hi = false)
    ∧ k1Cache.sg = false ∧ ({ k1Cache with sg := true } : Knee).sg = true := by decide

theorem test_meets_ResetCacheIsKneeInterp :
    paramsLegal (defaultParams .binary32) = true ∧ paramsLegal (defaultParams .binary64) = true := by decide

/-- Attack and release in both phases: d above and below zero. -/
theorem test_meets_followers :
    let u : Fpu := { fmt := .binary64, now := 0, place := [] }
    u.fmt = (defaultParams .binary64).fmt
    ∧ flt .binary64 0 0x3FF0000000000000 = true ∧ fgt .binary64 (fsub u 0 0x3FF0000000000000 0) 0 = true
    ∧ flt .binary64 (fsub u 0 0 0x3FF0000000000000) 0 = true
    ∧ isFinite .binary64 0 = true ∧ isFinite .binary64 0x7FEFFFFFFFFFFFFF = true
    ∧ isFinite .binary64 0xFFEFFFFFFFFFFFFF = true
    ∧ fgt .binary64 0x7FEFFFFFFFFFFFFF 0xFFEFFFFFFFFFFFFF = true
    ∧ feq .binary64 0 0x8000000000000000 = true ∧ isNaN .binary64 0x7FF8000000000000 = true
    ∧ (fle .binary64 0 0 = true ∧ (Band.reset (defaultParams .binary64)).foXS = 0) := by decide +kernel

theorem test_meets_FollowerStaysBetween :
    (DynParams.reset (defaultParams .binary64)).FloatsLegal (defaultParams .binary64)
      ∧ ({ k1 with ra := 0x8000000000000000, rr := 0x7FEFFFFFFFFFFFFF } : DynParams).FloatsLegal
          (defaultParams .binary64) := by
  unfold DynParams.FloatsLegal
  decide

theorem test_meets_BypassOnlyDiscardsTheGain :
    let s' := onBand audio fun x => { x with active := { x.active with byp := 0 } }
    audio.Processing ∧ audio.HasBand 0 ∧ (audio.band 0).active.byp = 1
      ∧ s' = audio.setBand 0 { audio.band 0 with active := { (audio.band 0).active with byp := 0 } }
      ∧ s' ≠ audio := by decide +kernel

theorem test_meets_OsWrtWritesOneTap : control.Configuring ∧ (1 : BitVec 8) ≠ 0
    ∧ ((Instr.osWrt 6 0 0 0).wellFormed = true ∧ 6 ≤ (6 : BitVec 4).toNat)
    ∧ ((Instr.osWrt 0 0 4 0).wellFormed = true ∧ 3 < (4 : BitVec 8).toNat)
    ∧ ((Instr.osWrt 0 64 1 0).wellFormed = true ∧ control.par.kMax ≤ (64 : BitVec 8).toNat)
    ∧ ((5 : BitVec 4).toNat < 6 ∧ (1 : BitVec 8).toNat ≤ 1 ∧ (63 : BitVec 8).toNat < control.par.kMax) := by decide

theorem test_meets_stages : 1 ≤ Stage.reset.ku ∧ 1 ≤ Stage.reset.kd ∧ 1 ≤ ({ Stage.reset with ku := 256 } : Stage).ku := by
  decide

/-- `OS.UP`, `OS.DOWN`, `OS.WR`: six stages, a full and an empty queue; no stage. -/
theorem test_meets_oversampler :
    let s := { audio with cfgS := 6 }
    let r := audio.setChan 0 { Chan.reset with dq := [7] }
    (s.Processing ∧ s.HasChan 0 ∧ s.cfgS ≤ 6 ∧ ¬ s.HasChan 1)
    ∧ ((s.chan 0).dq.length < 2 ^ s.cfgS ∧ (s.chan 0).dq.length < s.cfgMaxblk * 2 ^ s.cfgS)
    ∧ (r.Processing ∧ r.HasChan 0 ∧ 2 ^ r.cfgS ≤ (r.chan 0).dq.length ∧ r.cfgS ≤ 6
        ∧ r.cfgMaxblk * 2 ^ r.cfgS ≤ (r.chan 0).dq.length ∧ r.cfgS = 0 ∧ (r.chan 0).dq = 7 :: [])
    ∧ (audio.cfgS = 0 ∧ (audio.chan 0).dq.length < audio.cfgMaxblk) ∧ (control.cfgS = 0 ∧ control.Control) := by decide

/-- A step that raises a fault: `BQ.PROC` as the first command after reset. -/
theorem test_meets_FaultsArePrecise :
    let k : Cmd := { h := 0x15000000, d := 0 }
    let s := State.reset.place k
    s.err = false ∧ s.resetDueNow = false ∧ s.pick = some (.a, k)
      ∧ ∃ t, step s = .next t ∧ t.err = true :=
  ⟨by decide, by decide, by decide, _, rfl, by decide⟩

/-- After a fault: `RD.STAT`, and a command that would act otherwise. -/
theorem test_meets_FailStopAfterFault :
    let k : Cmd := { h := 0x06000000, d := 0 }
    let k' : Cmd := { h := 0x02000000, d := 0 }
    (failed.err = true ∧ (failed.place k).err = true ∧ (failed.place k).resetDueNow = false
      ∧ (failed.place k).pick = some (.a, k))
    ∧ ((failed.place k').resetDueNow = false ∧ (failed.place k').pick = some (.c, k')
        ∧ k' ≠ { h := 0x06000000, d := 0 }) := by decide

theorem test_meets_ChecksComeInOrder :
    control.err = false ∧ Op.ofCode (hdrOp 0x0A000000) = none ∧ Op.ofCode (hdrOp 0x15000100) = some .bqProc
    ∧ portOk Op.bqProc.port control.port = false ∧ portOk Op.bqProc.port State.reset.port = true
    ∧ (0x15000100 &&& Op.bqProc.mask ≠ Op.bqProc.pattern)
    ∧ (Op.nop.noOperand = true ∧ ({ h := 0, d := 1 } : Cmd).d ≠ 0)
    ∧ (Op.cfgWr.build { h := 0x01100009, d := 0 }).wellFormed = false
    ∧ (portOk Op.cfgWr.port controlRunning.port = true ∧ 0x01000009 &&& Op.cfgWr.mask = Op.cfgWr.pattern
        ∧ Op.cfgWr.noOperand ≠ true ∧ (Op.cfgWr.build { h := 0x01000009, d := 0 }).wellFormed = true
        ∧ modeOk Op.cfgWr.when controlRunning = false) := by decide

theorem test_meets_RightsOfPortsAndModes : audio.err = false ∧ control.err = false
    ∧ (Instr.nop).op ∈ [Op.nop, .rdStat, .rdPend] ∧ (Instr.prepare).op ∈ [Op.cfgWr, .prepare, .osWrt]
    ∧ (Instr.rdLat).op ∈ [Op.rdLat, .prWr, .bqWrc, .bqWrn, .bqCommit, .bqRstreq, .bqSnap, .bqRds]
    ∧ audio.port = .a ∧ control.port = .c ∧ Instr.prepare.wellFormed = true ∧ (Instr.osReset).op = .osReset := by decide

/-- One port ready, the other ready, both ready with and without a settled choice, none ready. -/
theorem test_meets_StepRunsDecodedCommand :
    let k : Cmd := { h := 0, d := 0 }
    let a := { State.reset with progA := [k] }
    let c := { State.reset with progC := [k] }
    let b := { a with progC := [k], inputs := [.port .c] }
    (a.resetDueNow = false ∧ a.progA[a.cpA]? = some k ∧ a.progC[a.cpC]? = none)
    ∧ (c.resetDueNow = false ∧ c.progC[c.cpC]? = some k ∧ c.progA[c.cpA]? = none)
    ∧ (b.resetDueNow = false ∧ b.progA[b.cpA]? = some k ∧ b.progC[b.cpC]? = some k ∧ b.inputs = .port .c :: [])
    ∧ (({ b with inputs := [.port .a] } : State).inputs = .port .a :: [])
    ∧ (State.reset.resetDueNow = false ∧ State.reset.progA[State.reset.cpA]? = none
        ∧ State.reset.progC[State.reset.cpC]? = none)
    ∧ decode k = .ok .nop := by decide

theorem test_meets_EveryPairDecodesOrFaults :
    control.err = false ∧ (Instr.cfgWr 1 0 9 0).wellFormed = false ∧ (encode .nop = { h := 0, d := 0 }) := by decide

theorem test_meets_ResetLeavesTableValues :
    ({ failed with inputs := [.reset] } : State).resetDueNow = true
      ∧ (let s := failed.place { h := 0, d := 0 }
         s.resetDueNow = false ∧ s.err = true ∧ ∃ t, step s = .next t) :=
  ⟨by decide, by decide, by decide, _, rfl⟩

/-- The state after reset with `PREPARE` to run next meets every invariant and steps. -/
theorem test_meets_invariants :
    let s := State.reset.place { h := 0x02000000, d := 0 }
    s.IntsLegal ∧ s.Stored ∧ s.ParamsInRange ∧ s.ModeConsistent ∧ ∃ t, step s = .next t := by
  refine ⟨?_, ?_, ?_, ?_, _, rfl⟩
  · unfold State.IntsLegal Band.IntsLegal DynParams.IntsLegal Stage.IntsLegal
    decide
  · unfold State.Stored Band.Stored Stage.Stored Chan.Stored
    decide
  · unfold State.ParamsInRange DynParams.FloatsLegal
    decide
  · unfold State.ModeConsistent
    decide

/-- A step of a port that is no `BLK`, in mode RUNNING: the state of the statements over all steps. -/
theorem test_meets_whole_machine :
    let k : Cmd := { h := 0x06000000, d := 0 }
    let s := audio.place k
    s.resetDueNow = false ∧ s.running = true ∧ s.pick = some (.a, k) ∧ decode k ≠ .ok (.blk 0)
      ∧ decode k = .ok .rdStat ∧ ∃ t, step s = .next t ∧ t.err = false :=
  ⟨by decide, by decide, by decide, by decide, by decide, _, rfl, by decide⟩

/-- The same on port C, and with a fault raised. -/
theorem test_meets_ResultsAppendToOwnStream :
    let k : Cmd := { h := 0x07000000, d := 0 }
    let s := audio.place k
    (s.pick = some (.c, k) ∧ s.err = false ∧ ∃ t, step s = .next t ∧ t.err = false)
      ∧ (State.reset.place { h := 0x15000000, d := 0 }).pick = some (.a, { h := 0x15000000, d := 0 }) :=
  ⟨⟨by decide, by decide, _, rfl, by decide⟩, by decide⟩

theorem test_meets_CommandsTouchOneBandOneChannel :
    (∃ t, exec (.bqReset 0) audio = .next t) ∧ Instr.bqReset 0 ≠ .prepare ∧ Instr.bqReset 0 ≠ .osReset
      ∧ (1 : BitVec 4) ≠ (Instr.bqReset 0).fields.bnd ∧ (1 : BitVec 4) ≠ (Instr.bqReset 0).fields.chs :=
  ⟨⟨_, rfl⟩, by decide, by decide, by decide, by decide⟩

end Sys2Proof.Tests
end

/-!
The invariant of the stored integers (00_scope.md R7; 10_state.md R24, R25, R27, R28, R31, R32): one rule per update of the
state, of a band and of a stage, then one per command, and at the end every step.
-/

namespace Sys2Proof.Machine

/-! ### What a command keeps -/

/-- What holds before a command and after a fault holds after the command, if its effect establishes it whenever the
command's own checks pass. -/
theorem command_keeps {P : State → Prop} {i : Instr} {s t : State} {own : List (Bool × ErrCode)} {e : State}
    (hs : P s) (hraise : ∀ k h, P (s.raise k h)) (h : command i s own e = .next t)
    (heffect : firstFailure own = none → P e) : P t := by
  rcases command_inv h with ⟨_, rfl⟩ | ⟨_, k, rfl⟩ | ⟨_, _, _, _, ho, rfl⟩
  · exact hs
  · exact hraise k _
  · exact heffect ho

/-! ### The parameters and the values after reset -/

/-- The lower bounds that the integers after reset meet (R6). -/
theorem paramsLegal_maxima_pos {p : Params} (h : paramsLegal p = true) : 1 ≤ p.kMax ∧ 1 ≤ p.wMax ∧ 1 ≤ p.maxblkMax := by
  simp only [paramsLegal, Bool.and_eq_true, decide_eq_true_eq] at h
  tauto

theorem State.IntsLegal.params {s : State} (h : s.IntsLegal) : paramsLegal s.par = true := h.1

theorem DynParams.reset_intsLegal (p : Params) : (DynParams.reset p).IntsLegal := by
  simp [DynParams.IntsLegal, DynParams.reset]

theorem Band.reset_intsLegal {p : Params} (hw : 1 ≤ p.wMax) : (Band.reset p).IntsLegal p := by
  simp [Band.IntsLegal, Band.reset, DynParams.reset_intsLegal, hw]

theorem Stage.reset_intsLegal {p : Params} (hk : 1 ≤ p.kMax) : Stage.reset.IntsLegal p := by
  simp [Stage.IntsLegal, Stage.reset, hk]

theorem State.resetWith_intsLegal {p : Params} (h : paramsLegal p = true) : (State.resetWith p).IntsLegal := by
  obtain ⟨hk, hw, hm⟩ := paramsLegal_maxima_pos h
  refine ⟨h, le_refl 1, Nat.le_add_left 1 15, Nat.zero_le 6, le_refl 1, hm, fun b => ?_, fun n _ => ?_⟩
  · rw [State.resetWith_band]
    exact Band.reset_intsLegal hw
  · rw [State.resetWith_stage]
    exact Stage.reset_intsLegal hk

theorem State.IntsLegal.hardwareReset {s : State} (h : s.IntsLegal) : s.hardwareReset.IntsLegal :=
  State.resetWith_intsLegal h.params

/-! ### Updates of the state -/

theorem State.IntsLegal.raise {s : State} (h : s.IntsLegal) (k : ErrCode) (hd : Header) : (s.raise k hd).IntsLegal := h

theorem State.IntsLegal.accept {s : State} (h : s.IntsLegal) (p : Port) : (s.accept p).IntsLegal := by
  cases p <;> exact h

theorem State.IntsLegal.emit {s : State} (h : s.IntsLegal) (p : Port) (w : Word) : (s.emit p w).IntsLegal := by
  cases p <;> exact h

theorem State.IntsLegal.emitAll {s : State} (h : s.IntsLegal) (p : Port) (ws : List Word) :
    (s.emitAll p ws).IntsLegal := by
  cases p <;> exact h

theorem State.IntsLegal.setChan {s : State} (h : s.IntsLegal) (c : BitVec 4) (x : Chan) : (s.setChan c x).IntsLegal := h

theorem State.IntsLegal.band {s : State} (h : s.IntsLegal) (b : BitVec 4) : (s.band b).IntsLegal s.par := by
  obtain ⟨_, _, _, _, _, _, hbands, _⟩ := h
  exact hbands b

theorem State.IntsLegal.stage {s : State} (h : s.IntsLegal) {n : Nat} (hn : n < 6) : (s.stage n).IntsLegal s.par := by
  obtain ⟨_, _, _, _, _, _, _, hstages⟩ := h
  exact hstages n hn

theorem State.IntsLegal.setBand {s : State} (h : s.IntsLegal) (b : BitVec 4) {x : Band} (hx : x.IntsLegal s.par) :
    (s.setBand b x).IntsLegal := by
  obtain ⟨hp, hnch, hnch', hs, hblk, hblk', hbands, hstages⟩ := h
  refine ⟨hp, hnch, hnch', hs, hblk, hblk', fun b' => ?_, hstages⟩
  rw [State.setBand_band_eq]
  split
  · exact hx
  · exact hbands b'

/-- A stage beyond the six is no stage of the block: it may be anything. -/
theorem State.IntsLegal.setStage {s : State} (h : s.IntsLegal) (n : Nat) {x : Stage}
    (hx : n < 6 → x.IntsLegal s.par) : (s.setStage n x).IntsLegal := by
  obtain ⟨hp, hnch, hnch', hs, hblk, hblk', hbands, hstages⟩ := h
  refine ⟨hp, hnch, hnch', hs, hblk, hblk', hbands, fun m hm => ?_⟩
  by_cases hmn : m = n
  · subst hmn
    rw [State.setStage_stage s x hm]
    exact hx hm
  · rw [State.setStage_stage_ne s x hmn]
    exact hstages m hm

/-- One operation applied to every band. -/
theorem State.IntsLegal.mapBands {s : State} (h : s.IntsLegal) {f : Band → Band}
    (hf : ∀ x : Band, x.IntsLegal s.par → (f x).IntsLegal s.par) : { s with bands := s.bands.map f }.IntsLegal := by
  obtain ⟨hp, hnch, hnch', hs, hblk, hblk', hbands, hstages⟩ := h
  refine ⟨hp, hnch, hnch', hs, hblk, hblk', fun b => ?_, hstages⟩
  have hband : State.band { s with bands := s.bands.map f } b = f (s.band b) := by simp [State.band]
  rw [hband]
  exact hf _ (hbands b)

/-! ### Updates of a band -/

section
variable {p : Params} {x : Band}

/-- The window position starts again, the window length stays (R159). -/
theorem Band.IntsLegal.rmsClear (h : x.IntsLegal p) : (rmsClear x).IntsLegal p := by
  obtain ⟨hstgN, hactN, hsnpN, hw, hw', _, hrest⟩ := h
  exact ⟨hstgN, hactN, hsnpN, hw, hw', hw, hrest⟩

theorem Band.IntsLegal.rmsResize (h : x.IntsLegal p) {n : Nat} (hn : 1 ≤ n) (hn' : n ≤ p.wMax) :
    (rmsResize x n).IntsLegal p := by
  obtain ⟨hstgN, hactN, hsnpN, _, _, _, hrest⟩ := h
  exact ⟨hstgN, hactN, hsnpN, hn, hn', hn, hrest⟩

/-- The position wraps at the window length, which is never 0 (R152). -/
theorem Band.IntsLegal.rmsPush (h : x.IntsLegal p) (u : Fpu) : (rmsPush u x).IntsLegal p := by
  obtain ⟨hstgN, hactN, hsnpN, hw, hw', _, hrest⟩ := h
  exact ⟨hstgN, hactN, hsnpN, hw, hw', Nat.mod_lt _ hw, hrest⟩

theorem Band.IntsLegal.withSt (h : x.IntsLegal p) (st : Bank) : { x with st := st }.IntsLegal p := h

theorem Band.IntsLegal.withFollowers (h : x.IntsLegal p) (xs xc : Word) :
    { x with foXS := xs, foXC := xc }.IntsLegal p := h

theorem Band.IntsLegal.withDyOut (h : x.IntsLegal p) (w : Word) : { x with dyOut := w }.IntsLegal p := h

theorem Band.IntsLegal.withStgN (h : x.IntsLegal p) {n : Nat} (hn : n ≤ 8) : { x with stgN := n }.IntsLegal p := by
  obtain ⟨_, hrest⟩ := h
  exact ⟨hn, hrest⟩

theorem Band.IntsLegal.withStgWn (h : x.IntsLegal p) {n : Nat} (hn : 1 ≤ n) (hn' : n ≤ p.wMax) :
    { x with stgWn := n }.IntsLegal p := by
  obtain ⟨hstgN, hactN, hsnpN, hw, hw', hpos, _, _, hpar⟩ := h
  exact ⟨hstgN, hactN, hsnpN, hw, hw', hpos, hn, hn', hpar⟩

theorem Band.IntsLegal.withStaged (h : x.IntsLegal p) {a : DynParams} (ha : a.IntsLegal) :
    { x with staged := a }.IntsLegal p := by
  obtain ⟨hstgN, hactN, hsnpN, hw, hw', hpos, hwn, hwn', _, hactive⟩ := h
  exact ⟨hstgN, hactN, hsnpN, hw, hw', hpos, hwn, hwn', ha, hactive⟩

/-- The snapshot takes the active section count (R132). -/
theorem Band.IntsLegal.snapshot (h : x.IntsLegal p) : { x with snpN := x.actN, snpC := x.actC }.IntsLegal p := by
  obtain ⟨hstgN, hactN, _, hrest⟩ := h
  exact ⟨hstgN, hactN, hactN, hrest⟩

/-- Activation takes the staged section count (R130). -/
theorem Band.IntsLegal.activate (h : x.IntsLegal p) (u : Fpu) : (activate u x).IntsLegal p := by
  obtain ⟨hstgN, _, hrest⟩ := h
  exact ⟨hstgN, hstgN, hrest⟩

/-- The staged values, the window length among them, become the active ones (R111). -/
theorem Band.IntsLegal.applyParams (h : x.IntsLegal p) (u : Fpu) : (applyParams u x).IntsLegal p := by
  obtain ⟨hstgN, hactN, hsnpN, hw, hw', hpos, hwn, hwn', hstaged, _⟩ := h
  have hcopied : { x with active := x.staged, knee := kneeInterp u x.staged }.IntsLegal p :=
    ⟨hstgN, hactN, hsnpN, hw, hw', hpos, hwn, hwn', hstaged, hstaged⟩
  unfold Machine.applyParams
  split
  · exact hcopied
  · exact hcopied.rmsResize hwn hwn'

theorem Band.IntsLegal.blockParams (h : x.IntsLegal p) (u : Fpu) : (blockParams u x).IntsLegal p := by
  unfold Machine.blockParams
  split
  · exact h.applyParams u
  · exact h

theorem Band.IntsLegal.blockReset (h : x.IntsLegal p) : (blockReset x).IntsLegal p := by
  unfold Machine.blockReset
  split <;> exact h

theorem Band.IntsLegal.blockActivate (h : x.IntsLegal p) (u : Fpu) : (blockActivate u x).IntsLegal p := by
  unfold Machine.blockActivate
  split
  · exact h.activate u
  · exact h

theorem Band.IntsLegal.blockBoundary (h : x.IntsLegal p) (u : Fpu) : (blockBoundary u x).IntsLegal p :=
  ((h.blockParams (u.at 0)).blockReset).blockActivate (u.at 1)

theorem Band.IntsLegal.followStep (h : x.IntsLegal p) (u : Fpu) (w : Word) : (followStep p u x w).IntsLegal p :=
  h.withFollowers _ _

theorem Band.IntsLegal.dynamicsCycle (h : x.IntsLegal p) (u : Fpu) : (dynamicsCycle p u x).IntsLegal p :=
  (h.followStep _ _).withDyOut _

/-! ### The staged parameters (40_system.md R110) -/

theorem clampWindow_range (hw : 1 ≤ p.wMax) (n : Nat) : 1 ≤ clampWindow p n ∧ clampWindow p n ≤ p.wMax := by
  unfold clampWindow
  split_ifs <;> omega

/-- An operand that `PR.WR` does not refuse leaves legal staged parameters: ids 6 to 9 are bounded by the check, id 10 by
the clamp, and ids 0 to 5 are no integers. -/
theorem Band.IntsLegal.stageParam (h : x.IntsLegal p) (hw : 1 ≤ p.wMax) {u : Fpu} {sub : Nat} {d : Word}
    (hv : prBadValue u sub d = false) : (stageParam p u sub d x).IntsLegal p := by
  have ⟨_, _, _, _, _, _, _, _, ⟨hsa, hsr, hph, hbyp⟩, _⟩ := h
  unfold Machine.stageParam
  split
  case h_7 =>
    have hn : integerOperand d ≤ 4 := by simpa [prBadValue] using hv
    exact h.withStaged ⟨hn, hsr, hph, hbyp⟩
  case h_8 =>
    have hn : integerOperand d ≤ 4 := by simpa [prBadValue] using hv
    exact h.withStaged ⟨hsa, hn, hph, hbyp⟩
  case h_9 =>
    have hn : integerOperand d ≤ 1 := by simpa [prBadValue] using hv
    exact h.withStaged ⟨hsa, hsr, hn, hbyp⟩
  case h_10 =>
    have hn : integerOperand d ≤ 1 := by simpa [prBadValue] using hv
    exact h.withStaged ⟨hsa, hsr, hph, hn⟩
  case h_11 =>
    obtain ⟨hlo, hhi⟩ := clampWindow_range hw (integerOperand d)
    exact h.withStgWn hlo hhi
  all_goals exact h

end

/-! ### Configuration registers and taps (40_system.md R102, 46_oversampler.md R202) -/

theorem Stage.IntsLegal.writeTap {p : Params} {g : Stage} (h : g.IntsLegal p) (idx sub : Nat) (v : Word) :
    (writeTap g idx sub v).IntsLegal p := by
  unfold Machine.writeTap
  split <;> exact h

theorem Stage.IntsLegal.withKu {p : Params} {g : Stage} (h : g.IntsLegal p) {n : Nat} (hn : 1 ≤ n) (hn' : n ≤ p.kMax) :
    { g with ku := n }.IntsLegal p := by
  obtain ⟨_, _, hkd⟩ := h
  exact ⟨hn, hn', hkd⟩

theorem Stage.IntsLegal.withKd {p : Params} {g : Stage} (h : g.IntsLegal p) {n : Nat} (hn : 1 ≤ n) (hn' : n ≤ p.kMax) :
    { g with kd := n }.IntsLegal p := by
  obtain ⟨hku, hku', _⟩ := h
  exact ⟨hku, hku', hn, hn'⟩

/-- A value that `CFG.WR` does not refuse is in the range of the register it goes to (R24). -/
theorem State.IntsLegal.cfgWrite {s : State} (h : s.IntsLegal) (bnd chs : BitVec 4) {sub n : Nat}
    (hv : cfgBadValue s.par sub n = false) : (cfgWrite s bnd chs sub n).IntsLegal := by
  have ⟨hp, hnch, hnch', hs, hblk, hblk', hbands, hstages⟩ := h
  unfold Machine.cfgWrite
  split
  case h_1 =>
    obtain ⟨hn, hn'⟩ : 1 ≤ n ∧ n ≤ 16 := by simpa [cfgBadValue, Nat.one_le_iff_ne_zero] using hv
    exact ⟨hp, hn, hn', hs, hblk, hblk', hbands, hstages⟩
  case h_2 =>
    have hn : n ≤ 6 := by simpa [cfgBadValue] using hv
    exact ⟨hp, hnch, hnch', hn, hblk, hblk', hbands, hstages⟩
  case h_3 =>
    obtain ⟨hn, hn'⟩ : 1 ≤ n ∧ n ≤ s.par.maxblkMax := by simpa [cfgBadValue, Nat.one_le_iff_ne_zero] using hv
    exact ⟨hp, hnch, hnch', hs, hn, hn', hbands, hstages⟩
  case h_4 => exact h.setBand bnd (h.band bnd)
  case h_5 =>
    obtain ⟨hn, hn'⟩ : 1 ≤ n ∧ n ≤ s.par.kMax := by simpa [cfgBadValue, Nat.one_le_iff_ne_zero] using hv
    exact h.setStage _ fun hchs => (h.stage hchs).withKu hn hn'
  case h_6 =>
    obtain ⟨hn, hn'⟩ : 1 ≤ n ∧ n ≤ s.par.kMax := by simpa [cfgBadValue, Nat.one_le_iff_ne_zero, *] using hv
    exact h.setStage _ fun hchs => (h.stage hchs).withKd hn hn'

/-! ### Every command and every step -/

theorem State.IntsLegal.procEffect {s : State} (h : s.IntsLegal) (b c : BitVec 4) (d : Word) :
    (procEffect b c d s).IntsLegal := by
  unfold Machine.procEffect
  exact State.IntsLegal.emit (h.setBand b ((h.band b).withSt _)) _ _

theorem State.IntsLegal.upEffect {s : State} (h : s.IntsLegal) (c : BitVec 4) (d : Word) :
    (upEffect c d s).IntsLegal :=
  State.IntsLegal.emitAll (h.setChan c _) _ _

theorem State.IntsLegal.downEffect {s : State} (h : s.IntsLegal) (c : BitVec 4) : (downEffect c s).IntsLegal :=
  State.IntsLegal.emit (h.setChan c _) _ _

theorem command_keeps_intsLegal {i : Instr} {s t : State} {own : List (Bool × ErrCode)} {e : State} (hs : s.IntsLegal)
    (h : command i s own e = .next t) (heffect : firstFailure own = none → e.IntsLegal) : t.IntsLegal :=
  command_keeps hs hs.raise h heffect

/-- Where a command writes no integer, the invariant of the state or of the band it read is the proof. -/
theorem exec_keeps_intsLegal (i : Instr) (s t : State) (hs : s.IntsLegal) (h : exec i s = .next t) : t.IntsLegal := by
  cases i with
  | nop =>
    simp only [exec, execNop] at h
    exact command_keeps_intsLegal hs h fun _ => hs
  | cfgWr bnd chs sub d =>
    refine command_keeps_intsLegal hs h fun ho => ?_
    simp only [firstFailure_eq_none_iff, List.forall_mem_cons] at ho
    obtain ⟨_, _, _, hv, _⟩ := ho
    exact hs.cfgWrite bnd chs hv
  | prepare => exact command_keeps_intsLegal hs h fun _ => hs.mapBands fun x hx => hx.rmsClear
  | run | stop | osReset => exact command_keeps_intsLegal hs h fun _ => hs
  | blk b => exact command_keeps_intsLegal hs h fun _ => hs.setBand b ((hs.band b).blockBoundary s.fpu)
  | rdStat =>
    simp only [exec, execRdStat] at h
    split at h
    · cases h
      exact hs.emit _ _
    · exact command_keeps_intsLegal hs h fun _ => hs.emit _ _
  | rdLat => exact command_keeps_intsLegal hs h fun _ => hs.emit _ _
  | prWr b sub d =>
    refine command_keeps_intsLegal hs h fun ho => ?_
    simp only [firstFailure_eq_none_iff, List.forall_mem_cons] at ho
    obtain ⟨_, _, hv, _⟩ := ho
    obtain ⟨_, hwMax, _⟩ := paramsLegal_maxima_pos hs.params
    exact hs.setBand b ((hs.band b).stageParam hwMax hv)
  | rdPend b | rmsGet b => exact command_keeps_intsLegal hs h fun _ => hs.emit _ _
  | knEval b d => exact command_keeps_intsLegal hs h fun _ => hs.emit _ _
  | bqRds b idx sub => exact command_keeps_intsLegal hs h fun _ => hs.emit _ _
  | bqWrn b d =>
    refine command_keeps_intsLegal hs h fun ho => ?_
    simp only [firstFailure_eq_none_iff, List.forall_mem_cons, decide_eq_false_iff_not, not_lt] at ho
    obtain ⟨_, hn, _⟩ := ho
    exact hs.setBand b ((hs.band b).withStgN hn)
  | bqRstreq b | bqReset b | foReset b => exact command_keeps_intsLegal hs h fun _ => hs.setBand b (hs.band b)
  | bqWrc b _ _ d | bqCommit b r | rmsAcc b d => exact command_keeps_intsLegal hs h fun _ => hs.setBand b (hs.band b)
  | bqProc b c d => exact command_keeps_intsLegal hs h fun _ => hs.procEffect b c d
  | bqSnap b => exact command_keeps_intsLegal hs h fun _ => hs.setBand b (hs.band b).snapshot
  | rmsPush b => exact command_keeps_intsLegal hs h fun _ => hs.setBand b ((hs.band b).rmsPush s.fpu)
  | rmsReset b => exact command_keeps_intsLegal hs h fun _ => hs.setBand b (hs.band b).rmsClear
  | foStep b d =>
    exact command_keeps_intsLegal hs h fun _ => State.IntsLegal.emit (hs.setBand b ((hs.band b).followStep _ _)) _ _
  | dyRun b =>
    exact command_keeps_intsLegal hs h fun _ => State.IntsLegal.emit (hs.setBand b ((hs.band b).dynamicsCycle _)) _ _
  | osWrt st idx sub d =>
    exact command_keeps_intsLegal hs h fun _ => hs.setStage _ fun hst => (hs.stage hst).writeTap _ _ _
  | osUp c d => exact command_keeps_intsLegal hs h fun _ => hs.upEffect c d
  | osWr c d => exact command_keeps_intsLegal hs h fun _ => hs.setChan c _
  | osDown c => exact command_keeps_intsLegal hs h fun _ => hs.downEffect c

/-- Settles O51, part by part of a step: the hardware reset establishes the ranges; accepting a command, a fault and every
command keep them. -/
theorem stepKeepsIntegersLegal : Obligations.StepKeepsIntegersLegal := by
  unfold Obligations.StepKeepsIntegersLegal
  intro s t hs h
  exact step_keeps State.IntsLegal (fun _ hs => hs.hardwareReset) (fun _ p hs => hs.accept p)
    (fun _ k hd hs => hs.raise k hd) exec_keeps_intsLegal hs h

end Sys2Proof.Machine

/-!
The index spaces stay canonical (10_state.md R27, R30, R32, R36, R37, R40): one rule per update of the state, of a band and of a
delay line, then one per command, and at the end every step.
-/

namespace Sys2Proof.Machine

/-! ### Updates of the state -/

theorem State.Stored.raise {s : State} (h : s.Stored) (k : ErrCode) (hd : Header) : (s.raise k hd).Stored := h

theorem State.Stored.accept {s : State} (h : s.Stored) (p : Port) : (s.accept p).Stored := by
  cases p <;> exact h

theorem State.Stored.emit {s : State} (h : s.Stored) (p : Port) (w : Word) : (s.emit p w).Stored := by
  cases p <;> exact h

theorem State.Stored.emitAll {s : State} (h : s.Stored) (p : Port) (ws : List Word) : (s.emitAll p ws).Stored := by
  cases p <;> exact h

theorem State.Stored.band {s : State} (h : s.Stored) (b : BitVec 4) : (s.band b).Stored := by
  obtain ⟨hbands, _, _⟩ := h
  exact hbands b

theorem State.Stored.stage {s : State} (h : s.Stored) {n : Nat} (hn : n < 6) : (s.stage n).Stored s.par := by
  obtain ⟨_, hstages, _⟩ := h
  exact hstages n hn

theorem State.Stored.chan {s : State} (h : s.Stored) (c : BitVec 4) : (s.chan c).Stored s.par := by
  obtain ⟨_, _, hchans⟩ := h
  exact hchans c

theorem State.Stored.setBand {s : State} (h : s.Stored) (b : BitVec 4) {x : Band} (hx : x.Stored) :
    (s.setBand b x).Stored := by
  obtain ⟨hbands, hstages, hchans⟩ := h
  refine ⟨fun b' => ?_, hstages, hchans⟩
  rw [State.setBand_band_eq]
  split
  · exact hx
  · exact hbands b'

/-- A stage beyond the six is no stage of the block: it may be anything. -/
theorem State.Stored.setStage {s : State} (h : s.Stored) (n : Nat) {x : Stage} (hx : n < 6 → x.Stored s.par) :
    (s.setStage n x).Stored := by
  obtain ⟨hbands, hstages, hchans⟩ := h
  refine ⟨hbands, fun m hm => ?_, hchans⟩
  by_cases hmn : m = n
  · subst hmn
    rw [State.setStage_stage s x hm]
    exact hx hm
  · rw [State.setStage_stage_ne s x hmn]
    exact hstages m hm

theorem State.Stored.setChan {s : State} (h : s.Stored) (c : BitVec 4) {x : Chan} (hx : x.Stored s.par) :
    (s.setChan c x).Stored := by
  obtain ⟨hbands, hstages, hchans⟩ := h
  refine ⟨hbands, hstages, fun c' => ?_⟩
  rw [State.setChan_chan_eq]
  split
  · exact hx
  · exact hchans c'

theorem State.mapBands_band (s : State) (f : Band → Band) (b : BitVec 4) :
    State.band { s with bands := s.bands.map f } b = f (s.band b) := by simp [State.band]

theorem State.resetChans_chan (s : State) (c : BitVec 4) :
    State.chan { s with chans := Vector.replicate 16 Chan.reset } c = Chan.reset := by simp [State.chan]

/-- One operation applied to every band. -/
theorem State.Stored.mapBands {s : State} (h : s.Stored) {f : Band → Band} (hf : ∀ x : Band, x.Stored → (f x).Stored) :
    { s with bands := s.bands.map f }.Stored := by
  obtain ⟨hbands, hstages, hchans⟩ := h
  refine ⟨fun b => ?_, hstages, hchans⟩
  rw [State.mapBands_band]
  exact hf _ (hbands b)

/-- Every channel of the oversampler cleared (R103, R211). -/
theorem State.Stored.resetChans {s : State} (h : s.Stored) :
    { s with chans := Vector.replicate 16 Chan.reset }.Stored := by
  obtain ⟨hbands, hstages, _⟩ := h
  refine ⟨hbands, hstages, fun c => ?_⟩
  rw [State.resetChans_chan]
  exact Chan.reset_stored _

/-! ### Updates of a band -/

section
variable {x : Band}

theorem Band.Stored.withSt (h : x.Stored) {st : Bank} (hst : st.wf 256 = true) : { x with st := st }.Stored := by
  obtain ⟨hstgC, hactC, hactV, _, hrest⟩ := h
  exact ⟨hstgC, hactC, hactV, hst, hrest⟩

theorem Band.Stored.resetCascade (h : x.Stored) : (resetCascade x).Stored := h.withSt rfl

theorem Band.Stored.withStgC (h : x.Stored) {stgC : Bank} (hstgC : stgC.wf 40 = true) :
    { x with stgC := stgC }.Stored := by
  obtain ⟨_, hrest⟩ := h
  exact ⟨hstgC, hrest⟩

/-- The snapshot takes the active coefficients (R132). -/
theorem Band.Stored.snapshot (h : x.Stored) : { x with snpN := x.actN, snpC := x.actC }.Stored := by
  obtain ⟨hstgC, hactC, hactV, hst, _, hbuf⟩ := h
  exact ⟨hstgC, hactC, hactV, hst, hactC, hbuf⟩

/-- A cleared buffer fits every window length (R159). -/
theorem Band.Stored.rmsClear (h : x.Stored) : (rmsClear x).Stored := by
  obtain ⟨hstgC, hactC, hactV, hst, hsnpC, _⟩ := h
  exact ⟨hstgC, hactC, hactV, hst, hsnpC, rfl⟩

theorem Band.Stored.rmsResize (h : x.Stored) (n : Nat) : (rmsResize x n).Stored := by
  obtain ⟨hstgC, hactC, hactV, hst, hsnpC, _⟩ := h
  exact ⟨hstgC, hactC, hactV, hst, hsnpC, rfl⟩

theorem Band.Stored.prepareBand (h : x.Stored) : (prepareBand x).Stored := h.resetCascade.rmsClear

/-- The entry pushed lies inside the window (R152). -/
theorem Band.Stored.rmsPush (h : x.Stored) (hpos : x.rmsPos < x.rmsW) (u : Fpu) : (rmsPush u x).Stored := by
  obtain ⟨hstgC, hactC, hactV, hst, hsnpC, hbuf⟩ := h
  exact ⟨hstgC, hactC, hactV, hst, hsnpC, Bank.wf_write hbuf hpos _⟩

/-- The banks that activation writes keep their form: section `m` lies at `5 m` and at `6 m`. -/
theorem activateSections_wf (u : Fpu) (stg : Bank) {n : Nat} (hn : n ≤ 8) {banks : Bank × Bank}
    (hC : banks.1.wf 40 = true) (hV : banks.2.wf 48 = true) :
    (activateSections u stg n banks).1.wf 40 = true ∧ (activateSections u stg n banks).2.wf 48 = true := by
  induction n with
  | zero => exact ⟨hC, hV⟩
  | succ m ih =>
    obtain ⟨ihC, ihV⟩ := ih (by omega)
    exact ⟨Bank.wf_writeList _ ihC (by simp [Coeffs.toList]; omega),
      Bank.wf_writeList _ ihV (by simp [SvfParams.toList]; omega)⟩

theorem Band.Stored.activate (h : x.Stored) (u : Fpu) : (activate u x).Stored := by
  obtain ⟨hstgC, hactC, hactV, hrest⟩ := h
  obtain ⟨hC, hV⟩ := activateSections_wf u x.stgC (le_refl 8) (banks := (x.actC, x.actV)) hactC hactV
  exact ⟨hstgC, hC, hV, hrest⟩

theorem Band.Stored.applyParams (h : x.Stored) (u : Fpu) : (applyParams u x).Stored := by
  have hcopied : { x with active := x.staged, knee := kneeInterp u x.staged }.Stored := h
  unfold Machine.applyParams
  split
  · exact hcopied
  · exact hcopied.rmsResize _

theorem Band.Stored.blockParams (h : x.Stored) (u : Fpu) : (blockParams u x).Stored := by
  unfold Machine.blockParams
  split
  · exact h.applyParams u
  · exact h

theorem Band.Stored.blockReset (h : x.Stored) : (blockReset x).Stored := by
  unfold Machine.blockReset
  split
  · exact h.resetCascade
  · exact h

theorem Band.Stored.blockActivate (h : x.Stored) (u : Fpu) : (blockActivate u x).Stored := by
  unfold Machine.blockActivate
  split
  · exact h.activate u
  · exact h

theorem Band.Stored.blockBoundary (h : x.Stored) (u : Fpu) : (blockBoundary u x).Stored :=
  ((h.blockParams (u.at 0)).blockReset).blockActivate (u.at 1)

theorem Band.Stored.stageParam (h : x.Stored) (p : Params) (u : Fpu) (id : Nat) (d : Word) :
    (stageParam p u id d x).Stored := by
  unfold Machine.stageParam
  split <;> exact h

theorem Band.Stored.followStep (h : x.Stored) (p : Params) (u : Fpu) (w : Word) : (followStep p u x w).Stored := h

theorem Band.Stored.dynamicsCycle (h : x.Stored) (p : Params) (u : Fpu) : (dynamicsCycle p u x).Stored := h

/-- A section of channel `c` writes its two state variables inside the 256 of the band (R30). -/
theorem runSections_wf (u : Fpu) (x : Band) (c : BitVec 4) {n : Nat} (hn : n ≤ 8) {q : Word × Bank}
    (hq : q.2.wf 256 = true) : (runSections u x c n q).2.wf 256 = true := by
  induction n with
  | zero => exact hq
  | succ m ih =>
    have hc := c.isLt
    exact Bank.wf_writeList _ (ih (by omega)) (by simp [stIndex]; omega)

end

/-! ### The delay lines of the oversampler (46_oversampler.md R203 to R206) -/

/-- Every delay line of a path is in canonical form inside `size` elements. -/
def LinesWf (size : Nat) (v : Vector Bank 6) : Prop := ∀ n : Nat, n < 6 → (lineAt v n).wf size = true

theorem Chan.stored_iff (p : Params) (x : Chan) :
    x.Stored p ↔ LinesWf (2 * p.kMax) x.ul ∧ LinesWf (2 * p.kMax) x.dl ∧ LinesWf p.kMax x.cl :=
  ⟨fun h => ⟨fun n hn => (h n hn).1, fun n hn => (h n hn).2.1, fun n hn => (h n hn).2.2⟩,
   fun ⟨hul, hdl, hcl⟩ n hn => ⟨hul n hn, hdl n hn, hcl n hn⟩⟩

theorem Chan.Stored.withUl {p : Params} {x : Chan} (h : x.Stored p) {ul : Vector Bank 6}
    (hul : LinesWf (2 * p.kMax) ul) : { x with ul := ul }.Stored p := by
  obtain ⟨_, hrest⟩ := (Chan.stored_iff p x).1 h
  exact (Chan.stored_iff ..).2 ⟨hul, hrest⟩

theorem Chan.Stored.withDown {p : Params} {x : Chan} (h : x.Stored p) {cl dl : Vector Bank 6}
    (hcl : LinesWf p.kMax cl) (hdl : LinesWf (2 * p.kMax) dl) : { x with cl := cl, dl := dl }.Stored p := by
  obtain ⟨hul, _⟩ := (Chan.stored_iff p x).1 h
  exact (Chan.stored_iff ..).2 ⟨hul, hdl, hcl⟩

theorem LinesWf.set {size : Nat} {v : Vector Bank 6} (h : LinesWf size v) (n : Nat) {l : Bank} (hl : l.wf size = true) :
    LinesWf size (v.setIfInBounds n l) := by
  intro m hm
  by_cases hmn : n = m
  · subst hmn
    simpa [lineAt, hm] using hl
  · simpa [lineAt, Vector.getElem?_setIfInBounds_ne hmn] using h m hm

section
variable {size : Nat} (u : Fpu) {g : Stage}

theorem runUp_wf (hk : 2 * g.ku ≤ size) (hs : 0 < size) (vs : List Word) {l : Bank} (hl : l.wf size = true) :
    (runUp u g l vs).1.wf size = true := by
  induction vs generalizing l with
  | nil => exact hl
  | cons v rest ih => exact ih (Bank.wf_shiftIn hl hk hs v)

/-- A stage's down path takes its samples in pairs: the recursion of `runDown`. -/
theorem runDown_wf {size' : Nat} (hk : g.kd ≤ size) (hs : 0 < size) (hk' : 2 * g.kd ≤ size') (hs' : 0 < size')
    (cl dl : Bank) (vs : List Word) (hcl : cl.wf size = true) (hdl : dl.wf size' = true) :
    (runDown u g cl dl vs).1.wf size = true ∧ (runDown u g cl dl vs).2.1.wf size' = true := by
  induction cl, dl, vs using runDown.induct u g with
  | case1 cl dl v0 v1 rest r ih => exact ih (Bank.wf_shiftIn hcl hk hs v0) (Bank.wf_shiftIn hdl hk' hs' v1)
  | case2 | case3 => exact ⟨hcl, hdl⟩

end

section
variable {s : State} (hs : s.IntsLegal) (u : Fpu)
include hs

theorem cascadeUp_wf {n : Nat} (hn : n ≤ 6) {q : Vector Bank 6 × List Word} (hq : LinesWf (2 * s.par.kMax) q.1) :
    LinesWf (2 * s.par.kMax) (cascadeUp u s n q).1 := by
  induction n with
  | zero => exact hq
  | succ m ih =>
    have hlines := ih (by omega)
    obtain ⟨hku, hku', _⟩ := hs.stage (show m < 6 by omega)
    exact hlines.set m (runUp_wf _ (by omega) (by omega) _ (hlines m (by omega)))

theorem cascadeDown_stored {n : Nat} (hn : n ≤ 6) {x : Chan} (hx : x.Stored s.par) (seq : List Word) :
    (cascadeDown u s n x seq).1.Stored s.par := by
  induction n generalizing x seq with
  | zero => exact hx
  | succ m ih =>
    obtain ⟨_, hdl, hcl⟩ := (Chan.stored_iff ..).1 hx
    obtain ⟨_, _, hkd, hkd'⟩ := hs.stage (show m < 6 by omega)
    obtain ⟨hcl', hdl'⟩ := runDown_wf (u.at m) hkd' (by omega) (Nat.mul_le_mul_left 2 hkd') (by omega)
      _ _ seq (hcl m (by omega)) (hdl m (by omega))
    exact ih (by omega) (hx.withDown (hcl.set m hcl') (hdl.set m hdl')) _

end

/-! ### Taps and configuration registers (R36, R102, R202) -/

/-- Only the tap paths 0 and 1 have an index (R202). -/
theorem Stage.Stored.writeTap {p : Params} {g : Stage} (h : g.Stored p) {idx sub : Nat} (hidx : sub ≤ 1 → idx < p.kMax)
    (v : Word) : (writeTap g idx sub v).Stored p := by
  obtain ⟨htu, htd⟩ := h
  unfold Machine.writeTap
  split
  case h_1 => exact ⟨Bank.wf_write htu (hidx (by omega)) v, htd⟩
  case h_2 => exact ⟨htu, Bank.wf_write htd (hidx (by omega)) v⟩
  all_goals exact ⟨htu, htd⟩

/-- No configuration register is an index space (R24). -/
theorem State.Stored.cfgWrite {s : State} (h : s.Stored) (bnd chs : BitVec 4) (sub n : Nat) :
    (cfgWrite s bnd chs sub n).Stored := by
  unfold Machine.cfgWrite
  split
  case h_4 => exact h.setBand bnd (h.band bnd)
  case h_5 | h_6 => exact h.setStage _ fun hchs => h.stage hchs
  all_goals exact h

/-! ### Every command and every step -/

section
variable {s : State}

theorem State.IntsLegal.cfgS_le (hs : s.IntsLegal) : s.cfgS ≤ 6 := by
  obtain ⟨_, _, _, hcfgS, _⟩ := hs
  exact hcfgS

theorem State.Stored.procEffect (h : s.Stored) (hs : s.IntsLegal) (b c : BitVec 4) (d : Word) :
    (procEffect b c d s).Stored := by
  obtain ⟨_, _, _, hst, _⟩ := h.band b
  obtain ⟨_, hactN, _⟩ := hs.band b
  exact State.Stored.emit (h.setBand b ((h.band b).withSt (runSections_wf _ _ c hactN hst))) _ _

theorem State.Stored.upEffect (h : s.Stored) (hs : s.IntsLegal) (c : BitVec 4) (d : Word) : (upEffect c d s).Stored := by
  obtain ⟨hul, _⟩ := (Chan.stored_iff ..).1 (h.chan c)
  exact State.Stored.emitAll (h.setChan c ((h.chan c).withUl (cascadeUp_wf hs _ hs.cfgS_le hul))) _ _

theorem State.Stored.downEffect (h : s.Stored) (hs : s.IntsLegal) (c : BitVec 4) : (downEffect c s).Stored := by
  have hdrained : Chan.Stored s.par { s.chan c with dq := (s.chan c).dq.drop (2 ^ s.cfgS) } := h.chan c
  exact State.Stored.emit (h.setChan c (cascadeDown_stored hs _ hs.cfgS_le hdrained _)) _ _

end

theorem command_keeps_stored {i : Instr} {s t : State} {own : List (Bool × ErrCode)} {e : State} (h : s.Stored)
    (hx : command i s own e = .next t) (heffect : firstFailure own = none → e.Stored) : t.Stored :=
  command_keeps h h.raise hx heffect

/-- The integers bound the indices: the active section count, the tracker's position and the tap counts. -/
theorem exec_keeps_stored (i : Instr) (s t : State) (hs : s.IntsLegal) (h : s.Stored) (hx : exec i s = .next t) :
    t.Stored := by
  cases i with
  | nop =>
    simp only [exec, execNop] at hx
    exact command_keeps_stored h hx fun _ => h
  | run | stop => exact command_keeps_stored h hx fun _ => h
  | cfgWr bnd chs sub d => exact command_keeps_stored h hx fun _ => h.cfgWrite bnd chs _ _
  | prepare => exact command_keeps_stored h hx fun _ => (h.mapBands fun _ hb => hb.prepareBand).resetChans
  | osReset => exact command_keeps_stored h hx fun _ => h.resetChans
  | rdStat =>
    simp only [exec, execRdStat] at hx
    split at hx
    · cases hx
      exact h.emit _ _
    · exact command_keeps_stored h hx fun _ => h.emit _ _
  | rdLat | rdPend _ | rmsGet _ | knEval _ _ | bqRds _ _ _ => exact command_keeps_stored h hx fun _ => h.emit _ _
  | blk b => exact command_keeps_stored h hx fun _ => h.setBand b ((h.band b).blockBoundary s.fpu)
  | prWr b sub d => exact command_keeps_stored h hx fun _ => h.setBand b ((h.band b).stageParam _ _ _ d)
  | bqWrc b idx sub d =>
    refine command_keeps_stored h hx fun ho => ?_
    simp only [firstFailure_eq_none_iff, List.forall_mem_cons, decide_eq_false_iff_not] at ho
    obtain ⟨_, hidx, hsub, _⟩ := ho
    obtain ⟨hstgC, _⟩ := h.band b
    exact h.setBand b ((h.band b).withStgC (Bank.wf_write hstgC (by omega) _))
  | bqRstreq b | foReset b | bqCommit b _ | bqWrn b _ | rmsAcc b _ =>
    exact command_keeps_stored h hx fun _ => h.setBand b (h.band b)
  | bqReset b => exact command_keeps_stored h hx fun _ => h.setBand b (h.band b).resetCascade
  | bqProc b c d => exact command_keeps_stored h hx fun _ => h.procEffect hs b c d
  | bqSnap b => exact command_keeps_stored h hx fun _ => h.setBand b (h.band b).snapshot
  | rmsPush b =>
    obtain ⟨_, _, _, _, _, hpos, _⟩ := hs.band b
    exact command_keeps_stored h hx fun _ => h.setBand b ((h.band b).rmsPush hpos s.fpu)
  | rmsReset b => exact command_keeps_stored h hx fun _ => h.setBand b (h.band b).rmsClear
  | foStep b d =>
    exact command_keeps_stored h hx fun _ => State.Stored.emit (h.setBand b ((h.band b).followStep _ _ _)) _ _
  | dyRun b =>
    exact command_keeps_stored h hx fun _ => State.Stored.emit (h.setBand b ((h.band b).dynamicsCycle _ _)) _ _
  | osWrt st idx sub d =>
    refine command_keeps_stored h hx fun ho => ?_
    simp only [firstFailure_eq_none_iff, List.forall_mem_cons, Bool.and_eq_false_iff, decide_eq_false_iff_not] at ho
    obtain ⟨_, _, hidx, _⟩ := ho
    exact h.setStage _ fun hst => (h.stage hst).writeTap (by omega) _
  | osUp c d => exact command_keeps_stored h hx fun _ => h.upEffect hs c d
  | osWr c d => exact command_keeps_stored h hx fun _ => h.setChan c (h.chan c)
  | osDown c => exact command_keeps_stored h hx fun _ => h.downEffect hs c

/-- Settles O52: the index spaces are kept together with the integers that bound their indices. -/
theorem stepKeepsIndexSpacesCanonical : Obligations.StepKeepsIndexSpacesCanonical := by
  unfold Obligations.StepKeepsIndexSpacesCanonical
  intro s t hs hst h
  exact step_keeps (fun s => s.IntsLegal ∧ s.Stored)
    (fun s ⟨hs, _⟩ => ⟨hs.hardwareReset, State.resetWith_stored s.par⟩)
    (fun _ p ⟨hs, hst⟩ => ⟨hs.accept p, hst.accept p⟩)
    (fun _ k hd ⟨hs, hst⟩ => ⟨hs.raise k hd, hst.raise k hd⟩)
    (fun i s t ⟨hs, hst⟩ h => ⟨exec_keeps_intsLegal i s t hs h, exec_keeps_stored i s t hs hst h⟩) ⟨hs, hst⟩ h

end Sys2Proof.Machine

/-!
The staged and active parameters stay in their ranges (10_state.md R25; 40_system.md R110): what the setter's clamps answer, one
rule per update of a band that writes a parameter, then every command and every step.
-/

namespace Sys2Proof.Machine

/-! ### The clamps of the setter (R110) -/

theorem paramsLegal_kneeEps_finite {p : Params} (h : paramsLegal p = true) : isFinite p.fmt p.kneeEps = true := by
  simp only [paramsLegal, Bool.and_eq_true] at h
  tauto

theorem isFinite_one (f : Fmt) : isFinite f (ofInt f 1) = true := by cases f <;> decide

theorem isFinite_neg_one (f : Fmt) : isFinite f (fneg f (ofInt f 1)) = true := by cases f <;> decide

theorem isFinite_zero (f : Fmt) : isFinite f 0 = true := by cases f <;> decide

theorem fle_neg_one_one (f : Fmt) : fle f (fneg f (ofInt f 1)) (ofInt f 1) = true := by cases f <;> decide

theorem fle_neg_one_zero (f : Fmt) : fle f (fneg f (ofInt f 1)) 0 = true := by cases f <;> decide

theorem fle_zero_one (f : Fmt) : fle f 0 (ofInt f 1) = true := by cases f <;> decide

theorem fle_self_of_isFinite {f : Fmt} {a : Word} (h : isFinite f a = true) : fle f a a = true :=
  fle_self (isNaN_of_isFinite h)

theorem fle_of_isFinite_of_not_flt {f : Fmt} {a b : Word} (ha : isFinite f a = true) (hb : isFinite f b = true)
    (h : ¬ flt f a b = true) : fle f b a = true :=
  fle_of_not_flt (isNaN_of_isFinite ha) (isNaN_of_isFinite hb) (by simpa using h)

/-- A finite value raised to a finite bound is finite and not below it. -/
theorem raiseTo_legal {f : Fmt} {lo v : Word} (hlo : isFinite f lo = true) (hv : isFinite f v = true) :
    isFinite f (raiseTo f lo v) = true ∧ fle f lo (raiseTo f lo v) = true := by
  unfold raiseTo
  split
  · exact ⟨hlo, fle_self_of_isFinite hlo⟩
  · next h => exact ⟨hv, fle_of_isFinite_of_not_flt hv hlo h⟩

/-- The curve shape is clamped to -1 .. 1. -/
theorem clampParam_shape_legal (p : Params) {v : Word} (hv : isFinite p.fmt v = true) :
    isFinite p.fmt (clampParam p 3 v) = true ∧ fle p.fmt (fneg p.fmt (ofInt p.fmt 1)) (clampParam p 3 v) = true
      ∧ fle p.fmt (clampParam p 3 v) (ofInt p.fmt 1) = true := by
  have hone := isFinite_one p.fmt
  have hneg := isFinite_neg_one p.fmt
  simp only [clampParam]
  split
  · exact ⟨hneg, fle_self_of_isFinite hneg, fle_neg_one_one _⟩
  · next hlo =>
    split
    · exact ⟨hone, fle_neg_one_one _, fle_self_of_isFinite hone⟩
    · next hhi => exact ⟨hv, fle_of_isFinite_of_not_flt hv hneg hlo, fle_of_isFinite_of_not_flt hone hv hhi⟩

/-- An operand of ids 0 to 5 that is not refused is finite after narrowing. -/
theorem isFinite_narrow_of_accepted {u : Fpu} {id : Nat} {d : Word} (hv : prBadValue u id d = false) (hid : id ≤ 5) :
    isFinite u.fmt (narrow u 0 (parameterOperand d)) = true := by
  simpa [prBadValue, hid] using hv

/-! ### The parameters of a band -/

/-- The staged and the active copy of ids 0 to 5 are legal. -/
def Band.FloatsLegal (p : Params) (x : Band) : Prop := x.staged.FloatsLegal p ∧ x.active.FloatsLegal p

theorem DynParams.reset_floatsLegal {p : Params} (h : paramsLegal p = true) : (DynParams.reset p).FloatsLegal p := by
  have hzero := isFinite_zero p.fmt
  have hone := isFinite_one p.fmt
  have heps := paramsLegal_kneeEps_finite h
  exact ⟨hzero, hone, fle_self_of_isFinite hone, heps, fle_self_of_isFinite heps, hzero, fle_neg_one_zero _,
    fle_zero_one _, hzero, fle_self_of_isFinite hzero, hzero, fle_self_of_isFinite hzero⟩

theorem Band.reset_floatsLegal {p : Params} (h : paramsLegal p = true) : (Band.reset p).FloatsLegal p :=
  ⟨DynParams.reset_floatsLegal h, DynParams.reset_floatsLegal h⟩

section
variable {p : Params} {x : Band}

/-- The operand that `PR.WR` accepts is stored in its range: by the clamp of its id (R110). -/
theorem Band.FloatsLegal.stageParam (h : x.FloatsLegal p) (hp : paramsLegal p = true) {u : Fpu} (hu : u.fmt = p.fmt)
    {id : Nat} {d : Word} (hv : prBadValue u id d = false) : (stageParam p u id d x).FloatsLegal p := by
  obtain ⟨⟨ht, hr, hr', hw, hw', hc, hc', hc'', hra, hra', hrr, hrr'⟩, hactive⟩ := h
  have hfin (hid : id ≤ 5) : isFinite p.fmt (narrow u 0 (parameterOperand d)) = true :=
    hu ▸ isFinite_narrow_of_accepted hv hid
  unfold Machine.stageParam
  split
  case h_1 => exact ⟨⟨hfin (by omega), hr, hr', hw, hw', hc, hc', hc'', hra, hra', hrr, hrr'⟩, hactive⟩
  case h_2 =>
    obtain ⟨hv, hv'⟩ := raiseTo_legal (isFinite_one _) (hfin (by omega))
    exact ⟨⟨ht, hv, hv', hw, hw', hc, hc', hc'', hra, hra', hrr, hrr'⟩, hactive⟩
  case h_3 =>
    obtain ⟨hv, hv'⟩ := raiseTo_legal (paramsLegal_kneeEps_finite hp) (hfin (by omega))
    exact ⟨⟨ht, hr, hr', hv, hv', hc, hc', hc'', hra, hra', hrr, hrr'⟩, hactive⟩
  case h_4 =>
    obtain ⟨hv, hv', hv''⟩ := clampParam_shape_legal p (hfin (by omega))
    exact ⟨⟨ht, hr, hr', hw, hw', hv, hv', hv'', hra, hra', hrr, hrr'⟩, hactive⟩
  case h_5 =>
    obtain ⟨hv, hv'⟩ := raiseTo_legal (isFinite_zero _) (hfin (by omega))
    exact ⟨⟨ht, hr, hr', hw, hw', hc, hc', hc'', hv, hv', hrr, hrr'⟩, hactive⟩
  case h_6 =>
    obtain ⟨hv, hv'⟩ := raiseTo_legal (isFinite_zero _) (hfin (by omega))
    exact ⟨⟨ht, hr, hr', hw, hw', hc, hc', hc'', hra, hra', hv, hv'⟩, hactive⟩
  all_goals exact ⟨⟨ht, hr, hr', hw, hw', hc, hc', hc'', hra, hra', hrr, hrr'⟩, hactive⟩

/-- At the block boundary the active copy is the staged one or stays (R106, R111). -/
theorem Band.FloatsLegal.blockParams (h : x.FloatsLegal p) (u : Fpu) : (blockParams u x).FloatsLegal p := by
  obtain ⟨hstaged, hactive⟩ := h
  unfold Machine.blockParams Machine.applyParams
  split
  · split <;> exact ⟨hstaged, hstaged⟩
  · exact ⟨hstaged, hactive⟩

theorem Band.FloatsLegal.blockReset (h : x.FloatsLegal p) : (blockReset x).FloatsLegal p := by
  unfold Machine.blockReset
  split <;> exact h

theorem Band.FloatsLegal.blockActivate (h : x.FloatsLegal p) (u : Fpu) : (blockActivate u x).FloatsLegal p := by
  unfold Machine.blockActivate
  split <;> exact h

theorem Band.FloatsLegal.blockBoundary (h : x.FloatsLegal p) (u : Fpu) : (blockBoundary u x).FloatsLegal p :=
  ((h.blockParams (u.at 0)).blockReset).blockActivate (u.at 1)

theorem Band.FloatsLegal.withSt (h : x.FloatsLegal p) (st : Bank) : { x with st := st }.FloatsLegal p := h

theorem Band.FloatsLegal.followStep (h : x.FloatsLegal p) (u : Fpu) (w : Word) : (followStep p u x w).FloatsLegal p := h

theorem Band.FloatsLegal.dynamicsCycle (h : x.FloatsLegal p) (u : Fpu) : (dynamicsCycle p u x).FloatsLegal p := h

end

/-! ### Updates of the state -/

section
variable {s : State}

theorem State.ParamsInRange.params (h : s.ParamsInRange) : paramsLegal s.par = true := h.1

theorem State.ParamsInRange.band (h : s.ParamsInRange) (b : BitVec 4) : (s.band b).FloatsLegal s.par := by
  obtain ⟨_, hbands⟩ := h
  exact hbands b

theorem State.resetWith_paramsInRange {p : Params} (h : paramsLegal p = true) : (State.resetWith p).ParamsInRange := by
  refine ⟨h, fun b => ?_⟩
  rw [State.resetWith_band]
  exact Band.reset_floatsLegal h

theorem State.ParamsInRange.hardwareReset (h : s.ParamsInRange) : s.hardwareReset.ParamsInRange :=
  State.resetWith_paramsInRange h.params

theorem State.ParamsInRange.raise (h : s.ParamsInRange) (k : ErrCode) (hd : Header) : (s.raise k hd).ParamsInRange := h

theorem State.ParamsInRange.accept (h : s.ParamsInRange) (p : Port) : (s.accept p).ParamsInRange := by
  cases p <;> exact h

theorem State.ParamsInRange.emit (h : s.ParamsInRange) (p : Port) (w : Word) : (s.emit p w).ParamsInRange := by
  cases p <;> exact h

theorem State.ParamsInRange.setBand (h : s.ParamsInRange) (b : BitVec 4) {x : Band} (hx : x.FloatsLegal s.par) :
    (s.setBand b x).ParamsInRange := by
  obtain ⟨hp, hbands⟩ := h
  refine ⟨hp, fun b' => ?_⟩
  rw [State.setBand_band_eq]
  split
  · exact hx
  · exact hbands b'

theorem State.ParamsInRange.mapBands (h : s.ParamsInRange) {f : Band → Band}
    (hf : ∀ x : Band, x.FloatsLegal s.par → (f x).FloatsLegal s.par) :
    { s with bands := s.bands.map f }.ParamsInRange := by
  obtain ⟨hp, hbands⟩ := h
  refine ⟨hp, fun b => ?_⟩
  rw [State.mapBands_band]
  exact hf _ (hbands b)

theorem State.ParamsInRange.procEffect (h : s.ParamsInRange) (b c : BitVec 4) (d : Word) :
    (procEffect b c d s).ParamsInRange := by
  unfold Machine.procEffect
  exact State.ParamsInRange.emit (h.setBand b ((h.band b).withSt _)) _ _

/-- A configuration register is no parameter (R24). -/
theorem State.ParamsInRange.cfgWrite (h : s.ParamsInRange) (bnd chs : BitVec 4) (sub n : Nat) :
    (cfgWrite s bnd chs sub n).ParamsInRange := by
  unfold Machine.cfgWrite
  split
  case h_4 => exact h.setBand bnd (h.band bnd)
  all_goals exact h

end

/-! ### Every command and every step -/

theorem command_keeps_paramsInRange {i : Instr} {s t : State} {own : List (Bool × ErrCode)} {e : State}
    (hs : s.ParamsInRange) (h : command i s own e = .next t) (heffect : firstFailure own = none → e.ParamsInRange) :
    t.ParamsInRange :=
  command_keeps hs hs.raise h heffect

/-- Only `PR.WR` writes a staged parameter and only `BLK` an active one. -/
theorem exec_keeps_paramsInRange (i : Instr) (s t : State) (hs : s.ParamsInRange) (h : exec i s = .next t) :
    t.ParamsInRange := by
  cases i with
  | nop =>
    simp only [exec, execNop] at h
    exact command_keeps_paramsInRange hs h fun _ => hs
  | run | stop | osReset | osUp _ _ | osWr _ _ | osWrt _ _ _ _ | osDown _ =>
    exact command_keeps_paramsInRange hs h fun _ => hs
  | cfgWr bnd chs sub d => exact command_keeps_paramsInRange hs h fun _ => hs.cfgWrite bnd chs _ _
  | prepare => exact command_keeps_paramsInRange hs h fun _ => hs.mapBands fun _ hx => hx
  | rdStat =>
    simp only [exec, execRdStat] at h
    split at h
    · cases h
      exact hs.emit _ _
    · exact command_keeps_paramsInRange hs h fun _ => hs.emit _ _
  | rdLat | rdPend _ | rmsGet _ | knEval _ _ | bqRds _ _ _ =>
    exact command_keeps_paramsInRange hs h fun _ => hs.emit _ _
  | blk b => exact command_keeps_paramsInRange hs h fun _ => hs.setBand b ((hs.band b).blockBoundary s.fpu)
  | prWr b sub d =>
    refine command_keeps_paramsInRange hs h fun ho => ?_
    simp only [firstFailure_eq_none_iff, List.forall_mem_cons] at ho
    obtain ⟨_, _, hv, _⟩ := ho
    exact hs.setBand b ((hs.band b).stageParam hs.params rfl hv)
  | bqRstreq b | bqReset b | bqSnap b | rmsPush b | rmsReset b | foReset b | bqWrc b _ _ _ | bqWrn b _ | bqCommit b _
  | rmsAcc b _ =>
    exact command_keeps_paramsInRange hs h fun _ => hs.setBand b (hs.band b)
  | bqProc b c d =>
    exact command_keeps_paramsInRange hs h fun _ => hs.procEffect b c d
  | foStep b d =>
    exact command_keeps_paramsInRange hs h fun _ =>
      State.ParamsInRange.emit (hs.setBand b ((hs.band b).followStep _ _)) _ _
  | dyRun b =>
    exact command_keeps_paramsInRange hs h fun _ =>
      State.ParamsInRange.emit (hs.setBand b ((hs.band b).dynamicsCycle _)) _ _

/-- Settles O53: reset establishes the ranges; the setter's clamps and the block boundary keep them. -/
theorem stepKeepsParametersInRange : Obligations.StepKeepsParametersInRange := by
  unfold Obligations.StepKeepsParametersInRange
  intro s t hs h
  exact step_keeps State.ParamsInRange (fun _ hs => hs.hardwareReset) (fun _ p hs => hs.accept p)
    (fun _ k hd hs => hs.raise k hd) exec_keeps_paramsInRange hs h

end Sys2Proof.Machine

/-!
The mode, the fault fields and the queues stay consistent (10_state.md R22, R23, R38; 40_system.md R104; 60_exceptions.md
R251), and what a command keeps when its mode condition is taken into account.
-/

namespace Sys2Proof.Machine

/-- `command_keeps` for an effect that is good only in the mode the command asks for (R259). -/
theorem command_keeps_in_mode {P : State → Prop} {i : Instr} {s t : State} {own : List (Bool × ErrCode)} {e : State}
    (hs : P s) (hraise : ∀ k h, P (s.raise k h)) (h : command i s own e = .next t)
    (heffect : modeOk i.op.when s = true → firstFailure own = none → P e) : P t := by
  rcases command_inv h with ⟨_, rfl⟩ | ⟨_, k, rfl⟩ | ⟨_, _, _, hm, ho, rfl⟩
  · exact hs
  · exact hraise k _
  · exact heffect hm ho

theorem modeOk_stopped {s : State} (h : modeOk .stopped s = true) : s.running = false := by simpa [modeOk] using h

theorem modeOk_stoppedAndPrepared {s : State} (h : modeOk .stoppedAndPrepared s = true) : s.prepared = true := by
  simp only [modeOk, Bool.and_eq_true] at h
  exact h.2

theorem ErrCode.code_range (k : ErrCode) : 1 ≤ k.code.toNat ∧ k.code.toNat ≤ 9 := by cases k <;> decide

/-! ### Updates of the state -/

section
variable {s : State}

theorem State.resetWith_modeConsistent (p : Params) : (State.resetWith p).ModeConsistent :=
  ⟨nofun, fun _ => ⟨rfl, rfl, rfl⟩, nofun, nofun⟩

theorem State.ModeConsistent.raise (h : s.ModeConsistent) (k : ErrCode) (hd : Header) :
    (s.raise k hd).ModeConsistent := by
  obtain ⟨hrun, _, _, hqueue⟩ := h
  exact ⟨hrun, nofun, fun _ => k.code_range, hqueue⟩

theorem State.ModeConsistent.accept (h : s.ModeConsistent) (p : Port) : (s.accept p).ModeConsistent := by
  cases p <;> exact h

theorem State.ModeConsistent.emit (h : s.ModeConsistent) (p : Port) (w : Word) : (s.emit p w).ModeConsistent := by
  cases p <;> exact h

theorem State.ModeConsistent.emitAll (h : s.ModeConsistent) (p : Port) (ws : List Word) :
    (s.emitAll p ws).ModeConsistent := by
  cases p <;> exact h

theorem State.ModeConsistent.setBand (h : s.ModeConsistent) (b : BitVec 4) (x : Band) :
    (s.setBand b x).ModeConsistent := h

theorem State.ModeConsistent.setChan (h : s.ModeConsistent) (c : BitVec 4) {x : Chan}
    (hx : (s.chan c).dq.length ≤ dqCap s → x.dq.length ≤ dqCap s) : (s.setChan c x).ModeConsistent := by
  obtain ⟨hrun, hok, herr, hqueue⟩ := h
  refine ⟨hrun, hok, herr, fun hprep c' => ?_⟩
  rw [State.setChan_chan_eq]
  split
  · exact hx (hqueue hprep c)
  · exact hqueue hprep c'

/-- Empty queues are within every capacity. -/
theorem State.ModeConsistent.resetChans (h : s.ModeConsistent) :
    { s with chans := Vector.replicate 16 Chan.reset }.ModeConsistent := by
  obtain ⟨hrun, hok, herr, _⟩ := h
  refine ⟨hrun, hok, herr, fun _ c => ?_⟩
  rw [State.resetChans_chan]
  exact Nat.zero_le _

/-- `PREPARE` empties every queue before it sets `PREPARED` (R103). -/
theorem State.ModeConsistent.prepare (h : s.ModeConsistent) (bands : Vector Band 16) :
    { s with bands := bands, chans := Vector.replicate 16 Chan.reset, prepared := true }.ModeConsistent := by
  obtain ⟨_, hok, herr, _⟩ := h
  refine ⟨fun _ => rfl, hok, herr, fun _ c => ?_⟩
  rw [show State.chan _ c = Chan.reset by simp [State.chan]]
  exact Nat.zero_le _

theorem State.ModeConsistent.run (h : s.ModeConsistent) (hprep : s.prepared = true) :
    { s with running := true }.ModeConsistent := by
  obtain ⟨_, hok, herr, hqueue⟩ := h
  exact ⟨fun _ => hprep, hok, herr, hqueue⟩

theorem State.ModeConsistent.stop (h : s.ModeConsistent) : { s with running := false }.ModeConsistent := by
  obtain ⟨_, hok, herr, hqueue⟩ := h
  exact ⟨nofun, hok, herr, hqueue⟩

/-- A capacity may change only while `PREPARED` is cleared, in mode STOPPED (R102). -/
theorem State.ModeConsistent.cfgWrite (h : s.ModeConsistent) (hstop : s.running = false) (bnd chs : BitVec 4)
    (sub n : Nat) : { cfgWrite s bnd chs sub n with prepared := false }.ModeConsistent := by
  obtain ⟨_, hok, herr, _⟩ := h
  have hrun : s.running = true → false = true := fun hr => by rw [hstop] at hr; exact hr
  unfold Machine.cfgWrite
  split <;> exact ⟨hrun, hok, herr, nofun⟩

theorem State.ModeConsistent.writeTap (h : s.ModeConsistent) (hstop : s.running = false) (n : Nat) (g : Stage) :
    { s.setStage n g with prepared := false }.ModeConsistent := by
  obtain ⟨_, hok, herr, _⟩ := h
  exact ⟨fun hr => by rw [← hr, ← hstop]; rfl, hok, herr, nofun⟩

/-! ### The queues (46_oversampler.md R206 to R209) -/

/-- The stages take their samples from the sequence, not from the queue. -/
theorem cascadeDown_dq (u : Fpu) (s : State) (n : Nat) (x : Chan) (seq : List Word) :
    (cascadeDown u s n x seq).1.dq = x.dq := by
  induction n generalizing x seq with
  | zero => rfl
  | succ m ih => exact ih _ _

theorem State.ModeConsistent.upEffect (h : s.ModeConsistent) (c : BitVec 4) (d : Word) :
    (upEffect c d s).ModeConsistent := by
  refine State.ModeConsistent.emitAll (h.setChan c ?_) _ _
  exact id

theorem State.ModeConsistent.downEffect (h : s.ModeConsistent) (c : BitVec 4) : (downEffect c s).ModeConsistent := by
  refine State.ModeConsistent.emit (h.setChan c fun hlen => ?_) _ _
  rw [cascadeDown_dq, List.length_drop]
  exact (Nat.sub_le _ _).trans hlen

end

/-! ### Every command and every step -/

theorem command_keeps_modeConsistent {i : Instr} {s t : State} {own : List (Bool × ErrCode)} {e : State}
    (hs : s.ModeConsistent) (h : command i s own e = .next t)
    (heffect : modeOk i.op.when s = true → firstFailure own = none → e.ModeConsistent) : t.ModeConsistent :=
  command_keeps_in_mode hs hs.raise h heffect

/-- No command on a band touches the mode, the fault fields or a queue. -/
theorem exec_keeps_modeConsistent (i : Instr) (s t : State) (hs : s.ModeConsistent) (h : exec i s = .next t) :
    t.ModeConsistent := by
  cases i with
  | nop =>
    simp only [exec, execNop] at h
    exact command_keeps_modeConsistent hs h fun _ _ => hs
  | cfgWr bnd chs sub d =>
    exact command_keeps_modeConsistent hs h fun hm _ => hs.cfgWrite (modeOk_stopped hm) bnd chs _ _
  | prepare => exact command_keeps_modeConsistent hs h fun _ _ => hs.prepare _
  | run => exact command_keeps_modeConsistent hs h fun hm _ => hs.run (modeOk_stoppedAndPrepared hm)
  | stop => exact command_keeps_modeConsistent hs h fun _ _ => hs.stop
  | rdStat =>
    simp only [exec, execRdStat] at h
    split at h
    · cases h
      exact hs.emit _ _
    · exact command_keeps_modeConsistent hs h fun _ _ => hs.emit _ _
  | rdLat | rdPend _ | rmsGet _ | knEval _ _ | bqRds _ _ _ =>
    exact command_keeps_modeConsistent hs h fun _ _ => hs.emit _ _
  | blk b | bqRstreq b | bqReset b | bqSnap b | rmsPush b | rmsReset b | foReset b | prWr b _ _ | bqWrc b _ _ _ | bqWrn b _
  | bqCommit b _ | rmsAcc b _ =>
    exact command_keeps_modeConsistent hs h fun _ _ => hs.setBand b _
  | dyRun b | foStep b _ | bqProc b _ _ =>
    exact command_keeps_modeConsistent hs h fun _ _ => State.ModeConsistent.emit (hs.setBand b _) _ _
  | osWrt st idx sub d =>
    exact command_keeps_modeConsistent hs h fun hm _ => hs.writeTap (modeOk_stopped hm) _ _
  | osUp c d => exact command_keeps_modeConsistent hs h fun _ _ => hs.upEffect c d
  | osWr c d =>
    refine command_keeps_modeConsistent hs h fun _ ho => hs.setChan c fun _ => ?_
    simp only [firstFailure_eq_none_iff, List.forall_mem_cons, decide_eq_false_iff_not] at ho
    obtain ⟨_, hroom, _⟩ := ho
    rw [List.length_append, List.length_singleton]
    omega
  | osDown c => exact command_keeps_modeConsistent hs h fun _ _ => hs.downEffect c
  | osReset => exact command_keeps_modeConsistent hs h fun _ _ => hs.resetChans

/-- Settles O54: reset establishes consistency; accepting a command, a fault and every command in its mode keep it. -/
theorem stepKeepsModesConsistent : Obligations.StepKeepsModesConsistent := by
  unfold Obligations.StepKeepsModesConsistent
  intro s t hs h
  exact step_keeps State.ModeConsistent (fun s _ => State.resetWith_modeConsistent s.par) (fun _ p hs => hs.accept p)
    (fun _ k hd hs => hs.raise k hd) exec_keeps_modeConsistent hs h

end Sys2Proof.Machine

/-!
What reset establishes (10_state.md R42), what one step runs (20_memory.md R67; 40_system.md R100), and what a step leaves
alone: the active state of a band outside its `BLK` (R28, R29, R33) and the configuration in mode RUNNING (R24, R36).
-/

namespace Sys2Proof.Machine

/-! ### After reset -/

/-- Settles O55: each invariant holds after reset for legal parameters, and the default parameters are legal. -/
theorem resetMeetsInvariants : Obligations.ResetMeetsInvariants := by
  unfold Obligations.ResetMeetsInvariants
  have hreset (p : Params) (h : paramsLegal p = true) : (State.resetWith p).IntsLegal ∧ (State.resetWith p).Stored
      ∧ (State.resetWith p).ParamsInRange ∧ (State.resetWith p).ModeConsistent :=
    ⟨State.resetWith_intsLegal h, State.resetWith_stored p, State.resetWith_paramsInRange h,
      State.resetWith_modeConsistent p⟩
  exact ⟨hreset, hreset (defaultParams .binary64) (by decide)⟩

/-! ### Which command a step runs -/

theorem pick_a_of_alone {s : State} {k : Cmd} (ha : s.nextCmd .a = some k) (hc : s.nextCmd .c = none) :
    s.pick = some (.a, k) := by simp [State.pick, ha, hc]

theorem pick_c_of_alone {s : State} {k : Cmd} (ha : s.nextCmd .a = none) (hc : s.nextCmd .c = some k) :
    s.pick = some (.c, k) := by simp [State.pick, ha, hc]

/-- The chosen port moves if it has a command, whether the other has one or not. -/
theorem pick_of_chosen {s : State} {p : Port} {k : Cmd} (hk : s.nextCmd p = some k) (hp : s.chosenPort = p) :
    s.pick = some (p, k) := by
  cases p with
  | a => cases hc : s.nextCmd .c <;> simp [State.pick, hk, hc, hp]
  | c => cases ha : s.nextCmd .a <;> simp [State.pick, hk, ha, hp]

theorem chosenPort_of_settled {s : State} {p : Port} {rest : List Input} (h : s.inputs = .port p :: rest) :
    s.chosenPort = p := by simp [State.chosenPort, h]

theorem step_of_pick {s : State} (hr : s.resetDueNow = false) {p : Port} {k : Cmd} (h : s.pick = some (p, k)) :
    step s = runWords k (s.accept p) := by simp [step, commandStep, hr, h]

theorem step_of_no_command {s : State} (hr : s.resetDueNow = false) (ha : s.nextCmd .a = none)
    (hc : s.nextCmd .c = none) : step s = .fault .runOver := by
  simp [step, commandStep, hr, (pick_none_iff s).2 ⟨ha, hc⟩]

/-- Settles O45, by which of the ports have a next command. -/
theorem stepRunsDecodedCommand : Obligations.StepRunsDecodedCommand := by
  unfold Obligations.StepRunsDecodedCommand
  intro s hr
  refine ⟨?_, ?_, ?_, step_of_no_command hr, fun k i s' h => runWords_ok h s'⟩
  · rintro ka ha (hc | ⟨rest, hin⟩)
    · exact step_of_pick hr (pick_a_of_alone ha hc)
    · exact step_of_pick hr (pick_of_chosen (p := .a) ha (chosenPort_of_settled hin))
  · rintro kc hc (ha | ⟨rest, hin⟩)
    · exact step_of_pick hr (pick_c_of_alone ha hc)
    · exact step_of_pick hr (pick_of_chosen (p := .c) hc (chosenPort_of_settled hin))
  · intro ka kc ha hc
    cases hp : s.chosenPort with
    | a => exact .inl (step_of_pick hr (pick_of_chosen ha hp))
    | c => exact .inr (step_of_pick hr (pick_of_chosen hc hp))

/-- All that a step without reset can do, read from the state it answers: one instruction of the port that moves, or, for words
that are none, a fault or nothing. -/
theorem step_inv {s t : State} (hr : s.resetDueNow = false) (h : step s = .next t) :
    ∃ p k, s.pick = some (p, k) ∧ ((∃ i, decode k = .ok i ∧ exec i (s.accept p) = .next t) ∨ t = s.accept p
      ∨ ∃ code, t = (s.accept p).raise code k.h) := by
  rcases step_cases s with ⟨hr', _⟩ | ⟨_, _, h'⟩ | ⟨_, p, k, hpick, h'⟩
  · rw [hr] at hr'; cases hr'
  · rw [h'] at h; cases h
  · refine ⟨p, k, hpick, ?_⟩
    rw [h'] at h
    have hreject (o : Option Op) : rejectWords o k.h (s.accept p) = s.accept p
        ∨ ∃ code, rejectWords o k.h (s.accept p) = (s.accept p).raise code k.h := by
      rcases rejectWords_cases o k.h (s.accept p) with ⟨_, e⟩ | ⟨_, _, e⟩ | ⟨_, _, _, _, e⟩ | ⟨_, _, _, _, e⟩
      · exact .inl e
      all_goals exact .inr ⟨_, e⟩
    rcases runWords_cases k (s.accept p) with ⟨i, hi, h2⟩ | ⟨_, h2⟩ | ⟨o, _, h2⟩
    · exact .inl ⟨i, hi, h2 ▸ h⟩
    · rw [h2] at h; cases h
      exact .inr (hreject none)
    · rw [h2] at h; cases h
      exact .inr (hreject (some o))

/-! ### The active state of a band -/

/-- The two bands agree in what only `BLK` of the band may change: the active count and coefficients, the SVF bank, the
active parameters, the knee cache and the window length. -/
def Band.SameActive (x y : Band) : Prop :=
  y.actN = x.actN ∧ y.actC = x.actC ∧ y.actV = x.actV ∧ y.active = x.active ∧ y.knee = x.knee ∧ y.rmsW = x.rmsW

theorem Band.SameActive.refl (x : Band) : x.SameActive x := ⟨rfl, rfl, rfl, rfl, rfl, rfl⟩

theorem stageParam_sameActive (p : Params) (u : Fpu) (id : Nat) (d : Word) (x : Band) :
    x.SameActive (stageParam p u id d x) := by
  unfold stageParam
  split <;> exact .refl x

theorem followStep_sameActive (p : Params) (u : Fpu) (x : Band) (w : Word) : x.SameActive (followStep p u x w) :=
  .refl x

theorem dynamicsCycle_sameActive (p : Params) (u : Fpu) (x : Band) : x.SameActive (dynamicsCycle p u x) := .refl x

section
variable (s : State) (b : BitVec 4)

theorem setBand_sameActive {b' : BitVec 4} {x : Band} (h : (s.band b').SameActive x) :
    (s.band b).SameActive ((s.setBand b' x).band b) := by
  rw [State.setBand_band_eq]
  split
  · next hb => exact hb ▸ h
  · exact .refl _

theorem emit_sameActive (p : Port) (w : Word) : (s.band b).SameActive ((s.emit p w).band b) := by
  rw [State.emit_band]
  exact .refl _

theorem setBand_emit_sameActive {b' : BitVec 4} {x : Band} (h : (s.band b').SameActive x) (p : Port) (w : Word) :
    (s.band b).SameActive (((s.setBand b' x).emit p w).band b) := by
  rw [State.emit_band]
  exact setBand_sameActive s b h

theorem mapBands_sameActive {f : Band → Band} (hf : ∀ x : Band, x.SameActive (f x)) :
    (s.band b).SameActive (State.band { s with bands := s.bands.map f } b) := by
  rw [State.mapBands_band]
  exact hf _

theorem cfgWrite_sameActive (bnd chs : BitVec 4) (sub n : Nat) :
    (s.band b).SameActive ((cfgWrite s bnd chs sub n).band b) := by
  unfold cfgWrite
  split
  case h_4 => exact setBand_sameActive s b (.refl (s.band bnd))
  all_goals exact .refl _

theorem procEffect_sameActive (b' c : BitVec 4) (d : Word) :
    (s.band b).SameActive ((procEffect b' c d s).band b) := by
  unfold procEffect
  refine setBand_emit_sameActive s b ?_ _ _
  exact .refl (s.band b')

end

theorem command_keeps_active {i : Instr} {s t : State} {own : List (Bool × ErrCode)} {e : State} {b : BitVec 4}
    (h : command i s own e = .next t) (heffect : (s.band b).SameActive (e.band b)) :
    (s.band b).SameActive (t.band b) :=
  command_keeps (P := fun t => (s.band b).SameActive (t.band b)) (.refl _) (fun _ _ => .refl _) h fun _ => heffect

theorem exec_keeps_active (i : Instr) (s t : State) (b : BitVec 4) (hi : i ≠ .blk b) (h : exec i s = .next t) :
    (s.band b).SameActive (t.band b) := by
  cases i with
  | nop =>
    simp only [exec, execNop] at h
    exact command_keeps_active h (.refl _)
  | run | stop | osReset | osUp _ _ | osWr _ _ | osWrt _ _ _ _ | osDown _ =>
    exact command_keeps_active h (.refl _)
  | cfgWr bnd chs sub d => exact command_keeps_active h (cfgWrite_sameActive s b bnd chs _ _)
  | prepare => exact command_keeps_active h (mapBands_sameActive s b fun x => .refl x)
  | rdStat =>
    simp only [exec, execRdStat] at h
    split at h
    · cases h
      exact emit_sameActive s b _ _
    · exact command_keeps_active h (emit_sameActive s b _ _)
  | rdLat | rdPend _ | rmsGet _ | knEval _ _ | bqRds _ _ _ =>
    exact command_keeps_active h (emit_sameActive s b _ _)
  | blk b' =>
    have hb : b ≠ b' := fun hb => hi (hb ▸ rfl)
    refine command_keeps_active h ?_
    rw [State.setBand_band_ne _ _ hb]
    exact .refl _
  | prWr b' sub d => exact command_keeps_active h (setBand_sameActive s b (stageParam_sameActive _ _ _ d (s.band b')))
  | bqRstreq b' | bqReset b' | bqSnap b' | rmsPush b' | rmsReset b' | foReset b' | bqWrc b' _ _ _ | bqWrn b' _
  | bqCommit b' _ | rmsAcc b' _ =>
    exact command_keeps_active h (setBand_sameActive s b (.refl (s.band b')))
  | bqProc b' c d => exact command_keeps_active h (procEffect_sameActive s b b' c d)
  | foStep b' d =>
    exact command_keeps_active h (setBand_emit_sameActive s b (followStep_sameActive _ _ (s.band b') _) _ _)
  | dyRun b' =>
    exact command_keeps_active h (setBand_emit_sameActive s b (dynamicsCycle_sameActive _ _ (s.band b')) _ _)

/-- Settles O56: accepting a command and a fault change no band, and no instruction but `BLK` the active state of one. -/
theorem onlyBlkActivates : Obligations.OnlyBlkActivates := by
  unfold Obligations.OnlyBlkActivates
  intro s t p k b hr hpick hk h
  obtain ⟨p', k', hpick', hstep⟩ := step_inv hr h
  obtain ⟨rfl, rfl⟩ : p = p' ∧ k = k' := by simpa [hpick] using hpick'
  have hsame : ((s.accept p).band b).SameActive (t.band b) := by
    rcases hstep with ⟨i, hi, hexec⟩ | rfl | ⟨code, rfl⟩
    · exact exec_keeps_active i _ t b (fun hblk => hk (hblk ▸ hi)) hexec
    · exact .refl _
    · exact .refl _
  rwa [State.accept_band] at hsame

/-! ### The configuration in mode RUNNING -/

/-- The two states agree in what the host configures: the registers of R24, the stages with their taps, and the topologies. -/
def State.SameConfig (s t : State) : Prop :=
  t.cfgNch = s.cfgNch ∧ t.cfgS = s.cfgS ∧ t.cfgMaxblk = s.cfgMaxblk ∧ t.stages = s.stages
    ∧ ∀ b : BitVec 4, (t.band b).topo = (s.band b).topo

theorem State.SameConfig.refl (s : State) : s.SameConfig s := ⟨rfl, rfl, rfl, rfl, fun _ => rfl⟩

theorem blockBoundary_topo (u : Fpu) (x : Band) : (blockBoundary u x).topo = x.topo := by
  obtain ⟨hframe, _⟩ := blockBoundary_frame u x
  rw [hframe]

theorem stageParam_topo (p : Params) (u : Fpu) (id : Nat) (d : Word) (x : Band) :
    (stageParam p u id d x).topo = x.topo := by
  unfold stageParam
  split <;> rfl

section
variable {s t : State}

theorem State.SameConfig.emit (h : s.SameConfig t) (p : Port) (w : Word) : s.SameConfig (t.emit p w) := by
  cases p <;> exact h

theorem State.SameConfig.setBand (h : s.SameConfig t) (b : BitVec 4) {x : Band} (hx : x.topo = (s.band b).topo) :
    s.SameConfig (t.setBand b x) := by
  obtain ⟨hnch, hcfgS, hblk, hstages, htopo⟩ := h
  refine ⟨hnch, hcfgS, hblk, hstages, fun b' => ?_⟩
  rw [State.setBand_band_eq]
  split
  · next hb => rw [hx, hb]
  · exact htopo b'

theorem accept_sameConfig (s : State) (p : Port) : s.SameConfig (s.accept p) := by cases p <;> exact .refl s

end

theorem command_keeps_config {i : Instr} {s t : State} {own : List (Bool × ErrCode)} {e : State}
    (h : command i s own e = .next t) (heffect : modeOk i.op.when s = true → s.SameConfig e) : s.SameConfig t :=
  command_keeps_in_mode (P := s.SameConfig) (.refl s) (fun _ _ => .refl s) h fun hm _ => heffect hm

theorem not_modeOk_stopped {s : State} (hrun : s.running = true) (h : modeOk .stopped s = true) : False := by
  rw [modeOk_stopped h] at hrun
  cases hrun

/-- The two commands that write the configuration, `CFG.WR` and `OS.WRT`, and `PREPARE` raise `MODE` (R259). -/
theorem exec_keeps_config (i : Instr) (s t : State) (hrun : s.running = true) (h : exec i s = .next t) :
    s.SameConfig t := by
  have hs := State.SameConfig.refl s
  cases i with
  | cfgWr _ _ _ _ | osWrt _ _ _ _ | prepare =>
    exact command_keeps_config h fun hm => (not_modeOk_stopped hrun hm).elim
  | nop =>
    simp only [exec, execNop] at h
    exact command_keeps_config h fun _ => hs
  | run | stop | osReset | osUp _ _ | osWr _ _ | osDown _ => exact command_keeps_config h fun _ => hs
  | rdStat =>
    simp only [exec, execRdStat] at h
    split at h
    · cases h
      exact hs.emit _ _
    · exact command_keeps_config h fun _ => hs.emit _ _
  | rdLat | rdPend _ | rmsGet _ | knEval _ _ | bqRds _ _ _ => exact command_keeps_config h fun _ => hs.emit _ _
  | blk b => exact command_keeps_config h fun _ => hs.setBand b (blockBoundary_topo s.fpu (s.band b))
  | prWr b sub d => exact command_keeps_config h fun _ => hs.setBand b (stageParam_topo _ _ _ d (s.band b))
  | bqRstreq b | bqReset b | bqSnap b | rmsPush b | rmsReset b | foReset b | bqWrc b _ _ _ | bqWrn b _ | bqCommit b _
  | rmsAcc b _ => exact command_keeps_config h fun _ => hs.setBand b rfl
  | bqProc b _ _ | foStep b _ | dyRun b =>
    refine command_keeps_config h fun _ => State.SameConfig.emit (hs.setBand b ?_) _ _
    rfl

/-- Settles O57: accepting a command and a fault leave the configuration, and so does every command in mode RUNNING. -/
theorem configurationFixedWhileRunning : Obligations.ConfigurationFixedWhileRunning := by
  unfold Obligations.ConfigurationFixedWhileRunning
  intro s t hr hrun h
  obtain ⟨p, k, _, ⟨i, _, hexec⟩ | rfl | ⟨code, rfl⟩⟩ := step_inv hr h
  · have hsame := exec_keeps_config i (s.accept p) t (by rwa [State.accept_running]) hexec
    simpa only [State.SameConfig, State.accept_cfgNch, State.accept_cfgS, State.accept_cfgMaxblk, State.accept_stages,
      State.accept_band] using hsame
  · exact accept_sameConfig s p
  · exact accept_sameConfig s p

end Sys2Proof.Machine

/-!
Channels never interact (10_state.md R30; 41_biquad_cascade.md R120): the section chain of a channel reads and writes the state
variables of that channel only.
-/

namespace Sys2Proof.Machine

/-! ### Where the section state of a channel lies (R30) -/

/-- The sixteen state variables of one channel do not meet those of another. -/
theorem stIndex_ne {c c' : BitVec 4} (h : c' ≠ c) {n n' i i' : Nat} (hn : n < 8) (hn' : n' < 8) (hi : i < 2)
    (hi' : i' < 2) : stIndex c' n' + i' ≠ stIndex c n + i := by
  have hne : c'.toNat ≠ c.toNat := fun e => h (BitVec.eq_of_toNat_eq e)
  simp only [stIndex]
  omega

/-- The two banks hold the same section state for channel `c`. -/
def AgreeOn (c : BitVec 4) (st st' : Bank) : Prop :=
  ∀ n i : Nat, n < 8 → i < 2 → st'.read (stIndex c n + i) = st.read (stIndex c n + i)

theorem AgreeOn.writeList {c : BitVec 4} {st st' : Bank} (h : AgreeOn c st st') (k : Nat) (xs : List Word) :
    AgreeOn c (st.writeList k xs) (st'.writeList k xs) := by
  intro n i hn hi
  rw [Bank.read_writeList, Bank.read_writeList, h n i hn hi]

/-! ### The section chain of a channel -/

/-- The section chain takes its coefficients from the band and the section state from its argument. -/
theorem runSections_withSt (u : Fpu) (x : Band) (st : Bank) (c : BitVec 4) (n : Nat) (q : Word × Bank) :
    runSections u { x with st := st } c n q = runSections u x c n q := by
  induction n with
  | zero => rfl
  | succ m ih =>
    simp only [runSections, ih]
    rfl

theorem runSection_agree (u : Fpu) (x : Band) {c : BitVec 4} {n : Nat} (hn : n < 8) {st st' : Bank}
    (h : AgreeOn c st st') (v : Word) :
    (runSection u x c n st' v).1 = (runSection u x c n st v).1
      ∧ AgreeOn c (runSection u x c n st v).2 (runSection u x c n st' v).2 := by
  have h0 : st'.read (stIndex c n) = st.read (stIndex c n) := h n 0 hn (by omega)
  have h1 : st'.read (stIndex c n + 1) = st.read (stIndex c n + 1) := h n 1 hn (by omega)
  simp only [runSection, h0, h1]
  exact ⟨trivial, h.writeList _ _⟩

/-- Two runs of the chain from section states that agree on the channel: one output, and new states that agree. -/
theorem runSections_agree (u : Fpu) (x : Band) {c : BitVec 4} {n : Nat} (hn : n ≤ 8) {st st' : Bank}
    (h : AgreeOn c st st') (w : Word) :
    (runSections u x c n (w, st')).1 = (runSections u x c n (w, st)).1
      ∧ AgreeOn c (runSections u x c n (w, st)).2 (runSections u x c n (w, st')).2 := by
  induction n with
  | zero => exact ⟨rfl, h⟩
  | succ m ih =>
    obtain ⟨hout, hst⟩ := ih (by omega)
    simp only [runSections, hout]
    exact runSection_agree u x (by omega) hst _

/-- The chain of one channel leaves the section state of every other channel. -/
theorem runSections_other_channel (u : Fpu) (x : Band) {c c' : BitVec 4} (hc : c' ≠ c) {n : Nat} (hn : n ≤ 8) (w : Word)
    (st : Bank) : AgreeOn c' st (runSections u x c n (w, st)).2 := by
  obtain ⟨_, _, _, _, hframe⟩ := runSections_spec u { x with st := st } c w n
  rw [runSections_withSt] at hframe
  exact fun m i hm hi => hframe _ fun m' i' hm' hi' => stIndex_ne hc (by omega) hm hi' hi

/-! ### BQ.PROC -/

theorem exec_bqProc {s : State} {b c : BitVec 4} (h : s.Processing) (hb : s.HasBand b) (hc : s.HasChan c) (d : Word) :
    exec (.bqProc b c d) s = .next (procEffect b c d s) := by
  obtain ⟨herr, hport, hrun⟩ := h
  refine command_completes _ herr ?_ rfl hrun ?_
  · rw [hport]
    rfl
  · have hb' : s.badBand b = false := by simpa [State.badBand] using hb
    have hc' : s.badChan c = false := by simpa [State.badChan] using hc
    simp [hb', hc']

theorem procEffect_st (b c : BitVec 4) (d : Word) (s : State) : ((procEffect b c d s).band b).st =
    (runSections s.fpu (s.band b) c (s.band b).actN (sampleOperand s.par.fmt d, (s.band b).st)).2 := by
  simp [procEffect]

theorem procEffect_respA (b c : BitVec 4) (d : Word) (s : State) : (procEffect b c d s).respA = s.respA ++
    [resultWord s.par.fmt
      (runSections s.fpu (s.band b) c (s.band b).actN (sampleOperand s.par.fmt d, (s.band b).st)).1] := by
  simp [procEffect]

/-- What `BQ.PROC` gives in a state that differs in the band's section state only: the same chain, run on that state. -/
theorem procEffect_withSt {s s' : State} {b : BitVec 4} (h : s' = s.setBand b { s.band b with st := (s'.band b).st })
    (c : BitVec 4) (d : Word) :
    let r := runSections s.fpu (s.band b) c (s.band b).actN (sampleOperand s.par.fmt d, (s'.band b).st)
    ((procEffect b c d s').band b).st = r.2 ∧ (procEffect b c d s').respA = s.respA ++ [resultWord s.par.fmt r.1] := by
  generalize (s'.band b).st = st at h ⊢
  subst h
  rw [procEffect_st, procEffect_respA]
  simp only [State.setBand_band, runSections_withSt]
  exact ⟨rfl, rfl⟩

/-- Settles O17: the second state is the first with another section state in the band, and the chain of channel `c` reads no more
of it than what the two states share. -/
theorem channelsNeverInteract : Obligations.ChannelsNeverInteract := by
  unfold Obligations.ChannelsNeverInteract
  intro s s' b c d hproc hb hc hactN hs' hagree
  have hexec' : exec (.bqProc b c d) s' = .next (procEffect b c d s') :=
    exec_bqProc (by rw [hs']; exact hproc) (by rw [hs']; exact hb) (by rw [hs']; exact hc) d
  obtain ⟨hst', hresp'⟩ := procEffect_withSt hs' c d
  obtain ⟨hout, hsame⟩ := runSections_agree s.fpu (s.band b) hactN hagree (sampleOperand s.par.fmt d)
  have hother {c' : BitVec 4} (hc' : c' ≠ c) (st : Bank) :=
    runSections_other_channel s.fpu (s.band b) hc' hactN (sampleOperand s.par.fmt d) st
  refine ⟨procEffect b c d s, _, _, exec_bqProc hproc hb hc d, hexec', procEffect_respA b c d s, by rw [hresp', hout], ?_,
    fun c' n i hc' hn hi => ⟨?_, ?_⟩⟩
  · rw [hst', procEffect_st]
    exact hsame
  · rw [procEffect_st]
    exact hother hc' _ n i hn hi
  · rw [hst']
    exact hother hc' _ n i hn hi

end Sys2Proof.Machine

/-!
The knee cache at reset (10_state.md R42; 43_knee_computer.md R166): the exact cases of the arithmetic that it turns on. A finite
value rounds to itself, +0 is neutral for the sum with a positive value, 1 for the product, and +0 divided by a positive value
is +0.
-/

namespace Sys2Proof.Machine

/-! ### Packing and unpacking (00_scope.md R8) -/

theorem signWeight_pos (f : Fmt) : 0 < signWeight f := by cases f <;> decide

theorem infMag_lt_signWeight (f : Fmt) : infMag f < signWeight f := by cases f <;> decide

theorem infMag_pos (f : Fmt) : 0 < infMag f := by cases f <;> decide

theorem two_mul_signWeight (f : Fmt) : 2 * signWeight f = 2 ^ width f := by cases f <;> decide

theorem pack_toNat (f : Fmt) (neg : Bool) {mag : Nat} (h : mag < signWeight f) :
    (pack f neg mag).toNat = mag + if neg then signWeight f else 0 := by
  have hw := two_mul_signWeight f
  have hle := two_pow_width_le f
  rw [pack, Nat.mod_eq_of_lt h, BitVec.toNat_ofNat]
  refine Nat.mod_eq_of_lt ?_
  split <;> omega

theorem pack_pos_toNat (f : Fmt) {mag : Nat} (h : mag < signWeight f) : (pack f false mag).toNat = mag :=
  pack_toNat f false h

theorem magBits_pack (f : Fmt) (neg : Bool) {mag : Nat} (h : mag < signWeight f) : magBits f (pack f neg mag) = mag := by
  rw [magBits, pack_toNat f neg h]
  cases neg <;> simp [Nat.mod_eq_of_lt h]

theorem signBit_pack_pos (f : Fmt) {mag : Nat} (h : mag < signWeight f) : signBit f (pack f false mag) = false := by
  rw [signBit, pack_pos_toNat f h, Nat.div_eq_of_lt h]
  rfl

theorem magBits_lt (f : Fmt) (w : Word) : magBits f w < signWeight f := Nat.mod_lt _ (signWeight_pos f)

/-- An encoding of the format without a sign is its magnitude bits. -/
theorem pack_magBits {f : Fmt} {w : Word} (hw : inFormat f w = true) (hs : signBit f w = false) :
    pack f false (magBits f w) = w := by
  simp only [inFormat, decide_eq_true_eq, ← two_mul_signWeight] at hw
  simp only [signBit, beq_eq_false_iff_ne] at hs
  have hq : w.toNat / signWeight f < 2 := Nat.div_lt_of_lt_mul (by rwa [Nat.mul_comm])
  have hq0 : w.toNat / signWeight f = 0 := by
    generalize w.toNat / signWeight f = q at hs hq
    omega
  have hlt : w.toNat < signWeight f := (Nat.div_eq_zero_iff_lt (signWeight_pos f)).1 hq0
  apply BitVec.eq_of_toNat_eq
  rw [magBits, Nat.mod_eq_of_lt hlt, pack_pos_toNat f hlt]

theorem zero_eq (f : Fmt) : zero f false = 0 := by cases f <;> decide

/-! ### A finite value rounds to itself (R9) -/

/-- A finite encoding's significand and exponent: the exponent counts from the least one, at which alone the significand may
have less than full length, and the two give back the magnitude bits. -/
theorem significand_exponent_spec (f : Fmt) (w : Word) : ∃ j : Nat, exponent f w = minExp f + j
    ∧ magBits f w = j * 2 ^ fracBits f + significand f w ∧ significand f w < 2 ^ (fracBits f + 1)
    ∧ (j = 0 ∨ 2 ^ fracBits f ≤ significand f w) := by
  have hpow : 0 < 2 ^ fracBits f := by positivity
  have hmod : magBits f w % 2 ^ fracBits f < 2 ^ fracBits f := Nat.mod_lt _ hpow
  have hdiv := Nat.div_add_mod' (magBits f w) (2 ^ fracBits f)
  simp only [significand, exponent, Nat.pow_succ]
  by_cases h : magBits f w < 2 ^ fracBits f
  · exact ⟨0, by simp [Nat.div_eq_of_lt h], by simp [h], by simp only [h, if_true]; omega, .inl rfl⟩
  · obtain ⟨n, hn⟩ : ∃ n, magBits f w / 2 ^ fracBits f = n + 1 :=
      Nat.exists_eq_add_one.2 (Nat.div_pos (by omega) hpow)
    rw [hn, Nat.succ_mul] at hdiv
    exact ⟨n, by simp [hn], by simp only [h, if_false]; omega, by simp only [h, if_false]; omega,
      .inr (by simp only [h, if_false]; omega)⟩

theorem bitLength_mul_two_pow {m : Nat} (hm : m ≠ 0) (k : Nat) : bitLength (m * 2 ^ k) = bitLength m + k := by
  have hm' : m * 2 ^ k ≠ 0 := by positivity
  obtain ⟨hlo, hhi⟩ := (Nat.log2_eq_iff hm).1 rfl
  have hlog : (m * 2 ^ k).log2 = m.log2 + k := by
    refine (Nat.log2_eq_iff hm').2 ⟨?_, ?_⟩
    · rw [Nat.pow_add]
      exact Nat.mul_le_mul_right _ hlo
    · rw [Nat.add_right_comm, Nat.pow_add _ _ k]
      exact Nat.mul_lt_mul_of_pos_right hhi (by positivity)
  simp only [bitLength, hm, hm', if_false, hlog]
  omega

theorem bitLength_le {m n : Nat} (h : m < 2 ^ n) : bitLength m ≤ n := by
  unfold bitLength
  split
  · omega
  · next hm => exact (Nat.log2_lt hm).2 h

theorem lt_bitLength {m n : Nat} (h : 2 ^ n ≤ m) : n < bitLength m := by
  have hm : m ≠ 0 := by have := Nat.two_pow_pos n; omega
  have hle : n ≤ m.log2 := (Nat.le_log2 hm).2 h
  simp only [bitLength, hm, if_false]
  omega

theorem shiftRoundEven_exact (m k : Nat) : shiftRoundEven (m * 2 ^ k) k false = m := by
  simp [shiftRoundEven]

/-- A value that the format holds rounds to its own magnitude bits, however many zeros its significand is given below. -/
theorem roundMag_exact (f : Fmt) {m j : Nat} (hm : m < 2 ^ (fracBits f + 1)) (hj : j = 0 ∨ 2 ^ fracBits f ≤ m)
    (k : Nat) : roundMag f (m * 2 ^ k) (minExp f + j - k) false = min (j * 2 ^ fracBits f + m) (infMag f) := by
  by_cases h0 : m = 0
  · obtain rfl : j = 0 := hj.resolve_right (by have := Nat.two_pow_pos (fracBits f); omega)
    simp [roundMag, h0]
  · have hlen := bitLength_le hm
    have hq : max (minExp f + j - k + (bitLength (m * 2 ^ k) : Nat) - (fracBits f + 1)) (minExp f) = minExp f + j := by
      rw [bitLength_mul_two_pow h0]
      rcases hj with rfl | hfull
      · omega
      · have := lt_bitLength hfull
        omega
    have hround : (if minExp f + j ≤ minExp f + j - k then m * 2 ^ k * 2 ^ (minExp f + j - k - (minExp f + j)).toNat
        else shiftRoundEven (m * 2 ^ k) (minExp f + j - (minExp f + j - k)).toNat false) = m := by
      split
      · obtain rfl : k = 0 := by omega
        simp
      · rw [show (minExp f + j - (minExp f + j - k)).toNat = k by omega, shiftRoundEven_exact]
    have h0' : m * 2 ^ k ≠ 0 := by positivity
    simp only [roundMag, h0', if_false, hq, hround]
    rw [show (minExp f + j - minExp f).toNat = j by omega]

/-! ### Positive finite encodings -/

/-- A positive finite encoding of the format. -/
structure PosFinite (f : Fmt) (w : Word) : Prop where
  inFormat : inFormat f w = true
  isFinite : isFinite f w = true
  signBit : signBit f w = false
  magBits_pos : 0 < magBits f w

theorem PosFinite.of_fgt_zero {f : Fmt} {w : Word} (hw : Machine.inFormat f w = true) (hfin : Machine.isFinite f w = true)
    (h : fgt f w 0 = true) : PosFinite f w := by
  obtain ⟨_, _, hlt⟩ := (flt_iff ..).1 h
  have hzero : orderKey f 0 = 0 := by cases f <;> decide
  rw [hzero, orderKey] at hlt
  split at hlt
  · omega
  · next hs => exact ⟨hw, hfin, by simpa using hs, by omega⟩

theorem paramsLegal_kneeEps_pos {p : Params} (h : paramsLegal p = true) : PosFinite p.fmt p.kneeEps := by
  simp only [paramsLegal, Bool.and_eq_true] at h
  exact .of_fgt_zero (by tauto) (by tauto) (by tauto)

theorem isInf_of_isFinite {f : Fmt} {w : Word} (h : isFinite f w = true) : isInf f w = false := by
  simp only [isFinite, isInf, decide_eq_true_eq, beq_eq_false_iff_ne] at *
  omega

theorem isFinite_fneg {f : Fmt} {w : Word} (h : isFinite f w = true) : isFinite f (fneg f w) = true := by
  rwa [isFinite, fneg, magBits_pack f _ (magBits_lt f w)]

section
variable {f : Fmt} {w : Word} (h : PosFinite f w)
include h

theorem PosFinite.significand_ne_zero : significand f w ≠ 0 := by
  obtain ⟨j, _, hmag, _, hj⟩ := significand_exponent_spec f w
  have := h.magBits_pos
  have := Nat.two_pow_pos (fracBits f)
  rcases hj with rfl | hfull <;> omega

/-- A positive finite value, its significand extended by `k` zero bits, rounds to itself. -/
theorem PosFinite.roundTo_self (k : Nat) :
    roundTo f false (significand f w * 2 ^ k) (exponent f w - k) false = w := by
  obtain ⟨j, hexp, hmag, hlt, hj⟩ := significand_exponent_spec f w
  have hfin := h.isFinite
  simp only [Machine.isFinite, decide_eq_true_eq] at hfin
  rw [roundTo, hexp, roundMag_exact f hlt hj, ← hmag, Nat.min_eq_left hfin.le, pack_magBits h.inFormat h.signBit]

end

/-! ### The operations (R9) -/

theorem fadd_of_finite (u : Fpu) (t : Nat) {a b : Word} (ha : isFinite u.fmt a = true) (hb : isFinite u.fmt b = true) :
    fadd u t a b = addFinite u.fmt a b := by
  simp [fadd, isNaN_of_isFinite ha, isNaN_of_isFinite hb, isInf_of_isFinite ha, isInf_of_isFinite hb]

theorem fsub_of_finite (u : Fpu) (t : Nat) {a b : Word} (ha : isFinite u.fmt a = true) (hb : isFinite u.fmt b = true) :
    fsub u t a b = addFinite u.fmt a (fneg u.fmt b) :=
  fadd_of_finite u t ha (isFinite_fneg hb)

theorem fmul_of_finite (u : Fpu) (t : Nat) {a b : Word} (ha : isFinite u.fmt a = true) (hb : isFinite u.fmt b = true) :
    fmul u t a b = roundTo u.fmt (signBit u.fmt a != signBit u.fmt b) (significand u.fmt a * significand u.fmt b)
      (exponent u.fmt a + exponent u.fmt b) false := by
  simp [fmul, isNaN_of_isFinite ha, isNaN_of_isFinite hb, isInf_of_isFinite ha, isInf_of_isFinite hb]

section
variable (u : Fpu) (t : Nat) {w : Word} (h : PosFinite u.fmt w)
include h

theorem fadd_zero_left : fadd u t 0 w = w := by
  have hsign : signBit u.fmt 0 = false := by cases u.fmt <;> decide
  have hsig : significand u.fmt 0 = 0 := by cases u.fmt <;> decide
  have hexp : exponent u.fmt 0 = minExp u.fmt := by cases u.fmt <;> decide
  obtain ⟨j, hexpw, _⟩ := significand_exponent_spec u.fmt w
  have hmin : min (exponent u.fmt 0) (exponent u.fmt w) = exponent u.fmt w - j := by omega
  have hshift : (exponent u.fmt w - (exponent u.fmt w - j)).toNat = j := by omega
  have hsum : significand u.fmt w * 2 ^ j ≠ 0 := Nat.mul_ne_zero h.significand_ne_zero (by positivity)
  rw [fadd_of_finite u t (isFinite_zero _) h.isFinite]
  simp only [addFinite, alignedInt, hmin, hshift, hsign, hsig, h.signBit, Nat.zero_mul, Bool.false_eq_true, if_false,
    Int.natCast_zero, Int.zero_add, Int.natCast_eq_zero, hsum, Int.natAbs_natCast]
  rw [decide_eq_false (by omega)]
  exact h.roundTo_self j

theorem fmul_one_right : fmul u t w (ofInt u.fmt 1) = w := by
  have hsign : signBit u.fmt (ofInt u.fmt 1) = false := by cases u.fmt <;> decide
  have hsig : significand u.fmt (ofInt u.fmt 1) = 2 ^ fracBits u.fmt := by cases u.fmt <;> decide
  have hexp : exponent u.fmt (ofInt u.fmt 1) = -(fracBits u.fmt : Int) := by cases u.fmt <;> decide
  rw [fmul_of_finite u t h.isFinite (isFinite_one _), h.signBit, hsign, hsig, hexp]
  exact h.roundTo_self _

end

/-! ### A product that is not zero, and +0 divided by it -/

theorem le_shiftRoundEven (m sh : Nat) (sticky : Bool) : m / 2 ^ sh ≤ shiftRoundEven m sh sticky := by
  unfold shiftRoundEven
  extract_lets q r up
  split
  · exact Nat.le_succ q
  · exact le_refl q

theorem roundMag_le_infMag (f : Fmt) (m : Nat) (e : Int) (sticky : Bool) : roundMag f m e sticky ≤ infMag f := by
  unfold roundMag
  split
  · exact Nat.zero_le _
  · exact Nat.min_le_right _ _

/-- A value not below the least subnormal does not round to zero. -/
theorem roundMag_pos (f : Fmt) {m k : Nat} {e : Int} (hm : 2 ^ k ≤ m) (he : minExp f ≤ e + k) (sticky : Bool) :
    0 < roundMag f m e sticky := by
  have hk := Nat.two_pow_pos k
  have hm0 : m ≠ 0 := by omega
  simp only [roundMag, hm0, if_false]
  generalize hq : max (e + (bitLength m : Nat) - (fracBits f + 1)) (minExp f) = q
  refine lt_min ?_ (infMag_pos f)
  by_cases hqe : q ≤ e
  · simp only [hqe, if_true]
    positivity
  · simp only [hqe, if_false]
    by_cases hqmin : q = minExp f
    · have hshift : 2 ^ (q - e).toNat ≤ m := (Nat.pow_le_pow_right (by omega) (by omega)).trans hm
      have hdiv : 0 < m / 2 ^ (q - e).toNat := Nat.div_pos hshift (by positivity)
      have hround := le_shiftRoundEven m (q - e).toNat sticky
      omega
    · have hscale : 0 < (q - minExp f).toNat := by omega
      positivity

section
variable (u : Fpu) (t : Nat) {w : Word}

theorem fmul_four_left (h : PosFinite u.fmt w) :
    ∃ mag, 0 < mag ∧ mag ≤ infMag u.fmt ∧ fmul u t (ofInt u.fmt 4) w = pack u.fmt false mag := by
  have hfin : isFinite u.fmt (ofInt u.fmt 4) = true := by cases u.fmt <;> decide
  have hsign : signBit u.fmt (ofInt u.fmt 4) = false := by cases u.fmt <;> decide
  have hsig : significand u.fmt (ofInt u.fmt 4) = 2 ^ fracBits u.fmt := by cases u.fmt <;> decide
  have hexp : exponent u.fmt (ofInt u.fmt 4) = 2 - (fracBits u.fmt : Int) := by cases u.fmt <;> decide
  obtain ⟨j, hexpw, _⟩ := significand_exponent_spec u.fmt w
  have hle : 2 ^ fracBits u.fmt ≤ 2 ^ fracBits u.fmt * significand u.fmt w :=
    Nat.le_mul_of_pos_right _ (Nat.pos_of_ne_zero h.significand_ne_zero)
  have hscale : minExp u.fmt ≤ exponent u.fmt (ofInt u.fmt 4) + exponent u.fmt w + fracBits u.fmt := by omega
  refine ⟨_, roundMag_pos u.fmt hle hscale false, roundMag_le_infMag _ _ _ _, ?_⟩
  rw [fmul_of_finite u t hfin h.isFinite, hsign, hsig, h.signBit]
  rfl

theorem fdiv_zero_left {mag : Nat} (hpos : 0 < mag) (hle : mag ≤ infMag u.fmt) :
    fdiv u t 0 (pack u.fmt false mag) = 0 := by
  have hlt := hle.trans_lt (infMag_lt_signWeight u.fmt)
  have hmag := magBits_pack u.fmt false hlt
  have hfin : isFinite u.fmt 0 = true := isFinite_zero _
  have hzero : isZero u.fmt 0 = true := by cases u.fmt <;> decide
  have hsign : signBit u.fmt 0 = false := by cases u.fmt <;> decide
  have hnan : isNaN u.fmt (pack u.fmt false mag) = false := by simp [isNaN, hmag, hle]
  have hnz : isZero u.fmt (pack u.fmt false mag) = false := by simp [isZero, hmag, hpos.ne']
  simp only [fdiv, isNaN_of_isFinite hfin, isInf_of_isFinite hfin, hzero, hsign, hnan, hnz, signBit_pack_pos _ hlt,
    Bool.or_self, Bool.false_eq_true, if_false, if_true, bne_self_eq_false, zero_eq, ite_self]

end

/-! ### The knee cache -/

theorem fdiv_one_one (u : Fpu) (t : Nat) : fdiv u t (ofInt u.fmt 1) (ofInt u.fmt 1) = ofInt u.fmt 1 := by
  have hone := isFinite_one u.fmt
  have hnz : isZero u.fmt (ofInt u.fmt 1) = false := by cases u.fmt <;> decide
  have hdiv : divFinite u.fmt false (ofInt u.fmt 1) (ofInt u.fmt 1) = ofInt u.fmt 1 := by cases u.fmt <;> decide
  simp only [fdiv, isNaN_of_isFinite hone, isInf_of_isFinite hone, hnz, bne_self_eq_false, hdiv, Bool.or_self,
    Bool.false_eq_true, if_false]

theorem fsub_one_one (u : Fpu) (t : Nat) : fsub u t (ofInt u.fmt 1) (ofInt u.fmt 1) = 0 := by
  rw [fsub_of_finite u t (isFinite_one _) (isFinite_one _)]
  cases u.fmt <;> decide

/-- Settles O26: `T` = 0, `R` = 1, `W` = `F(KNEE_EPS)` and `C` = 0, field by field. -/
theorem resetCacheIsKneeInterp : Obligations.ResetCacheIsKneeInterp := by
  unfold Obligations.ResetCacheIsKneeInterp
  intro p hp
  have heps := paramsLegal_kneeEps_pos hp
  let u : Fpu := { fmt := p.fmt, now := 0, place := [] }
  refine ⟨u, rfl, ?_⟩
  obtain ⟨mag, hpos, hle, hfour⟩ := fmul_four_left u 5 heps
  have hlo : fsub u 1 0 p.kneeEps = fsub u 0 0 p.kneeEps := by
    rw [fsub_of_finite u 1 (isFinite_zero _) heps.isFinite, fsub_of_finite u 0 (isFinite_zero _) heps.isFinite]
  have hqa : fdiv u 3 0 (fmul u 5 (ofInt u.fmt 4) p.kneeEps) = 0 := by rw [hfour, fdiv_zero_left u 3 hpos hle]
  have hyh : fadd u 6 0 (fmul u 7 p.kneeEps (ofInt u.fmt 1)) = p.kneeEps := by
    rw [fmul_one_right u 7 heps, fadd_zero_left u 6 heps]
  have hab : fabs p.fmt 0 = 0 := by cases p.fmt <;> decide
  have hsg : flt p.fmt 0 0 = false := by cases p.fmt <;> decide
  simp only [kneeInterp, Band.reset, DynParams.reset, Knee.reset, Knee.mk.injEq]
  rw [fdiv_one_one u 0, fsub_one_one u 4]
  exact ⟨hlo, fadd_zero_left u 2 heps, rfl, hqa, hyh, hab, hsg⟩

end Sys2Proof.Machine

/-!
Serialisation (20_memory.md R61): the bytes of a word, the word of a list of bytes, and the twelve bytes of a command.
-/

namespace Sys2Proof

/-! ### The bytes of a word -/

@[simp] theorem length_bytesLE (n k : Nat) : (bytesLE n k).length = k := by
  induction k generalizing n with
  | zero => rfl
  | succ k ih => simp [bytesLE, ih]

theorem getElem?_bytesLE (n : Nat) {k i : Nat} (h : i < k) :
    (bytesLE n k)[i]? = some (BitVec.ofNat 8 (n / 256 ^ i)) := by
  induction k generalizing n i with
  | zero => omega
  | succ k ih =>
    cases i with
    | zero => simp [bytesLE]
    | succ i =>
      have hdiv : n / 256 / 256 ^ i = n / 256 ^ (i + 1) := by rw [Nat.div_div_eq_div_mul, Nat.pow_succ']
      simpa [bytesLE, hdiv] using ih (n / 256) (Nat.lt_of_succ_lt_succ h)

/-- Byte `i` of a word is its bits `8 i + 7 .. 8 i`. -/
theorem getElem?_bytesLE_toNat {w : Nat} (x : BitVec w) {k i : Nat} (h : i < k) :
    (bytesLE x.toNat k)[i]? = some (x.extractLsb' (8 * i) 8) := by
  rw [getElem?_bytesLE _ h, BitVec.extractLsb', Nat.shiftRight_eq_div_pow, Nat.pow_mul]

theorem ofBytesLE_bytesLE (n k : Nat) : ofBytesLE (bytesLE n k) = n % 256 ^ k := by
  induction k generalizing n with
  | zero => simp [bytesLE, ofBytesLE, Nat.mod_one]
  | succ k ih => rw [bytesLE, ofBytesLE, ih, BitVec.toNat_ofNat, pow_succ' 256 k, Nat.mod_mul]

/-- A word of `k` bytes is the number its bytes read back as. -/
theorem ofNat_ofBytesLE_bytesLE {w k : Nat} (x : BitVec w) (hw : w = 8 * k) :
    BitVec.ofNat w (ofBytesLE (bytesLE x.toNat k)) = x := by
  subst hw
  have hlt : x.toNat < 256 ^ k := Nat.pow_mul 2 8 k ▸ x.isLt
  rw [ofBytesLE_bytesLE, Nat.mod_eq_of_lt hlt, BitVec.ofNat_toNat, BitVec.setWidth_eq]

/-! ### The bytes of a command -/

@[simp] theorem Cmd.length_toBytes (k : Cmd) : k.toBytes.length = 12 := by simp [Cmd.toBytes]

theorem Cmd.getElem?_toBytes_header (k : Cmd) {n : Nat} (h : n < 4) :
    k.toBytes[n]? = some (k.h.extractLsb' (8 * n) 8) := by
  rw [Cmd.toBytes, List.getElem?_append_left (by simpa using h), getElem?_bytesLE_toNat k.h h]

theorem Cmd.getElem?_toBytes_operand (k : Cmd) {n : Nat} (h : n < 8) :
    k.toBytes[4 + n]? = some (k.d.extractLsb' (8 * n) 8) := by
  rw [Cmd.toBytes, List.getElem?_append_right (by simp), length_bytesLE, Nat.add_sub_cancel_left,
    getElem?_bytesLE_toNat k.d h]

theorem Cmd.ofBytes_toBytes_append (k : Cmd) (rest : List Byte) : Cmd.ofBytes (k.toBytes ++ rest) = some (k, rest) := by
  have hlen : ¬(k.toBytes ++ rest).length < 12 := by rw [List.length_append, Cmd.length_toBytes]; omega
  have hheader : (k.toBytes ++ rest).take 4 = bytesLE k.h.toNat 4 := by
    rw [Cmd.toBytes, List.append_assoc, List.take_left' (length_bytesLE _ 4)]
  have hoperand : ((k.toBytes ++ rest).drop 4).take 8 = bytesLE k.d.toNat 8 := by
    rw [Cmd.toBytes, List.append_assoc, List.drop_left' (length_bytesLE _ 4), List.take_left' (length_bytesLE _ 8)]
  rw [Cmd.ofBytes, if_neg hlen, hheader, hoperand, List.drop_left' k.length_toBytes, ofNat_ofBytesLE_bytesLE k.h rfl,
    ofNat_ofBytesLE_bytesLE k.d rfl]

/-- Settles O50, for the header and for the operand apart. -/
theorem commandBytesRoundTrip : Obligations.CommandBytesRoundTrip := by
  unfold Obligations.CommandBytesRoundTrip
  intro k rest
  exact ⟨k.length_toBytes, fun _ => k.getElem?_toBytes_header, fun _ => k.getElem?_toBytes_operand,
    k.ofBytes_toBytes_append rest⟩

end Sys2Proof

/-!
The response streams (20_memory.md R68): what a command appends to the stream of its port, said first of effects, then of every
command (30_encoding.md R83, R84), of words that are no command, and of a step.
-/

namespace Sys2Proof.Machine

/-! ### Effects on the streams -/

/-- The two states agree in `ERR` and in both response streams. -/
def State.Quiet (s t : State) : Prop := t.err = s.err ∧ t.respA = s.respA ∧ t.respC = s.respC

/-- From `s` to `t` the stream of `p` grows by `ws` at its end, and the other stream stays. -/
def State.Appended (s t : State) (p : Port) (ws : List Word) : Prop :=
  (p = .a → t.respA = s.respA ++ ws ∧ t.respC = s.respC) ∧ (p = .c → t.respC = s.respC ++ ws ∧ t.respA = s.respA)

/-- From `s` to `t` the stream of the running command's port grows by `n` words, and `ERR` stays. -/
def State.Emits (s t : State) (n : Nat) : Prop :=
  t.err = s.err ∧ ∃ ws : List Word, s.Appended t s.port ws ∧ ws.length = n

section
variable {s t : State}

theorem State.Quiet.refl (s : State) : s.Quiet s := ⟨rfl, rfl, rfl⟩

theorem accept_quiet (s : State) (p : Port) : s.Quiet (s.accept p) := by cases p <;> exact .refl s

/-- The configuration registers are no part of the streams. -/
theorem cfgWrite_quiet (s : State) (bnd chs : BitVec 4) (sub n : Nat) : s.Quiet (cfgWrite s bnd chs sub n) := by
  unfold cfgWrite
  split <;> exact .refl s

theorem State.Quiet.appended_nil (h : s.Quiet t) (p : Port) : s.Appended t p [] := by
  obtain ⟨_, ha, hc⟩ := h
  simp [State.Appended, ha, hc]

theorem State.Quiet.emits_zero (h : s.Quiet t) : s.Emits t 0 := ⟨h.1, [], h.appended_nil s.port, rfl⟩

theorem State.Quiet.emitAll_appended (h : s.Quiet t) (p : Port) (ws : List Word) : s.Appended (t.emitAll p ws) p ws := by
  obtain ⟨_, ha, hc⟩ := h
  cases p <;> simp [State.Appended, ha, hc]

theorem emit_eq_emitAll (s : State) (p : Port) (w : Word) : s.emit p w = s.emitAll p [w] := by cases p <;> rfl

theorem State.Quiet.emits_emitAll (h : s.Quiet t) {p : Port} (hp : s.port = p) (ws : List Word) :
    s.Emits (t.emitAll p ws) ws.length := by
  subst hp
  exact ⟨(State.emitAll_err t s.port ws).trans h.1, ws, h.emitAll_appended s.port ws, rfl⟩

theorem State.Quiet.emits_emit (h : s.Quiet t) {p : Port} (hp : s.port = p) (w : Word) : s.Emits (t.emit p w) 1 := by
  rw [emit_eq_emitAll]
  exact h.emits_emitAll hp [w]

/-- What was quiet before adds no words. -/
theorem State.Appended.of_quiet {r : State} {p : Port} {ws : List Word} (hq : r.Quiet s) (h : s.Appended t p ws) :
    r.Appended t p ws := by
  obtain ⟨_, ha, hc⟩ := hq
  rwa [State.Appended, ha, hc] at h

theorem procEffect_emits (b c : BitVec 4) (d : Word) (hp : s.port = .a) : s.Emits (procEffect b c d s) 1 :=
  State.Quiet.emits_emit (.refl s) hp _

theorem downEffect_emits (c : BitVec 4) (hp : s.port = .a) : s.Emits (downEffect c s) 1 :=
  State.Quiet.emits_emit (.refl s) hp _

/-- One sample becomes `2 ^ CFG_S` words (R205, R207). -/
theorem upEffect_emits (c : BitVec 4) (d : Word) (hp : s.port = .a) : s.Emits (upEffect c d s) (2 ^ s.cfgS) := by
  have hlen (q : Vector Bank 6) (x : Word) (f : Word → Word) :
      ((cascadeUp s.fpu s s.cfgS (q, [x])).2.map f).length = 2 ^ s.cfgS := by
    rw [List.length_map, cascadeUp_length, List.length_singleton, Nat.mul_one]
  rw [← hlen (s.chan c).ul (sampleOperand s.par.fmt d) (resultWord s.par.fmt)]
  exact State.Quiet.emits_emitAll (.refl s) hp _

end

/-! ### Every command -/

/-- A command takes `s` to `t` and answers on port `p` as R68 and R84 say: words on its own port only, none where it
faults, and `n` of them where no fault is recorded after it. -/
def State.Answers (s t : State) (p : Port) (n : Nat) : Prop :=
  ∃ ws : List Word, s.Appended t p ws ∧ (s.err = false → t.err = true → ws = []) ∧ (t.err = false → ws.length = n)

section
variable {s t e : State}

/-- Where nothing is appended and a fault is recorded afterwards, no count is asked for. -/
theorem State.answers_of_err {p : Port} (h : s.Appended t p []) (herr : t.err = true) (n : Nat) : s.Answers t p n :=
  ⟨[], h, fun _ _ => rfl, fun hok => by rw [herr] at hok; cases hok⟩

theorem State.raise_answers (s : State) (k : ErrCode) (h : Header) (n : Nat) : s.Answers (s.raise k h) s.port n := by
  refine State.answers_of_err ?_ (State.raise_err s k h) n
  simp [State.Appended]

theorem State.Emits.answers {n : Nat} (h : s.Emits t n) : s.Answers t s.port n := by
  obtain ⟨herr, ws, happ, hlen⟩ := h
  refine ⟨ws, happ, fun hs ht => ?_, fun _ => hlen⟩
  rw [herr, hs] at ht
  cases ht

theorem portOk_some {p q : Port} (h : portOk (some q) p = true) : p = q := by simpa [portOk] using h

variable {i : Instr} {own : List (Bool × ErrCode)}

/-- A command answers as many words as its effect emits on the port it is legal on. -/
theorem command_answers (h : command i s own e = .next t)
    (heffect : portOk i.op.port s.port = true → s.Emits e (resultCount i s)) :
    s.Answers t s.port (resultCount i s) := by
  rcases command_inv h with ⟨herr, rfl⟩ | ⟨_, k, rfl⟩ | ⟨_, hport, _, _, _, rfl⟩
  · exact State.answers_of_err ((State.Quiet.refl t).appended_nil t.port) herr _
  · exact State.raise_answers s k _ _
  · exact (heffect hport).answers

/-- A row without results. -/
theorem command_answers_none (h : command i s own e = .next t) (hn : resultCount i s = 0) (he : s.Quiet e) :
    s.Answers t s.port (resultCount i s) :=
  command_answers h fun _ => hn ▸ he.emits_zero

/-- A row with one result, legal on one port only, to which the result goes. -/
theorem command_answers_one {p : Port} {w : Word} (h : command i s own (e.emit p w) = .next t)
    (hn : resultCount i s = 1) (hp : i.op.port = some p) (he : s.Quiet e) : s.Answers t s.port (resultCount i s) :=
  command_answers h fun hport => hn ▸ he.emits_emit (portOk_some (hp ▸ hport)) w

/-- A row with one result, legal on both ports: the result goes to the port the command came on. -/
theorem command_answers_caller {w : Word} (h : command i s own (s.emit s.port w) = .next t)
    (hn : resultCount i s = 1) : s.Answers t s.port (resultCount i s) :=
  command_answers h fun _ => hn ▸ (State.Quiet.refl s).emits_emit rfl w

end

/-- By the column `res` of the opcode map. Only `RD.STAT` answers after a fault (60_exceptions.md R254). -/
theorem exec_answers (i : Instr) (s t : State) (h : exec i s = .next t) : s.Answers t s.port (resultCount i s) := by
  have hs := State.Quiet.refl s
  cases i with
  | nop =>
    simp only [exec, execNop] at h
    exact command_answers_none h rfl hs
  | cfgWr bnd chs sub d => exact command_answers_none h rfl (cfgWrite_quiet s bnd chs _ _)
  | prepare | run | stop | osReset => exact command_answers_none h rfl hs
  | blk _ | prWr _ _ _ | bqWrc _ _ _ _ | bqWrn _ _ | bqCommit _ _ | bqRstreq _ | bqReset _ | bqSnap _ =>
    exact command_answers_none h rfl hs
  | rmsAcc _ _ | rmsPush _ | rmsReset _ | foReset _ | osWrt _ _ _ _ | osWr _ _ =>
    exact command_answers_none h rfl hs
  | rdStat =>
    simp only [exec, execRdStat] at h
    split at h
    · cases h
      exact (hs.emits_emit rfl _).answers
    · exact command_answers_caller h rfl
  | rdPend _ => exact command_answers_caller h rfl
  | rdLat | bqRds _ _ _ | rmsGet _ | knEval _ _ | foStep _ _ | dyRun _ => exact command_answers_one h rfl rfl hs
  | bqProc b c d => exact command_answers h fun hport => procEffect_emits b c d (portOk_some hport)
  | osDown c => exact command_answers h fun hport => downEffect_emits c (portOk_some hport)
  | osUp c d => exact command_answers h fun hport => upEffect_emits c d (portOk_some hport)

/-! ### Every step -/

/-- Words that are no command answer nothing, and a fault is recorded after them. -/
theorem rejectWords_answers (o : Option Op) (h : Header) (s : State) : s.Answers (rejectWords o h s) s.port 0 := by
  rcases rejectWords_cases o h s with ⟨herr, e⟩ | ⟨_, _, e⟩ | ⟨_, _, _, _, e⟩ | ⟨_, _, _, _, e⟩
  · rw [e]
    exact State.answers_of_err ((State.Quiet.refl s).appended_nil s.port) herr 0
  all_goals
    rw [e]
    exact State.raise_answers s _ h 0

/-- The count is that of the command the words decode to, if they decode to one. -/
theorem runWords_answers {k : Cmd} {s t : State} (h : runWords k s = .next t) :
    ∃ n, s.Answers t s.port n ∧ ∀ i, decode k = .ok i → n = resultCount i s := by
  rcases runWords_cases k s with ⟨i, hi, h2⟩ | ⟨hd, h2⟩ | ⟨o, hd, h2⟩
  · refine ⟨resultCount i s, exec_answers i s t (h2 ▸ h), fun j hj => ?_⟩
    rw [hi] at hj; cases hj
    rfl
  all_goals
    rw [h2] at h; cases h
    refine ⟨0, rejectWords_answers _ k.h s, fun i hi => ?_⟩
    rw [hd] at hi; cases hi

theorem resultCount_accept (i : Instr) (s : State) (p : Port) : resultCount i (s.accept p) = resultCount i s := by
  simp only [resultCount, State.accept_cfgS]

/-- Settles O58: accepting a command touches no stream, and what then runs answers on the port that moved. -/
theorem resultsAppendToOwnStream : Obligations.ResultsAppendToOwnStream := by
  unfold Obligations.ResultsAppendToOwnStream
  intro s t p k hr hpick h
  rw [step_of_pick hr hpick] at h
  obtain ⟨n, ⟨ws, happ, hfault, hlen⟩, hn⟩ := runWords_answers h
  rw [State.accept_port] at happ
  rw [State.accept_err] at hfault
  obtain ⟨ha, hc⟩ := happ.of_quiet (accept_quiet s p)
  refine ⟨ws, ha, hc, hfault, fun hok i hi => ?_⟩
  rw [hlen hok, hn i hi, resultCount_accept]

end Sys2Proof.Machine

/-!
Decoding and encoding (30_encoding.md R81 to R87): the fields of a header, the opcode map, the decoder and the encoder as inverses
of each other, and the fault of every pair of words that is no well-formed command.
-/

namespace Sys2Proof

/-! ### The fields of a header (R81) -/

section
variable (op : BitVec 8) (bnd chs : BitVec 4) (idx sub : BitVec 8) (h h' : Header)

@[simp] theorem hdrSub_mkHeader : hdrSub (mkHeader op bnd chs idx sub) = sub := BitVec.extractLsb'_append_eq_right

@[simp] theorem hdrIdx_mkHeader : hdrIdx (mkHeader op bnd chs idx sub) = idx := by
  unfold hdrIdx mkHeader
  rw [BitVec.extractLsb'_append_eq_of_le (by decide)]
  exact BitVec.extractLsb'_append_eq_right

@[simp] theorem hdrChs_mkHeader : hdrChs (mkHeader op bnd chs idx sub) = chs := by
  unfold hdrChs mkHeader
  rw [BitVec.extractLsb'_append_eq_of_le (by decide), BitVec.extractLsb'_append_eq_of_le (by decide)]
  exact BitVec.extractLsb'_append_eq_right

@[simp] theorem hdrBnd_mkHeader : hdrBnd (mkHeader op bnd chs idx sub) = bnd := by
  unfold hdrBnd mkHeader
  rw [BitVec.extractLsb'_append_eq_of_le (by decide), BitVec.extractLsb'_append_eq_of_le (by decide),
    BitVec.extractLsb'_append_eq_of_le (by decide)]
  exact BitVec.extractLsb'_append_eq_right

@[simp] theorem hdrOp_mkHeader : hdrOp (mkHeader op bnd chs idx sub) = op := by
  unfold hdrOp mkHeader
  rw [BitVec.extractLsb'_append_eq_of_le (by decide), BitVec.extractLsb'_append_eq_of_le (by decide),
    BitVec.extractLsb'_append_eq_of_le (by decide)]
  exact BitVec.extractLsb'_append_eq_left


/-- The five fields are the whole header. -/
theorem mkHeader_fields : mkHeader (hdrOp h) (hdrBnd h) (hdrChs h) (hdrIdx h) (hdrSub h) = h := by
  unfold mkHeader hdrOp hdrBnd hdrChs hdrIdx hdrSub
  iterate 4 rw [BitVec.extractLsb'_append_extractLsb'_eq_extractLsb' (by rfl)]
  exact BitVec.extractLsb'_eq_self

theorem hdrOp_and : hdrOp (h &&& h') = hdrOp h &&& hdrOp h' := BitVec.extractLsb'_and

theorem hdrBnd_and : hdrBnd (h &&& h') = hdrBnd h &&& hdrBnd h' := BitVec.extractLsb'_and

theorem hdrChs_and : hdrChs (h &&& h') = hdrChs h &&& hdrChs h' := BitVec.extractLsb'_and

theorem hdrIdx_and : hdrIdx (h &&& h') = hdrIdx h &&& hdrIdx h' := BitVec.extractLsb'_and

theorem hdrSub_and : hdrSub (h &&& h') = hdrSub h &&& hdrSub h' := BitVec.extractLsb'_and

variable {h h'}

theorem header_ext (hop : hdrOp h = hdrOp h') (hbnd : hdrBnd h = hdrBnd h') (hchs : hdrChs h = hdrChs h')
    (hidx : hdrIdx h = hdrIdx h') (hsub : hdrSub h = hdrSub h') : h = h' := by
  rw [← mkHeader_fields h, ← mkHeader_fields h', hop, hbnd, hchs, hidx, hsub]

/-- A header is known from its bits under a mask and its bits outside it. -/
theorem header_eq_of_and (m : Header) (hin : h &&& m = h' &&& m) (hout : h &&& ~~~m = h' &&& ~~~m) : h = h' := by
  have hsplit (x : Header) : x = (x &&& m) ||| (x &&& ~~~m) := by
    rw [← BitVec.and_or_distrib_left, BitVec.or_not_self, BitVec.and_allOnes]
  rw [hsplit h, hsplit h', hin, hout]

end

/-! ### The header of a command -/

@[simp] theorem hdrOp_header (i : Instr) : hdrOp i.header = i.op.code := hdrOp_mkHeader ..

@[simp] theorem hdrBnd_header (i : Instr) : hdrBnd i.header = i.fields.bnd := hdrBnd_mkHeader ..

@[simp] theorem hdrChs_header (i : Instr) : hdrChs i.header = i.fields.chs := hdrChs_mkHeader ..

@[simp] theorem hdrIdx_header (i : Instr) : hdrIdx i.header = i.fields.idx := hdrIdx_mkHeader ..

@[simp] theorem hdrSub_header (i : Instr) : hdrSub i.header = i.fields.sub := hdrSub_mkHeader ..

@[simp] theorem encode_h (i : Instr) : (encode i).h = i.header := rfl

/-! ### The opcode map (R84) -/

theorem Op.ofCode_code (o : Op) : Op.ofCode o.code = some o := by cases o <;> rfl

@[simp] theorem Op.build_op (o : Op) (k : Cmd) : (o.build k).op = o := by cases o <;> rfl

/-! ### The decoder, case by case (R86) -/

theorem decode_of_ofCode_none {k : Cmd} (h : Op.ofCode (hdrOp k.h) = none) : decode k = .illegal := by simp [decode, h]

theorem decode_of_ofCode_some {k : Cmd} {o : Op} (h : Op.ofCode (hdrOp k.h) = some o) :
    decode k = if k.h &&& o.mask ≠ o.pattern ∨ (o.noOperand = true ∧ k.d ≠ 0) then .reserved o else .ok (o.build k) := by
  simp only [decode, h]

theorem ofCode_of_decode_illegal {k : Cmd} (h : decode k = .illegal) : Op.ofCode (hdrOp k.h) = none := by
  cases ho : Op.ofCode (hdrOp k.h) with
  | none => rfl
  | some o =>
    rw [decode_of_ofCode_some ho] at h
    split at h <;> cases h

theorem ofCode_of_decode_reserved {k : Cmd} {o : Op} (h : decode k = .reserved o) : Op.ofCode (hdrOp k.h) = some o := by
  cases ho : Op.ofCode (hdrOp k.h) with
  | none => rw [decode_of_ofCode_none ho] at h; cases h
  | some q =>
    rw [decode_of_ofCode_some ho] at h
    split at h <;> cases h
    rfl

/-- Words decode to a command where its row is the one of `op`, the row's mask and operand class allow them, and the row builds it
from them. -/
theorem decode_ok_iff_build {k : Cmd} {i : Instr} : decode k = .ok i ↔ Op.ofCode (hdrOp k.h) = some i.op
    ∧ k.h &&& i.op.mask = i.op.pattern ∧ (i.op.noOperand = true → k.d = 0) ∧ i.op.build k = i := by
  constructor
  · intro h
    cases ho : Op.ofCode (hdrOp k.h) with
    | none => rw [decode_of_ofCode_none ho] at h; cases h
    | some o =>
      rw [decode_of_ofCode_some ho] at h
      split at h <;> cases h
      next hlegal =>
        rw [Op.build_op]
        push Not at hlegal
        exact ⟨rfl, hlegal.1, hlegal.2, rfl⟩
  · rintro ⟨hop, hmask, hd, hbuild⟩
    rw [decode_of_ofCode_some hop, if_neg (by tauto), hbuild]

/-! ### Decoding what was encoded -/

/-- Every header agrees with the match and the mask of its row (R85). -/
theorem headerMatch : ∀ i : Instr, Laws.HeaderMatch.Statement i
  | .nop => Laws.HeaderMatch.nop
  | .cfgWr .. => Laws.HeaderMatch.cfgWr ..
  | .prepare => Laws.HeaderMatch.prepare
  | .run => Laws.HeaderMatch.run
  | .stop => Laws.HeaderMatch.stop
  | .blk _ => Laws.HeaderMatch.blk _
  | .rdStat => Laws.HeaderMatch.rdStat
  | .rdLat => Laws.HeaderMatch.rdLat
  | .prWr .. => Laws.HeaderMatch.prWr ..
  | .rdPend _ => Laws.HeaderMatch.rdPend _
  | .bqWrc .. => Laws.HeaderMatch.bqWrc ..
  | .bqWrn .. => Laws.HeaderMatch.bqWrn ..
  | .bqCommit .. => Laws.HeaderMatch.bqCommit ..
  | .bqRstreq _ => Laws.HeaderMatch.bqRstreq _
  | .bqReset _ => Laws.HeaderMatch.bqReset _
  | .bqProc .. => Laws.HeaderMatch.bqProc ..
  | .bqSnap _ => Laws.HeaderMatch.bqSnap _
  | .bqRds .. => Laws.HeaderMatch.bqRds ..
  | .rmsAcc .. => Laws.HeaderMatch.rmsAcc ..
  | .rmsPush _ => Laws.HeaderMatch.rmsPush _
  | .rmsGet _ => Laws.HeaderMatch.rmsGet _
  | .rmsReset _ => Laws.HeaderMatch.rmsReset _
  | .knEval .. => Laws.HeaderMatch.knEval ..
  | .foStep .. => Laws.HeaderMatch.foStep ..
  | .foReset _ => Laws.HeaderMatch.foReset _
  | .dyRun _ => Laws.HeaderMatch.dyRun _
  | .osWrt .. => Laws.HeaderMatch.osWrt ..
  | .osUp .. => Laws.HeaderMatch.osUp ..
  | .osWr .. => Laws.HeaderMatch.osWr ..
  | .osDown _ => Laws.HeaderMatch.osDown _
  | .osReset => Laws.HeaderMatch.osReset

theorem getLsbD_zero_ite (r : Bool) : (if r then 1 else 0 : BitVec 8).getLsbD 0 = r := by cases r <;> decide

/-- A row reads its command's fields back. `BQ.COMMIT` is the one that reads less than a whole field, the bit `sub[0]`. -/
theorem build_encode (i : Instr) : i.op.build (encode i) = i := by
  unfold Op.build
  simp only [encode_h, hdrBnd_header, hdrChs_header, hdrIdx_header, hdrSub_header]
  cases i with
  | bqCommit b r => exact congrArg (Instr.bqCommit b) (getLsbD_zero_ite r)
  | _ => rfl

/-- A row without operand leaves `D` zero (R82). -/
theorem build_fields_d (o : Op) (k : Cmd) : (o.build k).fields.d = if o.noOperand = true then 0 else k.d := by
  cases o <;> rfl

theorem encode_d_of_noOperand {i : Instr} (h : i.op.noOperand = true) : (encode i).d = 0 := by
  have hd := build_fields_d i.op (encode i)
  rwa [build_encode, if_pos h] at hd

theorem decode_encode (i : Instr) : decode (encode i) = .ok i :=
  decode_ok_iff_build.2 ⟨by rw [encode_h, hdrOp_header, Op.ofCode_code], headerMatch i, encode_d_of_noOperand, build_encode i⟩

/-- Settles O46: the header meets its row's mask, `D` its operand class, and the row reads every field back. -/
theorem decodeOfEncodeIsTheInstruction : Obligations.DecodeOfEncodeIsTheInstruction := by
  unfold Obligations.DecodeOfEncodeIsTheInstruction
  exact decode_encode

/-! ### Encoding what was decoded -/

/-- `sub[0]` of `BQ.COMMIT` as a field again. -/
theorem ite_getLsbD_zero (x : BitVec 8) : (if x.getLsbD 0 then 1 else 0 : BitVec 8) = x &&& 1 := by
  rw [show (1 : BitVec 8) = 1#8 from rfl, BitVec.and_one_eq_setWidth_ofBool_getLsbD]
  cases x.getLsbD 0 <;> rfl

/-- Outside its mask a row keeps the header bits as they stand: what it does not keep of a field, its mask covers (R85). -/
theorem build_header_and_not_mask (o : Op) (k : Cmd) : (o.build k).header &&& ~~~o.mask = k.h &&& ~~~o.mask := by
  apply header_ext
  · have hop : hdrOp (~~~o.mask) = 0 := by cases o <;> rfl
    simp [hdrOp_and, hop]
  · rw [hdrBnd_and, hdrBnd_and, hdrBnd_header]
    cases o <;> simp [Op.build, Instr.fields, Op.mask, hdrBnd]
  · rw [hdrChs_and, hdrChs_and, hdrChs_header]
    cases o <;> simp [Op.build, Instr.fields, Op.mask, hdrChs]
  · rw [hdrIdx_and, hdrIdx_and, hdrIdx_header]
    cases o <;> simp [Op.build, Instr.fields, Op.mask, hdrIdx]
  · rw [hdrSub_and, hdrSub_and, hdrSub_header]
    cases o with
    | bqCommit =>
      change (if (hdrSub k.h).getLsbD 0 then 1 else 0) &&& 1 = hdrSub k.h &&& 1
      rw [ite_getLsbD_zero, BitVec.and_assoc, BitVec.and_self]
    | _ => simp [Op.build, Instr.fields, Op.mask, hdrSub]

theorem encode_of_decode {k : Cmd} {i : Instr} (h : decode k = .ok i) : encode i = k := by
  obtain ⟨_, hmask, hd, hbuild⟩ := decode_ok_iff_build.1 h
  have hheader : i.header = k.h := by
    refine header_eq_of_and i.op.mask ((headerMatch i).trans hmask.symm) ?_
    rw [← build_header_and_not_mask i.op k, hbuild]
  have hoperand : i.fields.d = k.d := by
    have hfield := build_fields_d i.op k
    rw [hbuild] at hfield
    rw [hfield, ite_eq_right_iff]
    exact fun hno => (hd hno).symm
  rw [encode, hheader, hoperand]

/-- The decoder and the encoder are inverses of each other. -/
theorem decode_eq_ok_iff {k : Cmd} {i : Instr} : decode k = .ok i ↔ encode i = k :=
  ⟨encode_of_decode, fun h => h ▸ decode_encode i⟩

end Sys2Proof

namespace Sys2Proof.Machine

/-! ### The fault of words that are no well-formed command (R86, R87) -/

/-- Words whose `op` is not assigned. -/
theorem runWords_of_illegal {k : Cmd} {s : State} (hk : decode k = .illegal) (hs : s.err = false) :
    runWords k s = .next (s.raise .illegal k.h) := by simp [runWords, hk, rejectWords, hs]

/-- Words of an assigned `op` whose bits its row does not allow. -/
theorem runWords_of_reserved {k : Cmd} {o : Op} {s : State} (hk : decode k = .reserved o) (hs : s.err = false) :
    runWords k s = .next (s.raise .port k.h) ∨ runWords k s = .next (s.raise .field k.h) := by
  cases hp : portOk o.port s.port <;> simp [runWords, hk, rejectWords, hs, hp]

/-- The conditions on `sub` are checked after the port and before everything else (R253). -/
theorem command_of_not_wellFormed {i : Instr} {s : State} (own : List (Bool × ErrCode)) (e : State)
    (hs : s.err = false) (hw : i.wellFormed = false) :
    command i s own e = .next (s.raise .port i.header) ∨ command i s own e = .next (s.raise .field i.header) := by
  cases hp : portOk i.op.port s.port <;> simp [command, commonChecks, hs, hw, hp]

/-- `CFG.WR`, `OS.WRT` and `BQ.RDS` are the rows with a condition on `sub` (R85). -/
theorem exec_of_not_wellFormed (i : Instr) (s : State) (hs : s.err = false) (hw : i.wellFormed = false) :
    Faults i s .port ∨ Faults i s .field := by
  cases i with
  | cfgWr _ _ _ _ | osWrt _ _ _ _ | bqRds _ _ _ => exact command_of_not_wellFormed _ _ hs hw
  | _ => cases hw

/-- Settles O47, by what the pair decodes to: a command is the only one it encodes, and the decoder's two rejections are the
encodings of none. -/
theorem everyPairDecodesOrFaults : Obligations.EveryPairDecodesOrFaults := by
  unfold Obligations.EveryPairDecodesOrFaults
  refine ⟨fun k => ?_, exec_of_not_wellFormed⟩
  have hdec {j : Instr} (hj : encode j = k) : decode k = .ok j := decode_eq_ok_iff.2 hj
  cases hk : decode k with
  | ok i =>
    refine .inl ⟨i, rfl, encode_of_decode hk, fun j hj => ?_⟩
    cases hk.symm.trans (hdec hj)
    rfl
  | illegal =>
    refine .inr ⟨fun i hi => by (cases hk.symm.trans (hdec hi)), fun s hs => .inl ?_⟩
    exact ⟨ofCode_of_decode_illegal hk, runWords_of_illegal hk hs⟩
  | reserved o =>
    refine .inr ⟨fun i hi => by (cases hk.symm.trans (hdec hi)), fun s hs => .inr ?_⟩
    exact ⟨by simp [ofCode_of_decode_reserved hk], runWords_of_reserved hk hs⟩

end Sys2Proof.Machine

/-!
A command stays inside the band its `bnd` field names and the channel its `chs` field names (40_system.md R106;
41_biquad_cascade.md R126; 42_rms_tracker.md R150; 46_oversampler.md R207): one rule per update of the state, then every command.
-/

namespace Sys2Proof.Machine

/-- From `s` to `t` no band but `b` and no channel of the oversampler but `c` changes. -/
def State.Confined (s t : State) (b c : BitVec 4) : Prop :=
  (∀ b' : BitVec 4, b' ≠ b → t.band b' = s.band b') ∧ ∀ c' : BitVec 4, c' ≠ c → t.chan c' = s.chan c'

section
variable {s t : State} {b c : BitVec 4}

theorem State.Confined.refl (s : State) (b c : BitVec 4) : s.Confined s b c := ⟨fun _ _ => rfl, fun _ _ => rfl⟩

theorem State.Confined.emitAll (h : s.Confined t b c) (p : Port) (ws : List Word) : s.Confined (t.emitAll p ws) b c := by
  simpa only [State.Confined, State.emitAll_band, State.emitAll_chan] using h

theorem State.Confined.emit (h : s.Confined t b c) (p : Port) (w : Word) : s.Confined (t.emit p w) b c := by
  rw [emit_eq_emitAll]
  exact h.emitAll p [w]

theorem setBand_confined (s : State) (b c : BitVec 4) (x : Band) : s.Confined (s.setBand b x) b c :=
  ⟨fun _ hb => State.setBand_band_ne s x hb, fun _ _ => rfl⟩

theorem setChan_confined (s : State) (b c : BitVec 4) (x : Chan) : s.Confined (s.setChan c x) b c :=
  ⟨fun _ _ => rfl, fun _ hc => State.setChan_chan_ne s x hc⟩

/-- Of the configuration registers, `CFG_TOPO` alone belongs to a band, and none to a channel (R24). -/
theorem cfgWrite_confined (s : State) (bnd chs : BitVec 4) (sub n : Nat) :
    s.Confined (cfgWrite s bnd chs sub n) bnd chs := by
  unfold cfgWrite
  split
  case h_4 => exact setBand_confined s bnd chs _
  all_goals exact .refl s bnd chs

theorem command_confined {i : Instr} {own : List (Bool × ErrCode)} {e : State} (h : command i s own e = .next t)
    (heffect : s.Confined e b c) : s.Confined t b c :=
  command_keeps (P := fun t => s.Confined t b c) (.refl s b c) (fun _ _ => .refl s b c) h fun _ => heffect

end

/-- By the state that a command writes: its band, its channel, a stream or none of them. -/
theorem exec_confined (i : Instr) (s t : State) (hprepare : i ≠ .prepare) (hreset : i ≠ .osReset)
    (h : exec i s = .next t) : s.Confined t i.fields.bnd i.fields.chs := by
  have hs := State.Confined.refl s i.fields.bnd i.fields.chs
  cases i with
  | prepare => exact absurd rfl hprepare
  | osReset => exact absurd rfl hreset
  | nop =>
    simp only [exec, execNop] at h
    exact command_confined h hs
  | run | stop | osWrt _ _ _ _ => exact command_confined h hs
  | cfgWr bnd chs sub d => exact command_confined h (cfgWrite_confined s bnd chs _ _)
  | rdStat =>
    simp only [exec, execRdStat] at h
    split at h
    · cases h
      exact hs.emit _ _
    · exact command_confined h (hs.emit _ _)
  | rdLat | rdPend _ | rmsGet _ | knEval _ _ | bqRds _ _ _ => exact command_confined h (hs.emit _ _)
  | blk b | bqRstreq b | bqReset b | bqSnap b | rmsPush b | rmsReset b | foReset b | prWr b _ _ | bqWrc b _ _ _ | bqWrn b _
  | bqCommit b _ | rmsAcc b _ => exact command_confined h (setBand_confined s b _ _)
  | bqProc b _ _ | foStep b _ | dyRun b =>
    exact command_confined h (State.Confined.emit (setBand_confined s b _ _) _ _)
  | osWr c _ => exact command_confined h (setChan_confined s _ c _)
  | osUp c _ => exact command_confined h (State.Confined.emitAll (setChan_confined s _ c _) _ _)
  | osDown c => exact command_confined h (State.Confined.emit (setChan_confined s _ c _) _ _)

/-- `OS.RESET` clears every channel and no band (R211). -/
theorem exec_osReset_band {s t : State} (h : exec .osReset s = .next t) (b : BitVec 4) : t.band b = s.band b :=
  command_keeps (P := fun t => t.band b = s.band b) rfl (fun _ _ => rfl) h fun _ => rfl

/-- Settles O59: `OS.RESET`, which names no channel, apart, every command is confined to its band and its channel. -/
theorem commandsTouchOneBandOneChannel : Obligations.CommandsTouchOneBandOneChannel := by
  unfold Obligations.CommandsTouchOneBandOneChannel
  intro i s t h hprepare
  by_cases hreset : i = .osReset
  · subst hreset
    exact ⟨fun b _ => exec_osReset_band h b, fun hne => absurd rfl hne⟩
  · obtain ⟨hbands, hchans⟩ := exec_confined i s t hprepare hreset h
    exact ⟨hbands, fun _ => hchans⟩

end Sys2Proof.Machine

/-!
When a command has its effect and which fault it raises otherwise (40_system.md R100; 60_exceptions.md R253, R259): one rule per
check in the order of the checks, and from them what the rights of ports and modes say of every instruction.
-/

namespace Sys2Proof.Machine

/-! ### The common part, check by check (R253) -/

/-- The command may run: no fault is recorded, and the port and the mode are the ones R259 gives it. -/
structure State.Ready (s : State) (i : Instr) : Prop where
  err : s.err = false
  port : portOk i.op.port s.port = true
  mode : modeOk i.op.when s = true

section
variable {i : Instr} {s : State} {own : List (Bool × ErrCode)} {e : State}

theorem command_raises_port (herr : s.err = false) (hp : portOk i.op.port s.port = false) :
    command i s own e = .next (s.raise .port i.header) := by
  simp [command, commonChecks, herr, hp]

theorem command_raises_mode (herr : s.err = false) (hp : portOk i.op.port s.port = true) (hw : i.wellFormed = true)
    (hm : modeOk i.op.when s = false) : command i s own e = .next (s.raise .mode i.header) := by
  simp [command, commonChecks, herr, hp, hw, hm]

theorem command_raises_field (hs : s.Ready i) (hw : i.wellFormed = false) :
    command i s own e = .next (s.raise .field i.header) := by
  simp [command, commonChecks, hs.err, hs.port, hw]

/-- A command that may run raises the fault of its own first failing check. -/
theorem command_raises_own (hs : s.Ready i) (hw : i.wellFormed = true) {k : ErrCode} (ho : firstFailure own = some k) :
    command i s own e = .next (s.raise k i.header) := by
  simp [command, commonChecks, hs.err, hs.port, hs.mode, hw, ho]

theorem command_has_effect (hs : s.Ready i) (hw : i.wellFormed = true) (ho : firstFailure own = none) :
    command i s own e = .next e := command_completes e hs.err hs.port hw hs.mode ho

end

/-! ### Where a command may run (R259) -/

section
variable {i : Instr} {s : State} {p : Port}

theorem portOk_of_eq {legal : Option Port} (hl : legal = some p) (hp : s.port = p) : portOk legal s.port = true := by
  subst hl hp
  cases hq : s.port <;> rfl

theorem portOk_of_ne {legal : Option Port} (hl : legal = some p) (hp : s.port ≠ p) : portOk legal s.port = false := by
  subst hl
  exact beq_false_of_ne hp

theorem State.Configuring.ready (h : s.Configuring) (hport : i.op.port = some .c) (hwhen : i.op.when = .stopped) :
    s.Ready i := by
  obtain ⟨herr, hp, hrun⟩ := h
  exact ⟨herr, portOk_of_eq hport hp, by simp [hwhen, modeOk, hrun]⟩

theorem State.Control.ready (h : s.Control) (hport : i.op.port = some .c) (hwhen : i.op.when = .always) :
    s.Ready i := by
  obtain ⟨herr, hp⟩ := h
  exact ⟨herr, portOk_of_eq hport hp, by rw [hwhen]; rfl⟩

theorem State.Processing.ready (h : s.Processing) (hport : i.op.port = some .a) (hwhen : i.op.when = .running) :
    s.Ready i := by
  obtain ⟨herr, hp, hrun⟩ := h
  exact ⟨herr, portOk_of_eq hport hp, by rw [hwhen]; exact hrun⟩

@[simp] theorem State.badBand_eq_false_iff (s : State) (b : BitVec 4) : s.badBand b = false ↔ s.HasBand b := by
  simp [State.badBand]

@[simp] theorem State.badBand_eq_true_iff (s : State) (b : BitVec 4) : s.badBand b = true ↔ ¬ s.HasBand b := by
  simp [State.badBand]

end

/-! ### Every instruction -/

/-- Every instruction is a command with checks of its own and an effect; after a fault, all but `RD.STAT` (R254). -/
theorem exec_eq_command (i : Instr) {s : State} (herr : s.err = false) : ∃ own e, exec i s = command i s own e := by
  cases i with
  | nop => exact ⟨[], s, rfl⟩
  | rdStat => exact ⟨[], s.emit s.port (statusWord s), if_neg (by simp [herr])⟩
  | _ => exact ⟨_, _, rfl⟩

section
variable {i : Instr} {p : Port}

/-- A row that is legal on one port raises `PORT` on the other one. -/
theorem onlyOn_of_port (hport : i.op.port = some p) : OnlyOn p i := by
  intro s herr hp
  obtain ⟨own, e, h⟩ := exec_eq_command i herr
  rw [Faults, h]
  exact command_raises_port herr (portOk_of_ne hport hp)

/-- A row of port A that is legal in mode RUNNING raises `MODE` in mode STOPPED. -/
theorem onlyRunning_of_when (hport : i.op.port = some .a) (hwhen : i.op.when = .running) (hw : i.wellFormed = true) :
    OnlyRunning i := by
  intro s herr hp hrun
  obtain ⟨own, e, h⟩ := exec_eq_command i herr
  rw [Faults, h]
  exact command_raises_mode herr (portOk_of_eq hport hp) hw (by rw [hwhen]; exact hrun)

/-- A row of port C that is legal in mode STOPPED raises `MODE` in mode RUNNING. -/
theorem onlyStopped_of_when (hport : i.op.port = some .c) (hwhen : i.op.when = .stopped) : OnlyStopped i := by
  intro s herr hp hw hrun
  obtain ⟨own, e, h⟩ := exec_eq_command i herr
  rw [Faults, h]
  exact command_raises_mode herr (portOk_of_eq hport hp) hw (by simp [hwhen, modeOk, hrun])

end

end Sys2Proof.Machine

/-!
The commands that read the status, and the modes (40_system.md R101, R104, R105, R107 to R109; 10_state.md R23, R26): the bits of
the words, then each command.
-/

namespace Sys2Proof.Machine

/-! ### NOP (R101) -/

/-- The one pair of words of `NOP`; its mask covers the whole header. -/
theorem decode_of_hdrOp_zero {k : Cmd} (hop : hdrOp k.h = 0) (hk : k ≠ { h := 0, d := 0 }) : decode k = .reserved .nop := by
  have hcode : Op.ofCode (hdrOp k.h) = some .nop := by rw [hop]; rfl
  cases hdec : decode k with
  | illegal => rw [ofCode_of_decode_illegal hdec] at hcode; cases hcode
  | reserved o =>
    rw [ofCode_of_decode_reserved hdec] at hcode
    cases hcode
    rfl
  | ok i =>
    obtain ⟨hi, _, _, hbuild⟩ := decode_ok_iff_build.1 hdec
    rw [hcode] at hi
    have hnop : i = .nop := by
      rw [← hbuild, ← Option.some.inj hi]
      rfl
    subst hnop
    exact absurd (encode_of_decode hdec).symm hk

theorem exec_nop (s : State) : exec .nop s = .next s := by
  cases herr : s.err with
  | true => exact command_of_err (i := .nop) [] s herr
  | false => exact command_completes (i := .nop) (own := []) s herr rfl rfl rfl rfl

/-- Settles O1: both ports and every mode are legal for `NOP`, and of the words with its opcode only (0, 0) is no fault. -/
theorem nopDoesNothing : Obligations.NopDoesNothing := by
  unfold Obligations.NopDoesNothing
  refine ⟨exec_nop, decode_encode .nop, fun k s hop hk herr => ?_⟩
  simp [runWords, decode_of_hdrOp_zero hop hk, rejectWords, herr, portOk, Op.port]

/-! ### RUN and STOP (R104, R105) -/

/-- Settles O4, by the mode conditions of the two rows. -/
theorem runAndStopSwitchMode : Obligations.RunAndStopSwitchMode := by
  unfold Obligations.RunAndStopSwitchMode
  refine ⟨onlyOn_of_port rfl, onlyOn_of_port rfl, fun s ⟨herr, hp⟩ => ?_⟩
  have hport : portOk (some .c) s.port = true := portOk_of_eq rfl hp
  refine ⟨fun hrun hprep => ?_, fun hmode => ?_, fun hrun => ?_, fun hrun => ?_⟩
  · exact command_completes _ herr hport rfl (by simp [Instr.op, Op.when, modeOk, hrun, hprep]) rfl
  · refine command_raises_mode herr hport rfl ?_
    rcases hmode with hrun | hprep
    · simp [Instr.op, Op.when, modeOk, hrun]
    · simp [Instr.op, Op.when, modeOk, hprep]
  · exact command_completes _ herr hport rfl hrun rfl
  · exact command_raises_mode herr hport rfl hrun

/-! ### The words of RD.STAT and RD.PEND (R23, R26) -/

theorem getLsbD_of_extractLsb'_eq_bit {w : Word} {n : Nat} {x : Bool} (h : w.extractLsb' n 1 = bit x) :
    w.getLsbD n = x := by
  have hbit : (w.extractLsb' n 1).getLsbD 0 = w.getLsbD n := by simp
  rw [← hbit, h]
  cases x <;> rfl

theorem portBit_eq (p : Port) : portBit p = bit (decide (p = .c)) := by cases p <;> rfl

/-- The status word, field by field: a field lies above what is appended after it. -/
theorem statusWord_fields (s : State) : (statusWord s).getLsbD 0 = s.running ∧ (statusWord s).getLsbD 1 = s.prepared
    ∧ (statusWord s).getLsbD 2 = s.err ∧ (statusWord s).extractLsb' 3 5 = 0 ∧ (statusWord s).extractLsb' 8 8 = s.errCode
    ∧ (statusWord s).getLsbD 16 = decide (s.errPort = .c) ∧ (statusWord s).extractLsb' 17 15 = 0
    ∧ (statusWord s).extractLsb' 32 32 = s.errCmd := by
  unfold statusWord
  refine ⟨getLsbD_of_extractLsb'_eq_bit ?_, getLsbD_of_extractLsb'_eq_bit ?_, getLsbD_of_extractLsb'_eq_bit ?_, ?_, ?_,
    getLsbD_of_extractLsb'_eq_bit ?_, ?_, ?_⟩
  · exact BitVec.extractLsb'_append_eq_right
  · rw [BitVec.extractLsb'_append_eq_of_le (by decide)]
    exact BitVec.extractLsb'_append_eq_right
  · iterate 2 rw [BitVec.extractLsb'_append_eq_of_le (by decide)]
    exact BitVec.extractLsb'_append_eq_right
  · iterate 3 rw [BitVec.extractLsb'_append_eq_of_le (by decide)]
    exact BitVec.extractLsb'_append_eq_right
  · iterate 4 rw [BitVec.extractLsb'_append_eq_of_le (by decide)]
    exact BitVec.extractLsb'_append_eq_right
  · iterate 5 rw [BitVec.extractLsb'_append_eq_of_le (by decide)]
    rw [← portBit_eq]
    exact BitVec.extractLsb'_append_eq_right
  · iterate 6 rw [BitVec.extractLsb'_append_eq_of_le (by decide)]
    exact BitVec.extractLsb'_append_eq_right
  · iterate 6 rw [BitVec.extractLsb'_append_eq_of_le (by decide)]
    exact BitVec.extractLsb'_append_eq_left

/-- The word of `RD.PEND`, field by field. -/
theorem pendingWord_fields (x : Band) : (pendingWord x).getLsbD 0 = x.updPend ∧ (pendingWord x).getLsbD 1 = x.rstPend
    ∧ (pendingWord x).getLsbD 2 = x.parPend ∧ (pendingWord x).extractLsb' 3 61 = 0 := by
  unfold pendingWord
  refine ⟨getLsbD_of_extractLsb'_eq_bit ?_, getLsbD_of_extractLsb'_eq_bit ?_, getLsbD_of_extractLsb'_eq_bit ?_, ?_⟩
  · exact BitVec.extractLsb'_append_eq_right
  · rw [BitVec.extractLsb'_append_eq_of_le (by decide)]
    exact BitVec.extractLsb'_append_eq_right
  · iterate 2 rw [BitVec.extractLsb'_append_eq_of_le (by decide)]
    exact BitVec.extractLsb'_append_eq_right
  · iterate 2 rw [BitVec.extractLsb'_append_eq_of_le (by decide)]
    exact BitVec.extractLsb'_append_eq_left

/-! ### RD.STAT and RD.PEND (R107, R109) -/

/-- A recorded fault does not stop `RD.STAT` (60_exceptions.md R254). -/
theorem exec_rdStat (s : State) : exec .rdStat s = .next (s.emit s.port (statusWord s)) := by
  cases herr : s.err with
  | true => exact if_pos herr
  | false =>
    refine (if_neg (by simp [herr])).trans ?_
    exact command_completes _ herr rfl rfl rfl rfl

/-- Settles O8. -/
theorem rdStatEmitsStatusWord : Obligations.RdStatEmitsStatusWord := by
  unfold Obligations.RdStatEmitsStatusWord
  exact fun s => ⟨statusWord s, exec_rdStat s, statusWord_fields s⟩

/-- Settles O10: `RD.PEND` may run on both ports and in every mode, and its one check is the band's. -/
theorem rdPendEmitsPendingFlags : Obligations.RdPendEmitsPendingFlags := by
  unfold Obligations.RdPendEmitsPendingFlags
  intro s b herr
  have hs : s.Ready (.rdPend b) := ⟨herr, rfl, rfl⟩
  refine ⟨fun hb => command_raises_own hs rfl ?_, fun hb => ⟨pendingWord (s.band b), ?_, pendingWord_fields _⟩⟩
  · simp [firstFailure_cons, hb]
  · exact command_has_effect hs rfl (by simp [firstFailure_cons, hb])

/-! ### RD.LAT (R108, 46_oversampler.md R212) -/

theorem latencyNumerator_eq_sum (s : State) (total n : Nat) : latencyNumerator s total n
    = ∑ m ∈ Finset.range n, ((s.stage m).ku + (s.stage m).kd - 1) * 2 ^ (total - 1 - m) := by
  induction n with
  | zero => rfl
  | succ n ih => rw [Finset.sum_range_succ, ← ih, latencyNumerator]

theorem State.IntsLegal.kMax_le {s : State} (h : s.IntsLegal) : s.par.kMax ≤ 256 := by
  have hp := h.params
  simp only [paramsLegal, Bool.and_eq_true, decide_eq_true_eq] at hp
  tauto

/-- Stage `n` contributes at most `D = 511` samples at its own rate; six stages stay below `512 · 2 ^ 6`. -/
theorem latencyNumerator_lt {s : State} (h : s.IntsLegal) : latencyNumerator s s.cfgS s.cfgS < 2 ^ 17 := by
  have hS := h.cfgS_le
  have hk := h.kMax_le
  rw [latencyNumerator_eq_sum]
  calc ∑ m ∈ Finset.range s.cfgS, ((s.stage m).ku + (s.stage m).kd - 1) * 2 ^ (s.cfgS - 1 - m)
      ≤ ∑ m ∈ Finset.range s.cfgS, 511 * 2 ^ (s.cfgS - 1 - m) := by
        refine Finset.sum_le_sum fun m hm => Nat.mul_le_mul_right _ ?_
        obtain ⟨_, hku, _, hkd⟩ := h.stage (show m < 6 by rw [Finset.mem_range] at hm; omega)
        omega
    _ = 511 * (2 ^ s.cfgS - 1) := by
        rw [← Finset.mul_sum, Finset.sum_range_reflect (fun m => 2 ^ m), Nat.geomSum_eq le_rfl]
        simp
    _ < 2 ^ 17 := by
        have hpow : 2 ^ s.cfgS ≤ 2 ^ 6 := Nat.pow_le_pow_right (by decide) hS
        omega

/-- Settles O9: the numerator fits its field, and so does the shift. -/
theorem rdLatReadsLatency : Obligations.RdLatReadsLatency := by
  unfold Obligations.RdLatReadsLatency
  refine ⟨onlyOn_of_port rfl, fun s hints hs => ⟨latencyWord s, ?_, ?_⟩⟩
  · exact command_has_effect (hs.ready rfl rfl) rfl rfl
  · have hlt := latencyNumerator_lt hints
    have hS := hints.cfgS_le
    have hnum : ((latencyWord s).extractLsb' 0 56).toNat = latencyNumerator s s.cfgS s.cfgS := by
      rw [latencyWord, BitVec.extractLsb'_append_eq_right, BitVec.toNat_ofNat]
      exact Nat.mod_eq_of_lt (by omega)
    have hshift : ((latencyWord s).extractLsb' 56 8).toNat = s.cfgS - 1 := by
      rw [latencyWord, BitVec.extractLsb'_append_eq_left, BitVec.toNat_ofNat]
      exact Nat.mod_eq_of_lt (by omega)
    rw [hnum, hshift, ← latencyNumerator_eq_sum]
    exact ⟨rfl, hlt, (Nat.max_zero _).symm⟩

end Sys2Proof.Machine

/-!
The configuration registers and `PREPARE` (40_system.md R102, R103; 10_state.md R24, R30, R32, R37, R38).
-/

namespace Sys2Proof.Machine

/-! ### The checks of CFG.WR (R102) -/

/-- The fields of `CFG.WR` name a register the block has: an id, and the band or the stage where the id uses one. -/
def State.HasRegister (s : State) (bnd chs : BitVec 4) (sub : BitVec 8) : Prop :=
  sub.toNat ≤ 5 ∧ (sub = 3 → s.HasBand bnd) ∧ (sub = 4 ∨ sub = 5 → chs.toNat < 6)

/-- The own checks of `CFG.WR`. -/
def cfgWrChecks (s : State) (bnd chs : BitVec 4) (sub : BitVec 8) (n : Nat) : List (Bool × ErrCode) :=
  [(decide (5 < sub.toNat), .index),
   (decide (sub.toNat = 3) && s.badBand bnd, .index),
   ((decide (sub.toNat = 4) || decide (sub.toNat = 5)) && decide (6 ≤ chs.toNat), .index),
   (cfgBadValue s.par sub.toNat n, .value)]

section
variable {s : State} {bnd chs : BitVec 4} {sub : BitVec 8} {n : Nat} {d : Word}

theorem exec_cfgWr_eq_command (s : State) (bnd chs : BitVec 4) (sub : BitVec 8) (d : Word) : exec (.cfgWr bnd chs sub d) s
    = command (.cfgWr bnd chs sub d) s (cfgWrChecks s bnd chs sub d.toNat)
      { cfgWrite s bnd chs sub.toNat d.toNat with prepared := false } := rfl

theorem hasRegister_iff : s.HasRegister bnd chs sub ↔ decide (5 < sub.toNat) = false
    ∧ (decide (sub.toNat = 3) && s.badBand bnd) = false
    ∧ ((decide (sub.toNat = 4) || decide (sub.toNat = 5)) && decide (6 ≤ chs.toNat)) = false := by
  simp [State.HasRegister, BitVec.toNat_eq_nat]

theorem firstFailure_cfgWrChecks_of_hasRegister (h : s.HasRegister bnd chs sub) :
    firstFailure (cfgWrChecks s bnd chs sub n) = if cfgBadValue s.par sub.toNat n = true then some .value else none := by
  obtain ⟨hid, hband, hstage⟩ := hasRegister_iff.1 h
  rw [cfgWrChecks, hid, hband, hstage]
  simp only [firstFailure_cons, firstFailure_nil, Bool.false_eq_true, if_false]

theorem firstFailure_cfgWrChecks_of_not_hasRegister (h : ¬ s.HasRegister bnd chs sub) :
    firstFailure (cfgWrChecks s bnd chs sub n) = some .index := by
  rw [hasRegister_iff] at h
  simp only [cfgWrChecks, firstFailure_cons]
  split_ifs <;> simp_all

/-- Ids 0 to 2 name one register each. -/
theorem hasRegister_of_global (h : sub = 0 ∨ sub = 1 ∨ sub = 2) : s.HasRegister bnd chs sub := by
  rcases h with rfl | rfl | rfl <;> exact ⟨by decide, nofun, by rintro (h | h) <;> cases h⟩

theorem hasRegister_topo (hb : s.HasBand bnd) : s.HasRegister bnd chs 3 :=
  ⟨by decide, fun _ => hb, by rintro (h | h) <;> cases h⟩

theorem hasRegister_of_stage (h : sub = 4 ∨ sub = 5) (hst : chs.toNat < 6) : s.HasRegister bnd chs sub := by
  rcases h with rfl | rfl <;> exact ⟨by decide, nofun, fun _ => hst⟩

theorem cfgWr_wellFormed_iff : (Instr.cfgWr bnd chs sub d).wellFormed = true ↔
    (bnd = 0 ∨ sub = 3) ∧ (chs = 0 ∨ sub = 4 ∨ sub = 5) := by
  simp [Instr.wellFormed, cfgBandFieldOk, cfgStageFieldOk, or_assoc]

end

/-! ### The ranges of the registers (R24) -/

section
variable (p : Params) (n : Nat)

theorem cfgBadValue_nch_iff : cfgBadValue p 0 n = true ↔ ¬ (1 ≤ n ∧ n ≤ 16) := by grind [cfgBadValue]

theorem cfgBadValue_s_iff : cfgBadValue p 1 n = true ↔ ¬ (n ≤ 6) := by grind [cfgBadValue]

theorem cfgBadValue_maxblk_iff : cfgBadValue p 2 n = true ↔ ¬ (1 ≤ n ∧ n ≤ p.maxblkMax) := by grind [cfgBadValue]

theorem cfgBadValue_topo_iff : cfgBadValue p 3 n = true ↔ ¬ (n ≤ 1) := by grind [cfgBadValue]

theorem cfgBadValue_ku_iff : cfgBadValue p 4 n = true ↔ ¬ (1 ≤ n ∧ n ≤ p.kMax) := by grind [cfgBadValue]

theorem cfgBadValue_kd_iff : cfgBadValue p 5 n = true ↔ ¬ (1 ≤ n ∧ n ≤ p.kMax) := by grind [cfgBadValue]

end

/-! ### CFG.WR -/

section
variable {s : State} {bnd chs : BitVec 4} {sub : BitVec 8} {d : Word} (hs : s.Configuring)
include hs

theorem exec_cfgWr (hbnd : bnd = 0 ∨ sub = 3) (hchs : chs = 0 ∨ sub = 4 ∨ sub = 5) (hreg : s.HasRegister bnd chs sub)
    (hv : ¬ cfgBadValue s.par sub.toNat d.toNat = true) :
    exec (.cfgWr bnd chs sub d) s = .next { cfgWrite s bnd chs sub.toNat d.toNat with prepared := false } := by
  rw [exec_cfgWr_eq_command]
  refine command_has_effect (hs.ready rfl rfl) (cfgWr_wellFormed_iff.2 ⟨hbnd, hchs⟩) ?_
  rw [firstFailure_cfgWrChecks_of_hasRegister hreg, if_neg hv]

theorem cfgWr_faults_index (hw : (Instr.cfgWr bnd chs sub d).wellFormed = true) (hreg : ¬ s.HasRegister bnd chs sub) :
    Faults (.cfgWr bnd chs sub d) s .index := by
  rw [Faults, exec_cfgWr_eq_command]
  exact command_raises_own (hs.ready rfl rfl) hw (firstFailure_cfgWrChecks_of_not_hasRegister hreg)

theorem cfgWr_faults_value (hw : (Instr.cfgWr bnd chs sub d).wellFormed = true) (hreg : s.HasRegister bnd chs sub)
    (hv : cfgBadValue s.par sub.toNat d.toNat = true) : Faults (.cfgWr bnd chs sub d) s .value := by
  rw [Faults, exec_cfgWr_eq_command]
  refine command_raises_own (hs.ready rfl rfl) hw ?_
  rw [firstFailure_cfgWrChecks_of_hasRegister hreg, if_pos hv]

end

/-- Settles O2: each register has its field conditions and its range, and the clauses on faults are the checks in their order. -/
theorem cfgWrWritesRegister : Obligations.CfgWrWritesRegister := by
  unfold Obligations.CfgWrWritesRegister
  intro bnd chs sub d
  refine ⟨onlyOn_of_port rfl, onlyStopped_of_when rfl rfl, fun s hs => ⟨?_, ?_, ?_, ?_, ?_, ?_, ?_, ?_, ?_⟩⟩
  · rintro rfl hbnd hchs hn hn'
    exact exec_cfgWr hs (.inl hbnd) (.inl hchs) (hasRegister_of_global (.inl rfl))
      ((cfgBadValue_nch_iff _ _).not_left.2 ⟨hn, hn'⟩)
  · rintro rfl hbnd hchs hn
    exact exec_cfgWr hs (.inl hbnd) (.inl hchs) (hasRegister_of_global (.inr (.inl rfl)))
      ((cfgBadValue_s_iff _ _).not_left.2 hn)
  · rintro rfl hbnd hchs hn hn'
    exact exec_cfgWr hs (.inl hbnd) (.inl hchs) (hasRegister_of_global (.inr (.inr rfl)))
      ((cfgBadValue_maxblk_iff _ _).not_left.2 ⟨hn, hn'⟩)
  · rintro rfl hchs hb hn
    exact exec_cfgWr hs (.inr rfl) (.inl hchs) (hasRegister_topo hb)
      ((cfgBadValue_topo_iff _ _).not_left.2 hn)
  · rintro rfl hbnd hst hn hn'
    exact exec_cfgWr hs (.inl hbnd) (.inr (.inl rfl)) (hasRegister_of_stage (.inl rfl) hst)
      ((cfgBadValue_ku_iff _ _).not_left.2 ⟨hn, hn'⟩)
  · rintro rfl hbnd hst hn hn'
    exact exec_cfgWr hs (.inl hbnd) (.inr (.inr rfl)) (hasRegister_of_stage (.inr rfl) hst)
      ((cfgBadValue_kd_iff _ _).not_left.2 ⟨hn, hn'⟩)
  · intro hfield
    refine command_raises_field (hs.ready rfl rfl) ?_
    rw [← Bool.not_eq_true, cfgWr_wellFormed_iff]
    tauto
  · rintro hw hindex
    refine cfgWr_faults_index hs hw ?_
    rintro ⟨hid, hband, hstage⟩
    rcases hindex with hbad | ⟨h3, hb⟩ | ⟨h45, hst⟩
    · omega
    · exact hb (hband h3)
    · have := hstage h45
      omega
  · rintro hw (⟨rfl, hn⟩ | ⟨rfl, hn⟩ | ⟨rfl, hn⟩ | ⟨rfl, hb, hn⟩ | ⟨rfl | rfl, hst, hn⟩)
    · exact cfgWr_faults_value hs hw (hasRegister_of_global (.inl rfl)) ((cfgBadValue_nch_iff _ _).2 hn)
    · exact cfgWr_faults_value hs hw (hasRegister_of_global (.inr (.inl rfl))) ((cfgBadValue_s_iff _ _).2 (Nat.not_le.2 hn))
    · exact cfgWr_faults_value hs hw (hasRegister_of_global (.inr (.inr rfl))) ((cfgBadValue_maxblk_iff _ _).2 hn)
    · exact cfgWr_faults_value hs hw (hasRegister_topo hb) ((cfgBadValue_topo_iff _ _).2 (Nat.not_le.2 hn))
    · exact cfgWr_faults_value hs hw (hasRegister_of_stage (.inl rfl) hst) ((cfgBadValue_ku_iff _ _).2 hn)
    · exact cfgWr_faults_value hs hw (hasRegister_of_stage (.inr rfl) hst) ((cfgBadValue_kd_iff _ _).2 hn)

/-! ### PREPARE (R103) -/

/-- What `PREPARE` leaves of a state. -/
def prepareEffect (s : State) : State :=
  { s with bands := s.bands.map prepareBand, chans := Vector.replicate 16 Chan.reset, prepared := true }

theorem exec_prepare {s : State} (hs : s.Configuring) : exec .prepare s = .next (prepareEffect s) :=
  command_has_effect (hs.ready rfl rfl) rfl rfl

theorem prepareEffect_band (s : State) (b : BitVec 4) : (prepareEffect s).band b = prepareBand (s.band b) :=
  State.mapBands_band s prepareBand b

theorem prepareEffect_chan (s : State) (c : BitVec 4) : (prepareEffect s).chan c = Chan.reset :=
  State.resetChans_chan s c

/-- Clearing what is clear changes nothing. -/
theorem prepareEffect_prepareEffect (s : State) : prepareEffect (prepareEffect s) = prepareEffect s := by
  have htwice : prepareBand ∘ prepareBand = prepareBand := rfl
  simp only [prepareEffect, Vector.map_map, htwice]

theorem lineAt_replicate (n : Nat) : lineAt (Vector.replicate 6 []) n = [] := by
  by_cases hn : n < 6 <;> simp [lineAt, hn]

/-- Settles O3: the new bands and channels one by one, and the second `PREPARE` in the state the first one leaves. -/
theorem prepareClearsRunState : Obligations.PrepareClearsRunState := by
  unfold Obligations.PrepareClearsRunState
  refine ⟨onlyOn_of_port rfl, onlyStopped_of_when rfl rfl, fun s hs => ⟨prepareEffect s, exec_prepare hs, rfl, ?_, ?_, ?_⟩⟩
  · intro b
    rw [prepareEffect_band]
    exact ⟨rfl, fun n => ⟨rfl, rfl⟩⟩
  · intro c
    rw [prepareEffect_chan]
    refine ⟨rfl, fun n k _ => ?_⟩
    simp only [Chan.reset, lineAt_replicate]
    exact ⟨rfl, rfl, rfl⟩
  · exact (exec_prepare (s := prepareEffect s) hs).trans (by rw [prepareEffect_prepareEffect])

end Sys2Proof.Machine

/-!
The block boundary (40_system.md R106, R111): its three steps, what each leaves alone, and `BLK`.
-/

namespace Sys2Proof.Machine

/-! ### The steps of the block boundary (R106) -/

section
variable (u : Fpu) (x : Band)

theorem resetDue_iff : resetDue x = true ↔ x.rstPend = true ∨ (x.updPend = true ∧ x.stgN ≠ x.actN) := by
  simp [resetDue]

theorem blockReset_eq_ite : blockReset x = if x.rstPend = true ∨ (x.updPend = true ∧ x.stgN ≠ x.actN)
    then { resetCascade x with rstPend := false } else x := by
  simp only [blockReset, resetDue_iff]

theorem blockReset_frame : ∃ st : Bank, blockReset x = { x with st := st, rstPend := false } := by
  rw [blockReset_eq_ite]
  split
  · exact ⟨[], rfl⟩
  · next hdue =>
    have hr : x.rstPend = false := by simpa using (not_or.1 hdue).1
    exact ⟨x.st, by rw [← hr]⟩

theorem blockActivate_frame : ∃ (actN : Nat) (actC actV : Bank),
    blockActivate u x = { x with actN := actN, actC := actC, actV := actV, updPend := false } := by
  unfold blockActivate
  split
  · exact ⟨_, _, _, rfl⟩
  · next hu => exact ⟨x.actN, x.actC, x.actV, by rw [← Bool.eq_false_iff.2 hu]⟩

theorem blockBoundary_flags : (blockBoundary u x).parPend = false ∧ (blockBoundary u x).rstPend = false
    ∧ (blockBoundary u x).updPend = false := by
  obtain ⟨hframe, _⟩ := blockBoundary_frame u x
  rw [hframe]
  exact ⟨rfl, rfl, rfl⟩

/-- With no flag set nothing is due at the block boundary. -/
theorem blockBoundary_of_no_flag (hp : x.parPend = false) (hr : x.rstPend = false) (hu : x.updPend = false) :
    blockBoundary u x = x := by
  simp [blockBoundary, blockParams, blockReset, blockActivate, resetDue, hp, hr, hu]

end

/-! ### BLK -/

section
variable {s : State} {b : BitVec 4} (hs : s.Processing) (hb : s.HasBand b)
include hs hb

theorem exec_blk : exec (.blk b) s = .next (s.setBand b (blockBoundary s.fpu (s.band b))) :=
  command_has_effect (hs.ready rfl rfl) rfl (by simp [firstFailure_cons, hb])

theorem exec_blk_of_no_flag (hp : (s.band b).parPend = false) (hr : (s.band b).rstPend = false)
    (hu : (s.band b).updPend = false) : exec (.blk b) s = .next s := by
  rw [exec_blk hs hb, blockBoundary_of_no_flag _ _ hp hr hu, State.setBand_self]

end

/-- Settles O5: the three steps are `blockParams`, `blockReset` and `blockActivate`, and they leave no flag for a second `BLK`. -/
theorem blkRunsBlockBoundary : Obligations.BlkRunsBlockBoundary := by
  unfold Obligations.BlkRunsBlockBoundary
  intro b
  refine ⟨onlyOn_of_port rfl, onlyRunning_of_when rfl rfl rfl, fun s hs => ⟨fun hb => ?_, fun hb => ?_⟩⟩
  · exact command_raises_own (hs.ready rfl rfl) rfl (by simp [firstFailure_cons, hb])
  · generalize ht : s.setBand b (blockBoundary s.fpu (s.band b)) = t
    have hband : t.band b = blockBoundary s.fpu (s.band b) := by rw [← ht, State.setBand_band]
    obtain ⟨hp, hr, hu⟩ : (t.band b).parPend = false ∧ (t.band b).rstPend = false ∧ (t.band b).updPend = false :=
      hband ▸ blockBoundary_flags s.fpu (s.band b)
    have htwice : exec (.blk b) t = .next t :=
      exec_blk_of_no_flag (by rw [← ht]; exact hs) (by rw [← ht]; exact hb) hp hr hu
    refine ⟨t, s.fpu.at 0, s.fpu.at 1, blockParams (s.fpu.at 0) (s.band b), _, ht ▸ exec_blk hs hb, ?_, rfl, rfl, rfl, rfl,
      ?_, hp, hr, hu, htwice⟩
    · rw [hband, ht]
    · rw [hband, ← blockReset_eq_ite]
      rfl

/-! ### The parameters at the block boundary (R111) -/

section
variable (u : Fpu) {x : Band}

/-- After the first step of the block boundary only the section state, the active banks and two flags change. -/
theorem blockBoundary_eq_blockParams (x : Band) : ∃ (st actC actV : Bank) (actN : Nat), blockBoundary u x =
    { blockParams (u.at 0) x with
      st := st, rstPend := false, updPend := false, actN := actN, actC := actC, actV := actV } := by
  obtain ⟨st, hreset⟩ := blockReset_frame (blockParams (u.at 0) x)
  obtain ⟨actN, actC, actV, hactivate⟩ := blockActivate_frame (u.at 1) (blockReset (blockParams (u.at 0) x))
  refine ⟨st, actC, actV, actN, ?_⟩
  rw [blockBoundary, hactivate, hreset]

theorem blockParams_of_same_window (hp : x.parPend = true) (hw : x.stgWn = x.rmsW) :
    blockParams u x = { x with active := x.staged, knee := kneeInterp u x.staged, parPend := false } := by
  simp [blockParams, applyParams, hp, hw]

theorem blockParams_of_new_window (hp : x.parPend = true) (hw : x.stgWn ≠ x.rmsW) : blockParams u x =
    { rmsResize x x.stgWn with active := x.staged, knee := kneeInterp u x.staged, parPend := false } := by
  simp [blockParams, applyParams, hp, hw, rmsResize, rmsClear]

theorem blockBoundary_copies (hp : x.parPend = true) : (blockBoundary u x).active = x.staged
    ∧ (blockBoundary u x).knee = kneeInterp (u.at 0) x.staged := by
  obtain ⟨_, _, _, _, h⟩ := blockBoundary_eq_blockParams u x
  by_cases hw : x.stgWn = x.rmsW
  · rw [h, blockParams_of_same_window _ hp hw]
    exact ⟨rfl, rfl⟩
  · rw [h, blockParams_of_new_window _ hp hw]
    exact ⟨rfl, rfl⟩

theorem blockBoundary_of_same_window (hp : x.parPend = true) (hw : x.stgWn = x.rmsW) :
    (blockBoundary u x).rmsW = x.rmsW ∧ (blockBoundary u x).rmsTot = x.rmsTot ∧ (blockBoundary u x).rmsAcc = x.rmsAcc
      ∧ (blockBoundary u x).rmsPos = x.rmsPos ∧ (blockBoundary u x).rmsBuf = x.rmsBuf := by
  obtain ⟨_, _, _, _, h⟩ := blockBoundary_eq_blockParams u x
  rw [h, blockParams_of_same_window _ hp hw]
  exact ⟨rfl, rfl, rfl, rfl, rfl⟩

/-- A window of another length starts empty (R156, R159). -/
theorem blockBoundary_of_new_window (hp : x.parPend = true) (hw : x.stgWn ≠ x.rmsW) :
    (blockBoundary u x).rmsW = x.stgWn ∧ (blockBoundary u x).rmsTot = 0 ∧ (blockBoundary u x).rmsAcc = 0
      ∧ (blockBoundary u x).rmsPos = 0 ∧ ∀ n : Nat, (blockBoundary u x).rmsBuf.read n = 0 := by
  obtain ⟨_, _, _, _, h⟩ := blockBoundary_eq_blockParams u x
  rw [h, blockParams_of_new_window _ hp hw]
  exact ⟨rfl, rfl, rfl, rfl, fun _ => rfl⟩

/-- What no block boundary changes of the staged parameters, the follower and the dynamics output. -/
theorem blockBoundary_keeps (x : Band) : (blockBoundary u x).staged = x.staged ∧ (blockBoundary u x).stgWn = x.stgWn
    ∧ (blockBoundary u x).foXS = x.foXS ∧ (blockBoundary u x).foXC = x.foXC ∧ (blockBoundary u x).dyOut = x.dyOut := by
  obtain ⟨hframe, _⟩ := blockBoundary_frame u x
  rw [hframe]
  exact ⟨rfl, rfl, rfl, rfl, rfl⟩

/-- Without an update and without a reset the section state and the active banks stay. -/
theorem blockBoundary_of_only_parPend (hu : x.updPend = false) (hr : x.rstPend = false) : blockBoundary u x =
    { x with
      parPend := false, active := (blockBoundary u x).active, knee := (blockBoundary u x).knee,
      rmsW := (blockBoundary u x).rmsW, rmsTot := (blockBoundary u x).rmsTot, rmsAcc := (blockBoundary u x).rmsAcc,
      rmsPos := (blockBoundary u x).rmsPos, rmsBuf := (blockBoundary u x).rmsBuf } := by
  obtain ⟨hframe, _, hactive, _, hst⟩ := blockBoundary_frame u x
  obtain ⟨hactN, hactC, hactV⟩ := hactive hu
  rw [hst (by simp [resetDue, hu, hr]), hactN, hactC, hactV] at hframe
  rw [hu, hr]
  exact hframe

end

/-- Settles O6: the first step copies, derives and resizes, and the frame of the block boundary gives the rest. -/
theorem applyParamsCopiesAndDerives : Obligations.ApplyParamsCopiesAndDerives := by
  unfold Obligations.ApplyParamsCopiesAndDerives
  intro s b hs hb hp
  refine ⟨_, s.fpu.at 0, rfl, exec_blk hs hb, by rw [State.setBand_band], ?_⟩
  rw [State.setBand_band]
  obtain ⟨hactive, hknee⟩ := blockBoundary_copies s.fpu hp
  obtain ⟨hstaged, hstgWn, hxs, hxc, hout⟩ := blockBoundary_keeps s.fpu (s.band b)
  refine ⟨hactive, hstaged, hstgWn, ?_, ?_, ?_, ?_, ?_, ?_, ?_, blockBoundary_of_new_window s.fpu hp,
    blockBoundary_of_same_window s.fpu hp, hxs, hxc, hout, blockBoundary_of_only_parPend s.fpu⟩
  all_goals
    rw [hknee]
    rfl

end Sys2Proof.Machine

/-!
The parameter setter (40_system.md R110): its checks, then each id. At the end, the words the spec writes out as examples of its
commands (30_encoding.md R84).
-/

namespace Sys2Proof.Machine

/-! ### The checks of PR.WR (R110) -/

section
variable {s : State} {b : BitVec 4} {sub : BitVec 8} {d : Word} (hs : s.Control)
include hs

theorem prWr_faults_index (h : ¬ s.HasBand b ∨ 10 < sub.toNat) : Faults (.prWr b sub d) s .index := by
  refine command_raises_own (hs.ready rfl rfl) rfl ?_
  by_cases hb : s.HasBand b
  · have hid : 10 < sub.toNat := h.resolve_left (not_not_intro hb)
    simp [firstFailure_cons, hid]
  · simp [firstFailure_cons, hb]

theorem prWr_faults_value (hb : s.HasBand b) (hid : sub.toNat ≤ 10) (hv : prBadValue s.fpu sub.toNat d = true) :
    Faults (.prWr b sub d) s .value :=
  command_raises_own (hs.ready rfl rfl) rfl (by simp [firstFailure_cons, hb, hid, hv])

theorem exec_prWr (hb : s.HasBand b) (hid : sub.toNat ≤ 10) (hv : ¬ prBadValue s.fpu sub.toNat d = true) :
    exec (.prWr b sub d) s
      = .next (s.setBand b { stageParam s.par s.fpu sub.toNat d (s.band b) with parPend := true }) :=
  command_has_effect (hs.ready rfl rfl) rfl (by simp [firstFailure_cons, hb, hid, hv])

end

section
variable (u : Fpu) {id : Nat} (d : Word)

theorem prBadValue_float_iff (hid : id ≤ 5) : prBadValue u id d = true ↔ ¬ isFinite u.fmt (narrow u 0 d) = true := by
  simp [prBadValue, hid, parameterOperand]

theorem prBadValue_style_iff (hid : id = 6 ∨ id = 7) : prBadValue u id d = true ↔ 4 < d.toNat := by
  rcases hid with rfl | rfl <;> exact decide_eq_true_iff

theorem prBadValue_switch_iff (hid : id = 8 ∨ id = 9) : prBadValue u id d = true ↔ 1 < d.toNat := by
  rcases hid with rfl | rfl <;> exact decide_eq_true_iff

/-- A window length is clamped, never refused. -/
theorem prBadValue_window : ¬ prBadValue u 10 d = true := by simp [prBadValue]

end

/-! ### PR.WR -/

/-- Settles O11, id by id: the value is refused as its class asks, and else the clamp of the id is staged. -/
theorem prWrStagesClampedValue : Obligations.PrWrStagesClampedValue := by
  unfold Obligations.PrWrStagesClampedValue
  intro b sub d
  refine ⟨onlyOn_of_port rfl, fun s hs => ⟨prWr_faults_index hs, fun hb hid => ⟨s.fpu, rfl, fun hinf => ?_, fun hfin => ?_⟩,
    fun hb => ⟨?_, ?_, ?_, ?_, ?_, ?_, ?_⟩⟩⟩
  · exact prWr_faults_value hs hb (by omega) ((prBadValue_float_iff s.fpu d hid).2 (Bool.eq_false_iff.1 hinf))
  · have hexec := exec_prWr hs hb (by omega) ((prBadValue_float_iff s.fpu d hid).not_left.2 hfin)
    refine ⟨?_, ?_, ?_, ?_, ?_, ?_⟩ <;> (rintro rfl; exact hexec)
  · rintro (rfl | rfl) hn
    · exact prWr_faults_value hs hb (by decide) ((prBadValue_style_iff s.fpu d (.inl rfl)).2 hn)
    · exact prWr_faults_value hs hb (by decide) ((prBadValue_style_iff s.fpu d (.inr rfl)).2 hn)
  · rintro (rfl | rfl) hn
    · exact prWr_faults_value hs hb (by decide) ((prBadValue_switch_iff s.fpu d (.inl rfl)).2 hn)
    · exact prWr_faults_value hs hb (by decide) ((prBadValue_switch_iff s.fpu d (.inr rfl)).2 hn)
  · rintro rfl hn
    exact exec_prWr hs hb (by decide) fun h => hn.not_gt ((prBadValue_style_iff s.fpu d (.inl rfl)).1 h)
  · rintro rfl hn
    exact exec_prWr hs hb (by decide) fun h => hn.not_gt ((prBadValue_style_iff s.fpu d (.inr rfl)).1 h)
  · rintro rfl hn
    exact exec_prWr hs hb (by decide) fun h => hn.not_gt ((prBadValue_switch_iff s.fpu d (.inl rfl)).1 h)
  · rintro rfl hn
    exact exec_prWr hs hb (by decide) fun h => hn.not_gt ((prBadValue_switch_iff s.fpu d (.inr rfl)).1 h)
  · rintro rfl
    exact exec_prWr hs hb (by decide) (prBadValue_window s.fpu d)

end Sys2Proof.Machine

namespace Sys2Proof

/-! ### Words the spec writes out (R84) -/

/-- Settles O49: each pair is what its command encodes to, and the decoder inverts the encoder. -/
theorem specWordsDecode : Obligations.SpecWordsDecode := by
  unfold Obligations.SpecWordsDecode
  simp only [decode_eq_ok_iff]
  exact ⟨rfl, rfl, rfl, rfl, rfl, rfl, rfl, rfl, rfl, rfl, rfl, rfl⟩

end Sys2Proof

/-!
The biquad cascade (41_biquad_cascade.md R121 to R133): the checks and the effect of each `BQ.*` command, and the activation of a
whole bank at the block boundary.
-/

namespace Sys2Proof.Machine

/-! ### A command whose first check is the band's (R253) -/

section
variable {i : Instr} {s : State} {b : BitVec 4} {own : List (Bool × ErrCode)} {e : State}

theorem command_of_not_hasBand (hs : s.Ready i) (hw : i.wellFormed = true) (hb : ¬ s.HasBand b) :
    command i s ((s.badBand b, .index) :: own) e = .next (s.raise .index i.header) :=
  command_raises_own hs hw (by simp [firstFailure_cons, hb])

theorem command_of_hasBand (hs : s.Ready i) (hw : i.wellFormed = true) (hb : s.HasBand b) :
    command i s [(s.badBand b, .index)] e = .next e :=
  command_has_effect hs hw (by simp [firstFailure_cons, hb])

end

/-! ### BQ.WRC (R121) -/

section
variable {s : State} {b : BitVec 4} {idx sub : BitVec 8} {m : Nat}

/-- The index checks that `BQ.WRC` and `BQ.RDS` share: band, section, and a selector of at most `m`. -/
theorem firstFailure_of_coefficient (hb : s.HasBand b) (hidx : idx.toNat < 8) (hsub : sub.toNat ≤ m)
    (rest : List (Bool × ErrCode)) :
    firstFailure ((s.badBand b, .index) :: (decide (8 ≤ idx.toNat), .index) :: (decide (m < sub.toNat), .index) :: rest)
      = firstFailure rest := by
  simp [firstFailure_cons, hb, Nat.not_le.2 hidx, Nat.not_lt.2 hsub]

theorem firstFailure_of_no_coefficient (h : ¬ s.HasBand b ∨ 8 ≤ idx.toNat ∨ m < sub.toNat)
    (rest : List (Bool × ErrCode)) :
    firstFailure ((s.badBand b, .index) :: (decide (8 ≤ idx.toNat), .index) :: (decide (m < sub.toNat), .index) :: rest)
      = some .index := by
  rcases h with hb | hidx | hsub
  · simp [firstFailure_cons, hb]
  · simp [firstFailure_cons, hidx]
  · simp [firstFailure_cons, hsub]

theorem exec_bqWrc (hs : s.Control) (d : Word) (hb : s.HasBand b) (hidx : idx.toNat < 8) (hsub : sub.toNat ≤ 4)
    (hu : (s.band b).updPend = false) : exec (.bqWrc b idx sub d) s = .next (s.setBand b
      { s.band b with stgC := (s.band b).stgC.write (5 * idx.toNat + sub.toNat) d }) :=
  command_has_effect (hs.ready rfl rfl) rfl ((firstFailure_of_coefficient hb hidx hsub _).trans (by simp [hu]))

end

/-- A coefficient bank after a write to one element: section and selector tell the forty elements apart (R27). -/
theorem Bank.read_write_coefficient (c : Bank) {n k n' k' : Nat} (hk : k < 5) (hk' : k' < 5) (w : Word) :
    (c.write (5 * n' + k') w).read (5 * n + k) = if n = n' ∧ k = k' then w else c.read (5 * n + k) := by
  have hsame : 5 * n + k = 5 * n' + k' ↔ n = n' ∧ k = k' := by omega
  simp only [Bank.read_write, hsame]

/-- Settles O12. -/
theorem bqWrcWritesOneCoefficient : Obligations.BqWrcWritesOneCoefficient := by
  unfold Obligations.BqWrcWritesOneCoefficient
  intro b idx sub d
  refine ⟨onlyOn_of_port rfl, fun s hs => ⟨fun h => ?_, fun hb hidx hsub hu => ?_, fun hb hidx hsub hu =>
    ⟨_, exec_bqWrc hs d hb hidx hsub hu, by rw [State.setBand_band], fun n k _ hk => ?_⟩⟩⟩
  · exact command_raises_own (hs.ready rfl rfl) rfl (firstFailure_of_no_coefficient h _)
  · exact command_raises_own (hs.ready rfl rfl) rfl
      ((firstFailure_of_coefficient hb hidx hsub _).trans (by simp [firstFailure_cons, hu]))
  · rw [State.setBand_band]
    exact Bank.read_write_coefficient _ hk (by omega) d

/-! ### BQ.WRN (R122) -/

/-- Settles O13: one case per check, in their order, and the case where all pass. -/
theorem bqWrnWritesCount : Obligations.BqWrnWritesCount := by
  unfold Obligations.BqWrnWritesCount
  intro b d
  refine ⟨onlyOn_of_port rfl, fun s hs => ?_⟩
  have hready : s.Ready (.bqWrn b d) := hs.ready rfl rfl
  refine ⟨command_of_not_hasBand hready rfl, fun hb hn => ?_, fun hb hn hu => ?_, fun hb hn hu => ?_⟩
  · exact command_raises_own hready rfl (by simp [firstFailure_cons, hb, integerOperand, hn])
  · exact command_raises_own hready rfl (by simp [firstFailure_cons, hb, integerOperand, Nat.not_lt.2 hn, hu])
  · exact command_has_effect hready rfl (by simp [firstFailure_cons, hb, integerOperand, Nat.not_lt.2 hn, hu])

/-! ### BQ.COMMIT and BQ.RSTREQ (R123, R124) -/

theorem exec_bqCommit {s : State} {b : BitVec 4} (hs : s.Control) (hb : s.HasBand b) (r : Bool) : exec (.bqCommit b r) s =
    .next (s.setBand b { s.band b with updPend := true, rstPend := (s.band b).rstPend || r }) :=
  command_of_hasBand (hs.ready rfl rfl) rfl hb

/-- Settles O14: `BQ.COMMIT` by its option bit. -/
theorem commitAndResetRequestRaiseFlags : Obligations.CommitAndResetRequestRaiseFlags := by
  unfold Obligations.CommitAndResetRequestRaiseFlags
  intro b
  refine ⟨fun r => onlyOn_of_port rfl, onlyOn_of_port rfl, fun s hs => ⟨fun hb => ⟨fun r => ?_, ?_⟩, fun hb => ⟨?_, ?_, ?_⟩⟩⟩
  · exact command_of_not_hasBand (hs.ready rfl rfl) rfl hb
  · exact command_of_not_hasBand (hs.ready rfl rfl) rfl hb
  · rw [exec_bqCommit hs hb, Bool.or_false]
  · rw [exec_bqCommit hs hb, Bool.or_true]
  · exact command_of_hasBand (hs.ready rfl rfl) rfl hb

/-! ### BQ.RESET (R125, R131) -/

theorem exec_bqReset {s : State} {b : BitVec 4} (hs : s.Processing) (hb : s.HasBand b) :
    exec (.bqReset b) s = .next (s.setBand b (resetCascade (s.band b))) :=
  command_of_hasBand (hs.ready rfl rfl) rfl hb

theorem exec_bqReset_of_clear {s : State} {b : BitVec 4} (hs : s.Processing) (hb : s.HasBand b)
    (hst : resetCascade (s.band b) = s.band b) : exec (.bqReset b) s = .next s := by
  rw [exec_bqReset hs hb, hst, State.setBand_self]

/-- Settles O15: the section state is the empty bank, which reads +0, and clearing it again leaves it. -/
theorem bqResetClearsSectionState : Obligations.BqResetClearsSectionState := by
  unfold Obligations.BqResetClearsSectionState
  intro b
  refine ⟨onlyOn_of_port rfl, onlyRunning_of_when rfl rfl rfl, fun s hs =>
    ⟨command_of_not_hasBand (hs.ready rfl rfl) rfl, fun hb => ⟨_, exec_bqReset hs hb, ?_, fun c n i _ _ => ?_, ?_⟩⟩⟩
  · rw [State.setBand_band]
    rfl
  · rw [State.setBand_band]
    rfl
  · exact exec_bqReset_of_clear hs hb (by rw [State.setBand_band]; rfl)

/-! ### BQ.PROC (R126 to R128) -/

/-- For binary32 a sample operand is bits 31:0 of the word (R82). -/
theorem toFormat_binary32 (w : Word) : toFormat .binary32 w = (w.extractLsb' 0 32).setWidth 64 := by
  apply BitVec.eq_of_toNat_eq
  have hlt : w.toNat % 2 ^ 32 < 2 ^ 64 := (Nat.mod_lt _ (by decide)).trans (by decide)
  rw [toFormat_toNat, BitVec.toNat_setWidth, BitVec.extractLsb'_toNat, Nat.shiftRight_zero, Nat.mod_eq_of_lt hlt]
  rfl

theorem bqProc_faults_index {s : State} {b c : BitVec 4} (hs : s.Processing) (d : Word)
    (h : ¬ s.HasBand b ∨ ¬ s.HasChan c) : Faults (.bqProc b c d) s .index := by
  by_cases hb : s.HasBand b
  · have hc : s.cfgNch ≤ c.toNat := Nat.not_lt.1 (h.resolve_left (not_not_intro hb))
    exact command_raises_own (hs.ready rfl rfl) rfl (by simp [firstFailure_cons, State.badChan, hc])
  · exact command_of_not_hasBand (hs.ready rfl rfl) rfl hb

/-- Without active sections the sample passes and no state is written. -/
theorem procEffect_of_no_section {s : State} {b : BitVec 4} (h : (s.band b).actN = 0) (c : BitVec 4) (d : Word) :
    procEffect b c d s = s.emit .a (sampleOperand s.par.fmt d) := by
  simp only [procEffect, runSections, resultWord_sampleOperand, h]
  rw [← h, State.setBand_self]

theorem procEffect_frame (b c : BitVec 4) (d : Word) (s : State) : procEffect b c d s =
    (s.setBand b { s.band b with st := ((procEffect b c d s).band b).st }).emit .a (resultWord s.par.fmt
      (runSections s.fpu (s.band b) c (s.band b).actN (sampleOperand s.par.fmt d, (s.band b).st)).1) := by
  rw [procEffect_st]
  rfl

/-- Settles O16: the chain of samples is the one `runSections_spec` gives, and the equations of the two sections are their
definitions. -/
theorem bqProcRunsSectionsInSeries : Obligations.BqProcRunsSectionsInSeries := by
  unfold Obligations.BqProcRunsSectionsInSeries
  refine ⟨fun b c d => ⟨onlyOn_of_port rfl, onlyRunning_of_when rfl rfl rfl, fun s hs =>
    ⟨bqProc_faults_index hs d, fun hb hc hn => ?_, fun hb hc _ => ?_⟩⟩, fun u k s1 s2 x => ⟨rfl, rfl, rfl⟩,
    fun u v ic1 ic2 x => ⟨_, _, _, _, _, _, rfl, rfl, rfl, rfl, rfl, rfl, rfl, rfl, rfl⟩⟩
  · have hexec : exec (.bqProc b c d) s = .next (s.emit .a (sampleOperand s.par.fmt d)) := by
      rw [exec_bqProc hs hb hc, procEffect_of_no_section hn]
    refine ⟨hexec, fun hf => ?_, fun hf => ?_⟩
    · rw [hexec, hf, sampleOperand, toFormat_binary64]
    · rw [hexec, hf, sampleOperand, toFormat_binary32]
  · obtain ⟨v, hinput, houtput, hsections, hother⟩ :=
      runSections_spec s.fpu (s.band b) c (sampleOperand s.par.fmt d) (s.band b).actN
    have hframe := procEffect_frame b c d s
    rw [houtput] at hframe
    rw [← procEffect_st] at hsections hother
    exact ⟨_, v, exec_bqProc hs hb hc d, hinput, hframe, hsections, hother⟩

/-! ### BQ.SNAP and BQ.RDS (R132, R133) -/

/-- Settles O18: the whole bank is copied, and with it every coefficient. -/
theorem bqSnapCopiesActiveBank : Obligations.BqSnapCopiesActiveBank := by
  unfold Obligations.BqSnapCopiesActiveBank
  intro b
  refine ⟨onlyOn_of_port rfl, fun s hs => ⟨command_of_not_hasBand (hs.ready rfl rfl) rfl, fun hb =>
    ⟨_, command_of_hasBand (hs.ready rfl rfl) rfl hb, ?_, fun n k _ _ => ?_⟩⟩⟩
  · rw [State.setBand_band]
  · rw [State.setBand_band]

section
variable {s : State} {b : BitVec 4} {idx sub : BitVec 8}

theorem bqRds_wellFormed_iff : (Instr.bqRds b idx sub).wellFormed = true ↔ ¬ (sub = 5 ∧ idx ≠ 0) := by
  simp [Instr.wellFormed, snapIndexFieldOk, imp_iff_not_or, or_comm]

theorem exec_bqRds (hs : s.Control) (hw : ¬ (sub = 5 ∧ idx ≠ 0)) (hb : s.HasBand b) (hidx : idx.toNat < 8)
    (hsub : sub.toNat ≤ 5) : exec (.bqRds b idx sub) s = .next (s.emit .c (snapshotWord s.par.fmt (s.band b) idx sub)) :=
  command_has_effect (hs.ready rfl rfl) (bqRds_wellFormed_iff.2 hw) (firstFailure_of_coefficient hb hidx hsub _)

end

/-- Settles O19: the words are ill-formed where selector 5 comes with a section, and else the selector chooses the word. -/
theorem bqRdsReadsSnapshot : Obligations.BqRdsReadsSnapshot := by
  unfold Obligations.BqRdsReadsSnapshot
  intro b idx sub
  refine ⟨onlyOn_of_port rfl, fun s hs => ⟨fun hsub hidx => ?_, fun hw h => ?_, fun hb hidx hsub => ?_, ?_⟩⟩
  · refine command_raises_field (hs.ready rfl rfl) ?_
    rw [← Bool.not_eq_true, bqRds_wellFormed_iff]
    exact not_not_intro ⟨hsub, hidx⟩
  · exact command_raises_own (hs.ready rfl rfl) (bqRds_wellFormed_iff.2 hw) (firstFailure_of_no_coefficient h _)
  · have hw : ¬ (sub = 5 ∧ idx ≠ 0) := by
      rintro ⟨rfl, _⟩
      exact absurd hsub (by decide)
    rw [exec_bqRds hs hw hb hidx (by omega), snapshotWord, if_pos hsub]
  · rintro hb rfl rfl
    exact exec_bqRds hs (by decide) hb (by decide) (by decide)

/-! ### Activation (R129, R130) -/

/-- A bank of sections of `w` words after one section is written: that section holds the words, every other one is as
before. -/
theorem Bank.read_writeList_section (c : Bank) {w n m k : Nat} {xs : List Word} (hxs : xs.length = w) (hk : k < w) :
    (c.writeList (w * n) xs).read (w * m + k) = if m = n then xs.getD k 0 else c.read (w * m + k) := by
  rw [Bank.read_writeList, hxs]
  rcases Nat.lt_trichotomy m n with hlt | rfl | hgt
  · have hbefore : w * (m + 1) ≤ w * n := Nat.mul_le_mul_left w hlt
    rw [Nat.mul_succ] at hbefore
    rw [if_neg (by omega), if_neg (by omega)]
  · rw [if_pos (by omega), if_pos rfl, Nat.add_sub_cancel_left]
  · have hafter : w * (n + 1) ≤ w * m := Nat.mul_le_mul_left w hgt
    rw [Nat.mul_succ] at hafter
    rw [if_neg (by omega), if_neg (by omega)]

theorem svfAt_writeList_section (c : Bank) (n m : Nat) (v : SvfParams) :
    svfAt (c.writeList (6 * n) v.toList) m = if m = n then v else svfAt c m := by
  have hread (k : Nat) (hk : k < 6) := Bank.read_writeList_section (w := 6) c (n := n) (m := m) (xs := v.toList) rfl hk
  have hread0 := hread 0 (by decide)
  rw [Nat.add_zero] at hread0
  rw [svfAt, hread0, hread 1 (by decide), hread 2 (by decide), hread 3 (by decide), hread 4 (by decide),
    hread 5 (by decide)]
  split
  · rfl
  · rfl

theorem narrowCoeffs_getD (u : Fpu) (c : Bank) (n : Nat) {k : Nat} (hk : k < 5) :
    (narrowCoeffs u (coeffsAt c n)).toList.getD k 0 = narrow u (30 + k) (c.read (5 * n + k)) := by
  match k, hk with
  | 0, _ | 1, _ | 2, _ | 3, _ | 4, _ => rfl

/-- Each of the first `n` sections holds what its own activation wrote: the later ones lie elsewhere. -/
theorem activateSections_read (u : Fpu) (stg : Bank) (banks : Bank × Bank) {n m : Nat} (hm : m < n) :
    (∀ k < 5, (activateSections u stg n banks).1.read (5 * m + k) = narrow (u.at m) (30 + k) (stg.read (5 * m + k)))
      ∧ svfAt (activateSections u stg n banks).2 m = svfTransform (u.at m) (coeffsAt stg m) := by
  induction n with
  | zero => exact absurd hm (Nat.not_lt_zero m)
  | succ n ih =>
    simp only [activateSections, svfAt_writeList_section]
    by_cases hmn : m = n
    · subst hmn
      refine ⟨fun k hk => ?_, if_pos rfl⟩
      rw [Bank.read_writeList_section (w := 5) _ rfl hk, if_pos rfl, narrowCoeffs_getD _ _ _ hk]
    · obtain ⟨ihC, ihV⟩ := ih (by omega)
      refine ⟨fun k hk => ?_, (if_neg hmn).trans ihV⟩
      rw [Bank.read_writeList_section (w := 5) _ rfl hk, if_neg hmn, ihC k hk]

theorem activate_actC (u : Fpu) (x : Band) :
    (activate u x).actC = (activateSections u x.stgC 8 (x.actC, x.actV)).1 := rfl

theorem activate_actV (u : Fpu) (x : Band) :
    (activate u x).actV = (activateSections u x.stgC 8 (x.actC, x.actV)).2 := rfl

/-- The first two steps of the block boundary leave a pending update as it is. -/
theorem blockReset_blockParams_keeps (u : Fpu) (x : Band) : (blockReset (blockParams u x)).updPend = x.updPend
    ∧ (blockReset (blockParams u x)).stgN = x.stgN ∧ (blockReset (blockParams u x)).stgC = x.stgC := by
  unfold blockReset blockParams applyParams
  split_ifs <;> exact ⟨rfl, rfl, rfl⟩

section
variable (u : Fpu) {x : Band} (hu : x.updPend = true)
include hu

theorem blockActivate_of_updPend : blockActivate u x = { activate u x with updPend := false } := if_pos hu

/-- With an update pending the active banks are the staged bank activated over the former ones. -/
theorem blockBoundary_activates : (blockBoundary u x).actN = x.stgN ∧ ∃ banks : Bank × Bank,
    (blockBoundary u x).actC = (activateSections (u.at 1) x.stgC 8 banks).1
      ∧ (blockBoundary u x).actV = (activateSections (u.at 1) x.stgC 8 banks).2 := by
  obtain ⟨hupd, hstgN, hstgC⟩ := blockReset_blockParams_keeps (u.at 0) x
  rw [blockBoundary, blockActivate_of_updPend _ (hupd.trans hu), ← hstgN, ← hstgC]
  exact ⟨rfl, _, activate_actC _ _, activate_actV _ _⟩

theorem resetDue_of_updPend : resetDue x = true ↔ x.rstPend = true ∨ x.stgN ≠ x.actN := by
  simp [resetDue_iff, hu]

end

section
variable (u : Fpu) (x : Band)

/-- Without parameters pending the active parameters, the knee cache and the tracker stay. -/
theorem blockBoundary_of_no_parPend (hp : x.parPend = false) : blockBoundary u x =
    { x with
      rstPend := false, updPend := false, st := (blockBoundary u x).st, actN := (blockBoundary u x).actN,
      actC := (blockBoundary u x).actC, actV := (blockBoundary u x).actV } := by
  obtain ⟨hframe, hparams, _⟩ := blockBoundary_frame u x
  obtain ⟨hactive, hknee, hw, htot, hacc, hpos, hbuf⟩ := hparams hp
  rw [hactive, hknee, hw, htot, hacc, hpos, hbuf] at hframe
  rw [hp]
  exact hframe

theorem blockBoundary_st_read (h : resetDue x = true) (n : Nat) : (blockBoundary u x).st.read n = 0 := by
  obtain ⟨_, _, _, hst, _⟩ := blockBoundary_frame u x
  rw [hst h, Bank.read_nil]

theorem blockBoundary_st (h : resetDue x = false) : (blockBoundary u x).st = x.st := by
  obtain ⟨_, _, _, _, hst⟩ := blockBoundary_frame u x
  exact hst h

end

/-- Settles O7: section by section what activation wrote, the frame of the block boundary for the rest, and the transform's lines
by its definition. -/
theorem activateConvertsWholeBank : Obligations.ActivateConvertsWholeBank := by
  unfold Obligations.ActivateConvertsWholeBank
  refine ⟨fun s b hs hb hu => ⟨_, exec_blk hs hb, by rw [State.setBand_band], ?_⟩,
    fun u q => ⟨u.dbl, _, _, _, _, _, _, _, _, _, _, _, rfl, rfl, rfl, rfl, rfl, rfl, rfl, rfl, rfl, rfl, rfl, rfl, rfl⟩⟩
  rw [State.setBand_band]
  obtain ⟨hactN, banks, hactC, hactV⟩ := blockBoundary_activates s.fpu hu
  obtain ⟨hframe, _⟩ := blockBoundary_frame s.fpu (s.band b)
  have hst (hr : (s.band b).rstPend = false) (hn : (s.band b).stgN = (s.band b).actN) :
      (blockBoundary s.fpu (s.band b)).st = (s.band b).st :=
    blockBoundary_st _ _ (by simp [resetDue, hr, hn])
  refine ⟨hactN, fun n k hn hk => ?_, fun n hn => ?_, hframe, blockBoundary_of_no_parPend _ _,
    fun hdue _ _ _ _ _ => blockBoundary_st_read _ _ ((resetDue_of_updPend hu).2 hdue) _, hst, fun hp hr hn => ?_⟩
  · obtain ⟨hread, _⟩ := activateSections_read (s.fpu.at 1) (s.band b).stgC banks hn
    exact ⟨(s.fpu.at 1).at n, 30 + k, rfl, hactC ▸ hread k hk⟩
  · obtain ⟨_, hread⟩ := activateSections_read (s.fpu.at 1) (s.band b).stgC banks hn
    exact ⟨(s.fpu.at 1).at n, rfl, hactV ▸ hread⟩
  · have hkeeps := blockBoundary_of_no_parPend s.fpu _ hp
    rw [hst hr hn] at hkeeps
    rw [hr]
    exact hkeeps

end Sys2Proof.Machine

/-!
The RMS power estimator (42_rms_tracker.md R151 to R155): the effect of each `RMS.*` command, and the reading of a tracker whose
total is a zero.
-/

namespace Sys2Proof.Machine

/-! ### What each command does on a band that exists -/

section
variable {s : State} {b : BitVec 4} (hs : s.Processing) (hb : s.HasBand b)
include hs hb

theorem exec_rmsAcc (d : Word) : exec (.rmsAcc b d) s = .next (s.setBand b
    { s.band b with rmsAcc := rmsAccumulate s.fpu (s.band b).rmsAcc (sampleOperand s.par.fmt d) }) :=
  command_of_hasBand (hs.ready rfl rfl) rfl hb

theorem exec_rmsPush : exec (.rmsPush b) s = .next (s.setBand b (rmsPush s.fpu (s.band b))) :=
  command_of_hasBand (hs.ready rfl rfl) rfl hb

theorem exec_rmsGet :
    exec (.rmsGet b) s = .next (s.emit .a (resultWord s.par.fmt (loudness s.par s.fpu (s.band b)))) :=
  command_of_hasBand (hs.ready rfl rfl) rfl hb

theorem exec_rmsReset : exec (.rmsReset b) s = .next (s.setBand b (rmsClear (s.band b))) :=
  command_of_hasBand (hs.ready rfl rfl) rfl hb

theorem exec_rmsReset_of_clear (hclear : rmsClear (s.band b) = s.band b) : exec (.rmsReset b) s = .next s := by
  rw [exec_rmsReset hs hb, hclear, State.setBand_self]

end

/-! ### RMS.PUSH (R152) -/

theorem rmsPush_buf_read (u : Fpu) (x : Band) (n : Nat) :
    (rmsPush u x).rmsBuf.read n = if n = x.rmsPos then x.rmsAcc else x.rmsBuf.read n :=
  Bank.read_write x.rmsBuf x.rmsPos n x.rmsAcc

/-- Settles O21: the buffer is written at the position, and the rest is `rmsPush` field by field. -/
theorem rmsPushReplacesOldestEntry : Obligations.RmsPushReplacesOldestEntry := by
  unfold Obligations.RmsPushReplacesOldestEntry
  intro b
  refine ⟨onlyOn_of_port rfl, onlyRunning_of_when rfl rfl rfl, fun s hs =>
    ⟨command_of_not_hasBand (hs.ready rfl rfl) rfl, fun hb => ⟨_, s.fpu, rfl, exec_rmsPush hs hb, ?_, fun n => ?_⟩⟩⟩
  · rw [State.setBand_band]
    rfl
  · rw [State.setBand_band]
    exact rmsPush_buf_read s.fpu (s.band b) n

/-! ### RMS.RESET (R155, R159) -/

theorem rmsClear_buf_read (x : Band) (n : Nat) : (rmsClear x).rmsBuf.read n = 0 := Bank.read_nil n

@[simp] theorem rmsClear_rmsClear (x : Band) : rmsClear (rmsClear x) = rmsClear x := rfl

/-- Settles O23: the buffer is the empty bank, which reads +0, and a clear tracker stays as it is. -/
theorem rmsResetClearsTracker : Obligations.RmsResetClearsTracker := by
  unfold Obligations.RmsResetClearsTracker
  intro b
  refine ⟨onlyOn_of_port rfl, onlyRunning_of_when rfl rfl rfl, fun s hs =>
    ⟨command_of_not_hasBand (hs.ready rfl rfl) rfl, fun hb => ⟨_, exec_rmsReset hs hb, ?_, fun n => ?_, ?_⟩⟩⟩
  · rw [State.setBand_band]
    rfl
  · rw [State.setBand_band]
    exact rmsClear_buf_read (s.band b) n
  · exact exec_rmsReset_of_clear hs hb (by rw [State.setBand_band, rmsClear_rmsClear])

/-! ### The reading of a zero total (R153) -/

/-- A positive integer converts to a positive value, an infinity where it is beyond the format. -/
theorem ofInt_eq_pack (f : Fmt) {n : Nat} (hn : 1 ≤ n) :
    ∃ mag, 0 < mag ∧ mag ≤ infMag f ∧ ofInt f n = pack f false mag := by
  have hscale : minExp f ≤ 0 + (0 : Nat) := by cases f <;> decide
  exact ⟨_, roundMag_pos f (k := 0) hn hscale false, roundMag_le_infMag f n 0 false, rfl⟩

/-- A zero divided by a positive value or +infinity is a zero of its own sign. -/
theorem fdiv_of_isZero (u : Fpu) (t : Nat) {a : Word} (ha : isZero u.fmt a = true) {mag : Nat} (hpos : 0 < mag)
    (hle : mag ≤ infMag u.fmt) : fdiv u t a (pack u.fmt false mag) = zero u.fmt (signBit u.fmt a) := by
  have hlt := hle.trans_lt (infMag_lt_signWeight u.fmt)
  have hmag := magBits_pack u.fmt false hlt
  have hfin : isFinite u.fmt a = true := by
    have hmaga : magBits u.fmt a = 0 := by simpa [isZero] using ha
    simp [isFinite, hmaga, infMag_pos]
  have hnan : isNaN u.fmt (pack u.fmt false mag) = false := by simp [isNaN, hmag, hle]
  have hnz : isZero u.fmt (pack u.fmt false mag) = false := by simp [isZero, hmag, hpos.ne']
  simp only [fdiv, isNaN_of_isFinite hfin, isInf_of_isFinite hfin, ha, hnan, hnz, signBit_pack_pos _ hlt,
    Bool.or_self, Bool.false_eq_true, if_false, if_true, Bool.bne_false, ite_self]

theorem fgt_zero_zero (f : Fmt) (neg : Bool) : fgt f (zero f neg) 0 = false := by
  cases f <;> cases neg <;> decide

/-- The mean of a zero total is a zero, which is not above +0: the logarithm is not asked. -/
theorem loudness_of_isZero {p : Params} {u : Fpu} (hu : u.fmt = p.fmt) {x : Band} (hw : 1 ≤ x.rmsW)
    (hz : isZero p.fmt x.rmsTot = true) : loudness p u x = p.loudFloor := by
  obtain ⟨mag, hpos, hle, hwindow⟩ := ofInt_eq_pack p.fmt hw
  rw [← hu] at hz hle hwindow
  have hmean : fdiv u 0 x.rmsTot (ofInt u.fmt x.rmsW) = zero u.fmt (signBit u.fmt x.rmsTot) := by
    rw [hwindow, fdiv_of_isZero u 0 hz hpos hle]
  simp only [loudness, ← hu, hmean, fgt_zero_zero, Bool.false_and, Bool.false_eq_true, if_false]

/-- Settles O24. -/
theorem emptyTrackerReadsFloor : Obligations.EmptyTrackerReadsFloor := by
  unfold Obligations.EmptyTrackerReadsFloor
  intro s b hs hb hw hz
  rw [exec_rmsGet hs hb, loudness_of_isZero rfl hw hz]

/-! ### RMS.ACC (R151) -/

/-- Settles O20: the square is `rmsAccumulate`'s product. -/
theorem rmsAccAddsSquare : Obligations.RmsAccAddsSquare := by
  unfold Obligations.RmsAccAddsSquare
  intro b d
  exact ⟨onlyOn_of_port rfl, onlyRunning_of_when rfl rfl rfl, fun s hs =>
    ⟨command_of_not_hasBand (hs.ready rfl rfl) rfl, fun hb => ⟨s.fpu, rfl, exec_rmsAcc hs hb d⟩⟩⟩

/-! ### RMS.GET (R153, R154) -/

theorem loudness_eq_ite (p : Params) (u : Fpu) (x : Band) :
    let ms := fdiv u 0 x.rmsTot (ofInt p.fmt x.rmsW)
    let l := fmul u 1 (ofInt p.fmt 10) (flog10 p ms)
    loudness p u x = if fgt p.fmt ms 0 = true ∧ fgt p.fmt l p.loudFloor = true then l else p.loudFloor := by
  simp only [loudness, Bool.and_eq_true]

/-- Settles O22. -/
theorem rmsGetEmitsLoudness : Obligations.RmsGetEmitsLoudness := by
  unfold Obligations.RmsGetEmitsLoudness
  intro b
  refine ⟨onlyOn_of_port rfl, onlyRunning_of_when rfl rfl rfl, fun s hs =>
    ⟨command_of_not_hasBand (hs.ready rfl rfl) rfl, fun hb => ⟨s.fpu, rfl, ?_⟩⟩⟩
  rw [exec_rmsGet hs hb, loudness_eq_ite]

end Sys2Proof.Machine

/-!
The soft-knee transfer function (43_knee_computer.md R167 to R169): the value in each region, the two curves above the knee, and
the command that reads it.
-/

namespace Sys2Proof.Machine

/-! ### The two curves (R168) -/

/-- The saturating distance `Z` of both curves. -/
def kneeRise (p : Params) (u : Fpu) (v : Word) : Word :=
  fmul u 2 p.kneeTau (fsub u 0 (ofInt p.fmt 1) (fexp p (fdiv u 1 (fneg p.fmt v) p.kneeTau)))

section
variable (p : Params) (u : Fpu) {k : Knee} (v : Word)

theorem kneeCurve_concave (hsg : k.sg = false) :
    kneeCurve p u k v = fadd u 7 k.yh (fmul u 8 k.sl (kneeRise p u v)) := by
  simp only [kneeCurve, kneeRise, hsg, Bool.false_eq_true, if_false]

theorem kneeCurve_convex (hsg : k.sg = true) :
    kneeCurve p u k v
      = fsub u 3 (fadd u 4 k.yh v) (fmul u 5 (fsub u 6 (ofInt p.fmt 1) k.sl) (kneeRise p u v)) := by
  simp only [kneeCurve, kneeRise, hsg, if_true]

end

/-! ### The three regions (R167) -/

section
variable {p : Params} (u : Fpu) (a : DynParams) {k : Knee} {x : Word}

/-- The lower boundary point belongs to this region. -/
theorem kneeEval_below (hlo : fle p.fmt x k.lo = true) : kneeEval p u a k x = x := if_pos hlo

/-- The upper boundary point belongs to this region. -/
theorem kneeEval_above (hlo : fle p.fmt x k.lo = false) (hhi : fge p.fmt x k.hi = true) :
    kneeEval p u a k x
      = fadd u 4 (fmul u 5 (fsub u 6 (ofInt p.fmt 1) k.ab) (fadd u 1 a.t (fdiv u 2 (fsub u 3 x a.t) a.r)))
          (fmul u 7 k.ab (kneeCurve p (u.at 0) k (fsub u 0 x k.hi))) := by
  simp only [kneeEval, hlo, hhi, Bool.false_eq_true, if_false, if_true]

/-- A NaN fails both comparisons and comes here. -/
theorem kneeEval_inside (hlo : fle p.fmt x k.lo = false) (hhi : fge p.fmt x k.hi = false) :
    kneeEval p u a k x = fadd u 9 x (fmul u 10 k.qa (fmul u 11 (fsub u 8 x k.lo) (fsub u 8 x k.lo))) := by
  simp only [kneeEval, hlo, hhi, Bool.false_eq_true, if_false]

end

/-! ### KN.EVAL (R169) -/

theorem exec_knEval {s : State} {b : BitVec 4} (hs : s.Processing) (hb : s.HasBand b) (d : Word) :
    exec (.knEval b d) s = .next (s.emit .a (resultWord s.par.fmt
      (kneeEval s.par s.fpu (s.band b).active (s.band b).knee (sampleOperand s.par.fmt d)))) :=
  command_of_hasBand (hs.ready rfl rfl) rfl hb

/-- Settles O25: one equation per region of the knee, and above it one per curve. -/
theorem knEvalHasThreeRegions : Obligations.KnEvalHasThreeRegions := by
  unfold Obligations.KnEvalHasThreeRegions
  intro b d
  refine ⟨onlyOn_of_port rfl, onlyRunning_of_when rfl rfl rfl, fun s hs =>
    ⟨command_of_not_hasBand (hs.ready rfl rfl) rfl, fun hb => ⟨_, s.fpu, s.fpu.at 0, rfl, rfl, exec_knEval hs hb d,
      fun hbelow => ?_, fun hlo hhi => ?_, fun hlo hhi => ?_⟩⟩⟩
  · exact kneeEval_below _ _ hbelow
  · exact ⟨_, _, _, _, _, rfl, rfl, rfl, rfl, fun hconcave => kneeCurve_concave _ _ _ hconcave,
      fun hconvex => kneeCurve_convex _ _ _ hconvex, kneeEval_above _ _ hlo hhi⟩
  · exact ⟨_, rfl, kneeEval_inside _ _ hlo hhi⟩

end Sys2Proof.Machine

/-!
Rounding keeps the order (00_scope.md R8 to R10): a sum with a value that is not negative is not below the other operand, and a
difference has the sign of the comparison, after rounding and at the infinities.
-/

namespace Sys2Proof.Machine

/-! ### The place of a word in the order of the values (R10) -/

theorem natAbs_orderKey (f : Fmt) (w : Word) : (orderKey f w).natAbs = magBits f w := by
  unfold orderKey
  split <;> simp

theorem isNaN_eq_false_iff (f : Fmt) (w : Word) : isNaN f w = false ↔ (orderKey f w).natAbs ≤ infMag f := by
  simp [isNaN, natAbs_orderKey]

theorem isFinite_iff (f : Fmt) (w : Word) : isFinite f w = true ↔ (orderKey f w).natAbs < infMag f := by
  simp [isFinite, natAbs_orderKey]

theorem isInf_iff (f : Fmt) (w : Word) : isInf f w = true ↔ (orderKey f w).natAbs = infMag f := by
  simp [isInf, natAbs_orderKey]

theorem isFinite_or_isInf {f : Fmt} {w : Word} (h : isNaN f w = false) : isFinite f w = true ∨ isInf f w = true := by
  rw [isFinite_iff, isInf_iff]
  exact ((isNaN_eq_false_iff f w).1 h).lt_or_eq

theorem orderKey_nonneg_iff (f : Fmt) (w : Word) : 0 ≤ orderKey f w ↔ signBit f w = false ∨ magBits f w = 0 := by
  unfold orderKey
  cases signBit f w <;> simp

theorem orderKey_nonpos_iff (f : Fmt) (w : Word) : orderKey f w ≤ 0 ↔ signBit f w = true ∨ magBits f w = 0 := by
  unfold orderKey
  cases signBit f w <;> simp

theorem signBit_eq_decide {f : Fmt} {w : Word} (h : magBits f w ≠ 0) : signBit f w = decide (orderKey f w < 0) := by
  unfold orderKey
  cases signBit f w with
  | false => simp
  | true => simpa using Nat.pos_of_ne_zero h

theorem signBit_pack (f : Fmt) (neg : Bool) {mag : Nat} (h : mag < signWeight f) : signBit f (pack f neg mag) = neg := by
  cases neg with
  | false => exact signBit_pack_pos f h
  | true =>
    rw [signBit, pack_toNat f true h, if_pos rfl, Nat.add_div_right _ (signWeight_pos f), Nat.div_eq_of_lt h]
    rfl

theorem orderKey_pack (f : Fmt) (neg : Bool) {mag : Nat} (h : mag < signWeight f) :
    orderKey f (pack f neg mag) = if neg then -(mag : Int) else mag := by
  rw [orderKey, signBit_pack f neg h, magBits_pack f neg h]

theorem orderKey_infinity (f : Fmt) (neg : Bool) :
    orderKey f (infinity f neg) = if neg then -(infMag f : Int) else infMag f :=
  orderKey_pack f neg (infMag_lt_signWeight f)

theorem orderKey_infinity_signBit {f : Fmt} {w : Word} (h : isInf f w = true) :
    orderKey f (infinity f (signBit f w)) = orderKey f w := by
  rw [orderKey_infinity, orderKey, beq_iff_eq.1 h]

theorem orderKey_zero (f : Fmt) (neg : Bool) : orderKey f (zero f neg) = 0 := by
  rw [zero, orderKey_pack f neg (signWeight_pos f)]
  simp

theorem orderKey_word_zero (f : Fmt) : orderKey f 0 = 0 := by cases f <;> decide

theorem orderKey_fneg (f : Fmt) (w : Word) : orderKey f (fneg f w) = -orderKey f w := by
  rw [fneg, orderKey_pack f _ (magBits_lt f w), orderKey]
  cases signBit f w <;> simp

theorem orderKey_fabs (f : Fmt) (w : Word) : orderKey f (fabs f w) = magBits f w :=
  orderKey_pack f false (magBits_lt f w)

theorem isNaN_fneg (f : Fmt) (w : Word) : isNaN f (fneg f w) = isNaN f w := by
  rw [isNaN, fneg, magBits_pack f _ (magBits_lt f w), isNaN]

theorem isNaN_fabs (f : Fmt) (w : Word) : isNaN f (fabs f w) = isNaN f w := by
  rw [isNaN, fabs, magBits_pack f _ (magBits_lt f w), isNaN]

theorem isNaN_nan (u : Fpu) (t : Nat) : isNaN u.fmt (u.nan t) = true := by
  have hpos := Nat.two_pow_pos (fracBits u.fmt - 1)
  have hroom : infMag u.fmt + 2 ^ (fracBits u.fmt - 1) + 2 ^ (fracBits u.fmt - 1) ≤ signWeight u.fmt := by
    cases u.fmt <;> decide
  have hpayload := Nat.mod_lt (Config.nanDraw u.now (t :: u.place)).toNat hpos
  rw [isNaN, Fpu.nan, quietNaN, magBits_pack _ _ (by omega)]
  exact decide_eq_true (by omega)

/-! ### Comparisons -/

theorem fle_trans {f : Fmt} {a b c : Word} (hab : fle f a b = true) (hbc : fle f b c = true) : fle f a c = true := by
  obtain ⟨ha, _, hle⟩ := (fle_iff ..).1 hab
  obtain ⟨_, hc, hle'⟩ := (fle_iff ..).1 hbc
  exact (fle_iff ..).2 ⟨ha, hc, hle.trans hle'⟩

theorem fle_total {f : Fmt} {a b : Word} (ha : isNaN f a = false) (hb : isNaN f b = false) :
    fle f a b = true ∨ fle f b a = true :=
  (le_total (orderKey f a) (orderKey f b)).imp (fun h => (fle_iff ..).2 ⟨ha, hb, h⟩) (fun h => (fle_iff ..).2 ⟨hb, ha, h⟩)

theorem flt_or_feq_of_fle {f : Fmt} {a b : Word} (h : fle f a b = true) : flt f a b = true ∨ feq f a b = true := by
  obtain ⟨ha, hb, hle⟩ := (fle_iff ..).1 h
  simpa [flt, feq, ha, hb] using lt_or_eq_of_le hle

theorem feq_iff (f : Fmt) (a b : Word) :
    feq f a b = true ↔ isNaN f a = false ∧ isNaN f b = false ∧ orderKey f a = orderKey f b := by
  simp [feq, and_assoc]

theorem isFinite_of_between {f : Fmt} {a b w : Word} (ha : isFinite f a = true) (hb : isFinite f b = true)
    (haw : fle f a w = true) (hwb : fle f w b = true) : isFinite f w = true := by
  rw [isFinite_iff] at *
  obtain ⟨_, _, hle⟩ := (fle_iff ..).1 haw
  obtain ⟨_, _, hle'⟩ := (fle_iff ..).1 hwb
  omega

theorem flt_of_orderKey_eq {f : Fmt} {a b : Word} (h : orderKey f a = orderKey f b) : flt f a b = false := by
  simp [flt, h]

/-! ### Rounding is monotone (R9) -/

theorem shiftRoundEven_le_succ (m sh : Nat) (sticky : Bool) : shiftRoundEven m sh sticky ≤ m / 2 ^ sh + 1 := by
  unfold shiftRoundEven
  extract_lets q r up
  split
  · exact le_refl _
  · exact Nat.le_succ q

/-- To nearest, a tie to the even quotient. -/
theorem shiftRoundEven_eq_ite (m sh : Nat) : shiftRoundEven m sh false = if 2 ^ sh < 2 * (m % 2 ^ sh)
    ∨ 2 ^ sh = 2 * (m % 2 ^ sh) ∧ m / 2 ^ sh % 2 = 1 then m / 2 ^ sh + 1 else m / 2 ^ sh := by
  by_cases hsh : sh = 0
  · simp [shiftRoundEven, hsh, Nat.mod_one]
  · rcases lt_trichotomy (2 * (m % 2 ^ sh)) (2 ^ sh) with h | h | h
    · simp [shiftRoundEven, hsh, h, h.not_gt, h.ne']
    · simp [shiftRoundEven, hsh, h]
    · simp [shiftRoundEven, hsh, h, h.not_gt]

theorem shiftRoundEven_mono {m n : Nat} (h : m ≤ n) (sh : Nat) :
    shiftRoundEven m sh false ≤ shiftRoundEven n sh false := by
  rcases (Nat.div_le_div_right h : m / 2 ^ sh ≤ n / 2 ^ sh).lt_or_eq with hlt | heq
  · exact (shiftRoundEven_le_succ m sh false).trans (Nat.succ_le_of_lt hlt |>.trans (le_shiftRoundEven n sh false))
  · have hr : m % 2 ^ sh ≤ n % 2 ^ sh := by
      have hm := Nat.div_add_mod m (2 ^ sh)
      have hn := Nat.div_add_mod n (2 ^ sh)
      rw [heq] at hm
      omega
    rw [shiftRoundEven_eq_ite, shiftRoundEven_eq_ite, heq]
    split_ifs <;> omega

/-- The significand `m · 2 ^ e` at the exponent `q`, rounded: what `roundMag` adds to the exponent field. -/
def roundedAt (m : Nat) (e q : Int) : Nat :=
  if q ≤ e then m * 2 ^ (e - q).toNat else shiftRoundEven m (q - e).toNat false

theorem roundedAt_mono {m n : Nat} (h : m ≤ n) (e q : Int) : roundedAt m e q ≤ roundedAt n e q := by
  unfold roundedAt
  split
  · exact Nat.mul_le_mul_right _ h
  · exact shiftRoundEven_mono h _

theorem roundedAt_le {m k l : Nat} {e q : Int} (hm : m < 2 ^ l) (hl : e + l ≤ q + k) : roundedAt m e q ≤ 2 ^ k := by
  unfold roundedAt
  split
  · calc m * 2 ^ (e - q).toNat ≤ 2 ^ l * 2 ^ (e - q).toNat := Nat.mul_le_mul_right _ hm.le
      _ = 2 ^ (l + (e - q).toNat) := (Nat.pow_add ..).symm
      _ ≤ 2 ^ k := Nat.pow_le_pow_right (by omega) (by omega)
  · have hlt : m < 2 ^ k * 2 ^ (q - e).toNat := by
      rw [← Nat.pow_add]
      exact hm.trans_le (Nat.pow_le_pow_right (by omega) (by omega))
    have hdiv : m / 2 ^ (q - e).toNat < 2 ^ k := Nat.div_lt_of_lt_mul (by rwa [Nat.mul_comm])
    exact (shiftRoundEven_le_succ m _ false).trans hdiv

theorem le_roundedAt {m k l : Nat} {e q : Int} (hm : 2 ^ l ≤ m) (hl : q + k ≤ e + l) : 2 ^ k ≤ roundedAt m e q := by
  unfold roundedAt
  split
  · calc 2 ^ k ≤ 2 ^ (l + (e - q).toNat) := Nat.pow_le_pow_right (by omega) (by omega)
      _ = 2 ^ l * 2 ^ (e - q).toNat := Nat.pow_add ..
      _ ≤ m * 2 ^ (e - q).toNat := Nat.mul_le_mul_right _ hm
  · refine le_trans ?_ (le_shiftRoundEven m _ false)
    rw [Nat.le_div_iff_mul_le (by positivity), ← Nat.pow_add]
    exact (Nat.pow_le_pow_right (by omega) (by omega)).trans hm

/-- The exponent of the last significand bit that rounding keeps. -/
def roundExponent (f : Fmt) (m : Nat) (e : Int) : Int := max (e + bitLength m - (fracBits f + 1)) (minExp f)

theorem roundMag_of_ne_zero (f : Fmt) {m : Nat} (hm : m ≠ 0) (e : Int) :
    roundMag f m e false = min ((roundExponent f m e - minExp f).toNat * 2 ^ fracBits f
      + roundedAt m e (roundExponent f m e)) (infMag f) := by
  simp only [roundMag, hm, if_false]
  rfl

theorem lt_two_pow_bitLength (m : Nat) : m < 2 ^ bitLength m := by
  unfold bitLength
  split
  · next h => simp [h]
  · exact Nat.lt_log2_self

theorem bitLength_mono {m n : Nat} (h : m ≤ n) : bitLength m ≤ bitLength n :=
  bitLength_le (h.trans_lt (lt_two_pow_bitLength n))

theorem two_pow_le_of_bitLength {m l : Nat} (h : bitLength m = l + 1) : 2 ^ l ≤ m := by
  by_contra hc
  have := bitLength_le (Nat.lt_of_not_le hc)
  omega

/-- A greater value does not round to a smaller one: at one exponent by the significand, else by the exponent field. -/
theorem roundMag_mono (f : Fmt) {m n : Nat} (h : m ≤ n) (e : Int) : roundMag f m e false ≤ roundMag f n e false := by
  by_cases hm : m = 0
  · simp [roundMag, hm]
  · have hlen := bitLength_mono h
    rw [roundMag_of_ne_zero f hm, roundMag_of_ne_zero f (by omega)]
    refine min_le_min_right _ ?_
    generalize hq : roundExponent f m e = q
    generalize hq' : roundExponent f n e = q'
    unfold roundExponent at hq hq'
    rcases (show q ≤ q' by omega).lt_or_eq with hlt | rfl
    · obtain ⟨l, hl⟩ : ∃ l, bitLength n = l + 1 := Nat.exists_eq_add_one.2 (by omega)
      have hle : roundedAt m e q ≤ 2 ^ (fracBits f + 1) := roundedAt_le (lt_two_pow_bitLength m) (by omega)
      have hge : 2 ^ fracBits f ≤ roundedAt n e q' := le_roundedAt (two_pow_le_of_bitLength hl) (by omega)
      have hfield := Nat.mul_le_mul_right (2 ^ fracBits f)
        (show (q - minExp f).toNat + 1 ≤ (q' - minExp f).toNat by omega)
      rw [Nat.add_one_mul] at hfield
      rw [Nat.pow_succ] at hle
      omega
    · have := roundedAt_mono h e q
      omega

/-- The place in the order of the integer `v`, in units of `2 ^ e`, rounded to the format. -/
def roundKey (f : Fmt) (v e : Int) : Int :=
  if v < 0 then -(roundMag f v.natAbs e false : Int) else roundMag f v.natAbs e false

@[simp] theorem roundKey_zero (f : Fmt) (e : Int) : roundKey f 0 e = 0 := by simp [roundKey, roundMag]

theorem roundKey_mono (f : Fmt) {v w : Int} (h : v ≤ w) (e : Int) : roundKey f v e ≤ roundKey f w e := by
  unfold roundKey
  by_cases hv : v < 0 <;> by_cases hw : w < 0
  · have := roundMag_mono f (show w.natAbs ≤ v.natAbs by omega) e
    simp only [hv, hw, if_true]
    omega
  · simp only [hv, hw, if_true, if_false]
    omega
  · omega
  · have := roundMag_mono f (show v.natAbs ≤ w.natAbs by omega) e
    simp only [hv, hw, if_false]
    omega

theorem roundKey_nonneg (f : Fmt) {v : Int} (h : 0 ≤ v) (e : Int) : 0 ≤ roundKey f v e :=
  (roundKey_zero f e).ge.trans (roundKey_mono f h e)

theorem roundKey_nonpos (f : Fmt) {v : Int} (h : v ≤ 0) (e : Int) : roundKey f v e ≤ 0 :=
  (roundKey_mono f h e).trans (roundKey_zero f e).le

theorem orderKey_roundTo (f : Fmt) (neg : Bool) (m : Nat) (e : Int) :
    orderKey f (roundTo f neg m e false) = if neg then -(roundMag f m e false : Int) else roundMag f m e false :=
  orderKey_pack f neg ((roundMag_le_infMag f m e false).trans_lt (infMag_lt_signWeight f))

theorem orderKey_addFinite (f : Fmt) (a b : Word) :
    orderKey f (addFinite f a b) = roundKey f (alignedInt f a (min (exponent f a) (exponent f b))
      + alignedInt f b (min (exponent f a) (exponent f b))) (min (exponent f a) (exponent f b)) := by
  unfold addFinite
  extract_lets e v
  by_cases hv : v = 0
  · rw [if_pos hv, orderKey_zero]
    exact hv ▸ (roundKey_zero f e).symm
  · simp only [hv, if_false, orderKey_roundTo, decide_eq_true_eq]
    rfl

/-! ### A value as an integer at a smaller exponent -/

theorem significand_eq_zero {f : Fmt} {w : Word} (h : magBits f w = 0) : significand f w = 0 := by
  simp [significand, h]

theorem alignedInt_nonneg {f : Fmt} {w : Word} (h : 0 ≤ orderKey f w) (e : Int) : 0 ≤ alignedInt f w e := by
  unfold alignedInt
  rcases (orderKey_nonneg_iff f w).1 h with hs | hm
  · simp [hs]
  · simp [significand_eq_zero hm]

theorem alignedInt_nonpos {f : Fmt} {w : Word} (h : orderKey f w ≤ 0) (e : Int) : alignedInt f w e ≤ 0 := by
  unfold alignedInt
  rcases (orderKey_nonpos_iff f w).1 h with hs | hm
  · simp [hs]
  · simp [significand_eq_zero hm]

/-- A value that the format holds rounds to its own place in the order, at every exponent not above its own. -/
theorem roundKey_alignedInt {f : Fmt} {w : Word} (hw : isNaN f w = false) {e : Int} (he : e ≤ exponent f w) :
    roundKey f (alignedInt f w e) e = orderKey f w := by
  obtain ⟨j, hexp, hmag, hlt, hj⟩ := significand_exponent_spec f w
  have hround : roundMag f (significand f w * 2 ^ (exponent f w - e).toNat) e false = magBits f w := by
    have hexact := roundMag_exact f hlt hj (exponent f w - e).toNat
    rw [show minExp f + j - ((exponent f w - e).toNat : Int) = e by omega, ← hmag] at hexact
    rw [hexact, Nat.min_eq_left]
    simpa [isNaN] using hw
  unfold alignedInt roundKey orderKey
  extract_lets m
  have hnat : m.natAbs = significand f w * 2 ^ (exponent f w - e).toNat := Int.natAbs_natCast _
  have hm : 0 ≤ m := Int.natCast_nonneg _
  cases signBit f w with
  | false =>
    simp only [Bool.false_eq_true, if_false, hnat, hround]
    rw [if_neg (by omega)]
  | true =>
    simp only [if_true, Int.natAbs_neg, hnat, hround]
    split
    · rfl
    · have hzero : m = 0 := by omega
      rw [← hround, ← hnat, hzero]
      simp [roundMag]

theorem exponent_fneg (f : Fmt) (w : Word) : exponent f (fneg f w) = exponent f w := by
  simp only [exponent, fneg, magBits_pack f _ (magBits_lt f w)]

theorem alignedInt_fneg (f : Fmt) (w : Word) (e : Int) : alignedInt f (fneg f w) e = -alignedInt f w e := by
  have hsig : significand f (fneg f w) = significand f w := by
    simp only [significand, fneg, magBits_pack f _ (magBits_lt f w)]
  have hsign : signBit f (fneg f w) = !signBit f w := signBit_pack f _ (magBits_lt f w)
  simp only [alignedInt, hsig, hsign, exponent_fneg]
  cases signBit f w <;> simp

/-- Two encodings of one value, -0 and +0 included, are the same integer. -/
theorem alignedInt_congr {f : Fmt} {a b : Word} (h : orderKey f a = orderKey f b) (e : Int) :
    alignedInt f a e = alignedInt f b e := by
  have hmag : magBits f a = magBits f b := by rw [← natAbs_orderKey, h, natAbs_orderKey]
  have hsig : significand f a = significand f b := by simp only [significand, hmag]
  have hexp : exponent f a = exponent f b := by simp only [exponent, hmag]
  by_cases hzero : magBits f b = 0
  · simp [alignedInt, hsig, significand_eq_zero hzero]
  · have hsign : signBit f a = signBit f b := by
      rw [signBit_eq_decide hzero, signBit_eq_decide (hmag.trans_ne hzero), h]
    simp only [alignedInt, hsig, hexp, hsign]

/-- The order of the values is that of the integers. -/
theorem alignedInt_lt {f : Fmt} {a b : Word} (ha : isNaN f a = false) (hb : isNaN f b = false)
    (h : orderKey f a < orderKey f b) {e : Int} (hea : e ≤ exponent f a) (heb : e ≤ exponent f b) :
    alignedInt f a e < alignedInt f b e := by
  by_contra hle
  have hmono := roundKey_mono f (Int.not_lt.1 hle) e
  rw [roundKey_alignedInt ha hea, roundKey_alignedInt hb heb] at hmono
  omega

/-! ### A sum against its first operand -/

theorem le_addFinite {f : Fmt} {a b : Word} (ha : isNaN f a = false) (hb : 0 ≤ orderKey f b) :
    orderKey f a ≤ orderKey f (addFinite f a b) := by
  rw [orderKey_addFinite, ← roundKey_alignedInt ha (min_le_left _ (exponent f b))]
  exact roundKey_mono f (by have := alignedInt_nonneg hb (min (exponent f a) (exponent f b)); omega) _

theorem addFinite_le {f : Fmt} {a b : Word} (ha : isNaN f a = false) (hb : orderKey f b ≤ 0) :
    orderKey f (addFinite f a b) ≤ orderKey f a := by
  rw [orderKey_addFinite, ← roundKey_alignedInt ha (min_le_left _ (exponent f b))]
  exact roundKey_mono f (by have := alignedInt_nonpos hb (min (exponent f a) (exponent f b)); omega) _

section
variable (u : Fpu) (t : Nat) {a b : Word}

theorem fadd_of_isNaN (h : isNaN u.fmt a = true ∨ isNaN u.fmt b = true) : fadd u t a b = u.nan t := by
  simp only [fadd, Bool.or_eq_true, h, if_true]

theorem fadd_of_isInf_right (ha : isFinite u.fmt a = true) (hb : isInf u.fmt b = true) (hnan : isNaN u.fmt b = false) :
    fadd u t a b = infinity u.fmt (signBit u.fmt b) := by
  simp [fadd, isNaN_of_isFinite ha, hnan, isInf_of_isFinite ha, hb]

/-- A sum with a value that is not negative is not below its finite operand, an overflow included. -/
theorem le_fadd (ha : isFinite u.fmt a = true) (hb : isNaN u.fmt b = false) (h : 0 ≤ orderKey u.fmt b) :
    orderKey u.fmt a ≤ orderKey u.fmt (fadd u t a b) := by
  rcases isFinite_or_isInf hb with hfin | hinf
  · rw [fadd_of_finite u t ha hfin]
    exact le_addFinite (isNaN_of_isFinite ha) h
  · rw [fadd_of_isInf_right u t ha hinf hb, orderKey_infinity_signBit hinf]
    rw [isInf_iff] at hinf
    rw [isFinite_iff] at ha
    omega

/-- A sum with a value that is not positive is not above its finite operand. -/
theorem fadd_le (ha : isFinite u.fmt a = true) (hb : isNaN u.fmt b = false) (h : orderKey u.fmt b ≤ 0) :
    orderKey u.fmt (fadd u t a b) ≤ orderKey u.fmt a := by
  rcases isFinite_or_isInf hb with hfin | hinf
  · rw [fadd_of_finite u t ha hfin]
    exact addFinite_le (isNaN_of_isFinite ha) h
  · rw [fadd_of_isInf_right u t ha hinf hb, orderKey_infinity_signBit hinf]
    rw [isInf_iff] at hinf
    rw [isFinite_iff] at ha
    omega

theorem fsub_le (ha : isFinite u.fmt a = true) (hb : isNaN u.fmt b = false) (h : 0 ≤ orderKey u.fmt b) :
    orderKey u.fmt (fsub u t a b) ≤ orderKey u.fmt a :=
  fadd_le u t ha ((isNaN_fneg ..).trans hb) (by rw [orderKey_fneg]; omega)

/-! ### The sign of a difference and of a product -/

theorem orderKey_fsub_of_finite (ha : isFinite u.fmt a = true) (hb : isFinite u.fmt b = true) :
    let e := min (exponent u.fmt a) (exponent u.fmt b)
    orderKey u.fmt (fsub u t a b) = roundKey u.fmt (alignedInt u.fmt a e - alignedInt u.fmt b e) e := by
  intro e
  rw [fsub_of_finite u t ha hb, orderKey_addFinite, exponent_fneg, alignedInt_fneg]
  rfl

theorem orderKey_fsub_of_eq (ha : isFinite u.fmt a = true) (hb : isFinite u.fmt b = true)
    (h : orderKey u.fmt a = orderKey u.fmt b) : orderKey u.fmt (fsub u t a b) = 0 := by
  rw [orderKey_fsub_of_finite u t ha hb, alignedInt_congr h, Int.sub_self, roundKey_zero]

theorem orderKey_fsub_of_isInf_left (ha : isInf u.fmt a = true) (hna : isNaN u.fmt a = false)
    (hb : isNaN u.fmt b = false) (h : orderKey u.fmt a ≠ orderKey u.fmt b) :
    orderKey u.fmt (fsub u t a b) = orderKey u.fmt a := by
  have hsame : (isInf u.fmt (fneg u.fmt b) && signBit u.fmt a != signBit u.fmt (fneg u.fmt b)) = false := by
    by_contra hc
    rw [Bool.not_eq_false, Bool.and_eq_true, isInf, fneg, magBits_pack _ _ (magBits_lt ..),
      signBit_pack _ _ (magBits_lt ..)] at hc
    obtain ⟨hmag, hsign⟩ := hc
    refine h ?_
    rw [orderKey, orderKey, beq_iff_eq.1 ha, beq_iff_eq.1 hmag]
    cases hsa : signBit u.fmt a <;> cases hsb : signBit u.fmt b <;> simp [hsa, hsb] at hsign ⊢
  rw [← orderKey_infinity_signBit ha]
  simp only [fsub, fadd, hna, isNaN_fneg, hb, ha, hsame, Bool.or_self, Bool.false_eq_true, if_false, if_true]

theorem orderKey_fsub_of_isInf_right (ha : isFinite u.fmt a = true) (hb : isInf u.fmt b = true)
    (hnb : isNaN u.fmt b = false) : orderKey u.fmt (fsub u t a b) = -orderKey u.fmt b := by
  have hinf : isInf u.fmt (fneg u.fmt b) = true := by
    rw [isInf_iff, orderKey_fneg, Int.natAbs_neg]
    exact (isInf_iff ..).1 hb
  rw [fsub, fadd_of_isInf_right u t ha hinf ((isNaN_fneg ..).trans hnb), orderKey_infinity_signBit hinf,
    orderKey_fneg]

/-- The rounded difference of two values that differ does not have the wrong sign. -/
theorem orderKey_fsub_sign (ha : isNaN u.fmt a = false) (hb : isNaN u.fmt b = false) :
    (orderKey u.fmt b < orderKey u.fmt a → 0 ≤ orderKey u.fmt (fsub u t a b))
      ∧ (orderKey u.fmt a < orderKey u.fmt b → orderKey u.fmt (fsub u t a b) ≤ 0) := by
  have hma := (isNaN_eq_false_iff ..).1 ha
  have hmb := (isNaN_eq_false_iff ..).1 hb
  rcases isFinite_or_isInf ha with hfa | hia
  · rcases isFinite_or_isInf hb with hfb | hib
    · have hea := min_le_left (exponent u.fmt a) (exponent u.fmt b)
      have heb := min_le_right (exponent u.fmt a) (exponent u.fmt b)
      rw [orderKey_fsub_of_finite u t hfa hfb]
      exact ⟨fun h => roundKey_nonneg _ (Int.sub_nonneg.2 (alignedInt_lt hb ha h heb hea).le) _,
        fun h => roundKey_nonpos _ (Int.sub_nonpos_of_le (alignedInt_lt ha hb h hea heb).le) _⟩
    · rw [orderKey_fsub_of_isInf_right u t hfa hib hb]
      rw [isInf_iff] at hib
      omega
  · by_cases hne : orderKey u.fmt a = orderKey u.fmt b
    · omega
    · rw [orderKey_fsub_of_isInf_left u t hia ha hb hne]
      rw [isInf_iff] at hia
      omega

/-- A product that is a number is an infinity of two factors that are no zeros, or a rounded value. -/
theorem fmul_cases (h : isNaN u.fmt (fmul u t a b) = false) :
    (¬ (isZero u.fmt a = true ∨ isZero u.fmt b = true)
      ∧ fmul u t a b = infinity u.fmt (signBit u.fmt a != signBit u.fmt b))
    ∨ fmul u t a b = roundTo u.fmt (signBit u.fmt a != signBit u.fmt b)
        (significand u.fmt a * significand u.fmt b) (exponent u.fmt a + exponent u.fmt b) false := by
  simp only [fmul, ← Bool.or_eq_true] at h ⊢
  split_ifs at h ⊢ with _ _ hzero
  · simp [isNaN_nan] at h
  · simp [isNaN_nan] at h
  · exact .inl ⟨hzero, rfl⟩
  · exact .inr rfl

/-- A product of two values that are not negative is not negative: where the signs differ, one factor is a zero. -/
theorem orderKey_fmul_nonneg (ha : 0 ≤ orderKey u.fmt a) (hb : 0 ≤ orderKey u.fmt b)
    (hprod : isNaN u.fmt (fmul u t a b) = false) : 0 ≤ orderKey u.fmt (fmul u t a b) := by
  rw [orderKey_nonneg_iff] at ha hb
  have hzero : (signBit u.fmt a != signBit u.fmt b) = true → isZero u.fmt a = true ∨ isZero u.fmt b = true := by
    intro hsign
    rcases ha with ha | ha
    · rcases hb with hb | hb
      · simp [ha, hb] at hsign
      · exact .inr (beq_iff_eq.2 hb)
    · exact .inl (beq_iff_eq.2 ha)
  rcases fmul_cases u t hprod with ⟨hnz, h⟩ | h
  · rw [h, orderKey_infinity, if_neg fun hsign => hnz (hzero hsign)]
    exact Int.natCast_nonneg _
  · rw [h, orderKey_roundTo]
    split_ifs with hsign
    · have hsig : significand u.fmt a * significand u.fmt b = 0 :=
        Nat.mul_eq_zero.2 ((hzero hsign).imp (fun hz => significand_eq_zero (beq_iff_eq.1 hz))
          fun hz => significand_eq_zero (beq_iff_eq.1 hz))
      simp [hsig, roundMag]
    · exact Int.natCast_nonneg _

end

end Sys2Proof.Machine

/-!
The attack/release envelope follower (44_envelope_follower.md R181 to R187): one update by the sign of the distance, where it can
end, and the commands `FO.*`.
-/

namespace Sys2Proof.Machine

/-! ### One update, by the sign of the distance (R181, R182) -/

/-- The step before the stop at the distance: the rate of the attack decision times the shape's magnitude. -/
def followReach (p : Params) (u : Fpu) (a : DynParams) (d : Word) : Word :=
  fmul u 1 (if isAttack p.fmt a d then a.ra else a.rr)
    (fabs p.fmt (shape p (u.at 0) (if isAttack p.fmt a d then a.sa else a.sr) d))

/-- The step `st` of an update over the distance `d`. -/
def followSize (p : Params) (u : Fpu) (a : DynParams) (d : Word) : Word :=
  fmin2 p.fmt (followReach p u a d) (fabs p.fmt d)

theorem isAttack_iff (f : Fmt) (a : DynParams) (d : Word) :
    isAttack f a d = true ↔ (a.ph = 0 ∧ fgt f d 0 = true) ∨ (a.ph ≠ 0 ∧ flt f d 0 = true) := by
  unfold isAttack
  split <;> simp [*]

theorem followReach_attack (p : Params) (u : Fpu) {a : DynParams} {d : Word} (h : isAttack p.fmt a d = true) :
    followReach p u a d = fmul u 1 a.ra (fabs p.fmt (shape p (u.at 0) a.sa d)) := by
  simp only [followReach, h, if_true]

theorem followReach_release (p : Params) (u : Fpu) {a : DynParams} {d : Word} (h : ¬ isAttack p.fmt a d = true) :
    followReach p u a d = fmul u 1 a.rr (fabs p.fmt (shape p (u.at 0) a.sr d)) := by
  simp only [followReach, if_neg h]

theorem followOne_eq_ite (p : Params) (u : Fpu) (a : DynParams) (cur tgt : Word) :
    let d := fsub u 0 tgt cur
    let st := followSize p u a d
    followOne p u a cur tgt =
      if fgt p.fmt d 0 then (if flt p.fmt (fadd u 2 cur st) tgt then fadd u 2 cur st else tgt)
      else if flt p.fmt d 0 then (if fgt p.fmt (fsub u 3 cur st) tgt then fsub u 3 cur st else tgt)
      else cur := rfl

section
variable {p : Params} {u : Fpu} (a : DynParams) {cur tgt : Word}

/-- A distance that is zero or a NaN leaves the value. -/
theorem followOne_of_no_distance (hup : fgt p.fmt (fsub u 0 tgt cur) 0 = false)
    (hdown : flt p.fmt (fsub u 0 tgt cur) 0 = false) : followOne p u a cur tgt = cur := by
  simp only [followOne_eq_ite, hup, hdown, Bool.false_eq_true, if_false]

variable (hu : u.fmt = p.fmt)
include hu

/-- From below the target an update stays, arrives, or steps up to a value that is still below. -/
theorem followOne_from_below (h : flt p.fmt cur tgt = true) :
    followOne p u a cur tgt = cur ∨ followOne p u a cur tgt = tgt
      ∨ isNaN p.fmt (fsub u 0 tgt cur) = false ∧ flt p.fmt (followOne p u a cur tgt) tgt = true
        ∧ followOne p u a cur tgt = fadd u 2 cur (followSize p u a (fsub u 0 tgt cur)) := by
  obtain ⟨hcur, htgt, hlt⟩ := (flt_iff ..).1 h
  have hsign : flt p.fmt (fsub u 0 tgt cur) 0 = false := by
    rw [← hu] at hcur htgt hlt ⊢
    have hnonneg := (orderKey_fsub_sign u 0 htgt hcur).1 hlt
    rw [← Bool.not_eq_true, flt_iff, orderKey_word_zero]
    omega
  cases hd : fgt p.fmt (fsub u 0 tgt cur) 0 with
  | false => exact .inl (followOne_of_no_distance a hd hsign)
  | true =>
    obtain ⟨_, hnan, _⟩ := (flt_iff ..).1 hd
    simp only [followOne_eq_ite, hd, if_true]
    split
    · next hn => exact .inr (.inr ⟨hnan, hn, rfl⟩)
    · exact .inr (.inl rfl)

/-- From above the target an update stays, arrives, or steps down to a value that is still above. -/
theorem followOne_from_above (h : flt p.fmt tgt cur = true) :
    followOne p u a cur tgt = cur ∨ followOne p u a cur tgt = tgt
      ∨ isNaN p.fmt (fsub u 0 tgt cur) = false ∧ flt p.fmt tgt (followOne p u a cur tgt) = true
        ∧ followOne p u a cur tgt = fsub u 3 cur (followSize p u a (fsub u 0 tgt cur)) := by
  obtain ⟨htgt, hcur, hlt⟩ := (flt_iff ..).1 h
  have hsign : fgt p.fmt (fsub u 0 tgt cur) 0 = false := by
    rw [← hu] at hcur htgt hlt ⊢
    have hnonpos := (orderKey_fsub_sign u 0 htgt hcur).2 hlt
    rw [← Bool.not_eq_true, fgt, flt_iff, orderKey_word_zero]
    omega
  cases hd : flt p.fmt (fsub u 0 tgt cur) 0 with
  | false => exact .inl (followOne_of_no_distance a hsign hd)
  | true =>
    obtain ⟨hnan, _, _⟩ := (flt_iff ..).1 hd
    simp only [followOne_eq_ite, hsign, hd, Bool.false_eq_true, if_false, if_true]
    split
    · next hn => exact .inr (.inr ⟨hnan, hn, rfl⟩)
    · exact .inr (.inl rfl)

/-! ### An update does not pass its target (R182, R187) -/

theorem followOne_le_target (h : flt p.fmt cur tgt = true) : fle p.fmt (followOne p u a cur tgt) tgt = true := by
  rcases followOne_from_below a hu h with hnew | hnew | ⟨_, hlt, _⟩
  · rw [hnew]
    exact fle_of_flt h
  · rw [hnew]
    exact fle_self ((flt_iff ..).1 h).2.1
  · exact fle_of_flt hlt

theorem target_le_followOne (h : flt p.fmt tgt cur = true) : fle p.fmt tgt (followOne p u a cur tgt) = true := by
  rcases followOne_from_above a hu h with hnew | hnew | ⟨_, hlt, _⟩
  · rw [hnew]
    exact fle_of_flt h
  · rw [hnew]
    exact fle_self ((flt_iff ..).1 h).1
  · exact fle_of_flt hlt

end

/-- Settles O28: the rounded distance does not have the wrong sign, and each branch of the update stops at the target. -/
theorem followerNeverPassesTarget : Obligations.FollowerNeverPassesTarget := by
  unfold Obligations.FollowerNeverPassesTarget
  exact fun p u a cur tgt hu => ⟨followOne_le_target a hu, target_le_followOne a hu⟩

/-! ### An update does not move away from its target (R187) -/

theorem fmin2_cases (f : Fmt) (a b : Word) : (fmin2 f a b = a ∧ flt f a b = true) ∨ fmin2 f a b = b := by
  unfold fmin2
  split
  · next h => exact .inl ⟨rfl, h⟩
  · exact .inr rfl

theorem DynParams.FloatsLegal.rates_nonneg {p : Params} {a : DynParams} (h : a.FloatsLegal p) :
    0 ≤ orderKey p.fmt a.ra ∧ 0 ≤ orderKey p.fmt a.rr := by
  obtain ⟨_, _, _, _, _, _, _, _, _, hra, _, hrr⟩ := h
  rw [fle_iff, orderKey_word_zero] at hra hrr
  exact ⟨hra.2.2, hrr.2.2⟩

section
variable {p : Params} {u : Fpu} (hu : u.fmt = p.fmt) {a : DynParams} (ha : a.FloatsLegal p)
include hu ha

/-- The step is a number and not negative: a NaN of the product loses against the distance. -/
theorem followSize_nonneg {d : Word} (hd : isNaN p.fmt d = false) :
    isNaN p.fmt (followSize p u a d) = false ∧ 0 ≤ orderKey p.fmt (followSize p u a d) := by
  unfold followSize
  rcases fmin2_cases p.fmt (followReach p u a d) (fabs p.fmt d) with ⟨hmin, hlt⟩ | hmin
  · obtain ⟨hnan, _, _⟩ := (flt_iff ..).1 hlt
    have hrate : 0 ≤ orderKey p.fmt (if isAttack p.fmt a d then a.ra else a.rr) := by
      split
      · exact ha.rates_nonneg.1
      · exact ha.rates_nonneg.2
    have habs : ∀ w, 0 ≤ orderKey p.fmt (fabs p.fmt w) := fun w => by simp [orderKey_fabs]
    rw [hmin]
    unfold followReach at hnan ⊢
    rw [← hu] at hnan hrate habs ⊢
    exact ⟨hnan, orderKey_fmul_nonneg u 1 hrate (habs _) hnan⟩
  · rw [hmin, isNaN_fabs, orderKey_fabs]
    exact ⟨hd, Int.natCast_nonneg _⟩

variable {cur tgt : Word}

theorem le_followOne (hcur : isFinite p.fmt cur = true) (h : flt p.fmt cur tgt = true) :
    fle p.fmt cur (followOne p u a cur tgt) = true := by
  rcases followOne_from_below a hu h with hnew | hnew | ⟨hd, hlt, hnew⟩
  · rw [hnew]
    exact fle_self_of_isFinite hcur
  · rw [hnew]
    exact fle_of_flt h
  · obtain ⟨hst, hpos⟩ := followSize_nonneg hu ha hd
    refine (fle_iff ..).2 ⟨isNaN_of_isFinite hcur, ((flt_iff ..).1 hlt).1, ?_⟩
    rw [hnew]
    rw [← hu] at hcur hst hpos ⊢
    exact le_fadd u 2 hcur hst hpos

theorem followOne_le (hcur : isFinite p.fmt cur = true) (h : flt p.fmt tgt cur = true) :
    fle p.fmt (followOne p u a cur tgt) cur = true := by
  rcases followOne_from_above a hu h with hnew | hnew | ⟨hd, hlt, hnew⟩
  · rw [hnew]
    exact fle_self_of_isFinite hcur
  · rw [hnew]
    exact fle_of_flt h
  · obtain ⟨hst, hpos⟩ := followSize_nonneg hu ha hd
    refine (fle_iff ..).2 ⟨((flt_iff ..).1 hlt).2.1, isNaN_of_isFinite hcur, ?_⟩
    rw [hnew]
    rw [← hu] at hcur hst hpos ⊢
    exact fsub_le u 3 hcur hst hpos

end

/-! ### A value at its target, and a NaN (R182) -/

section
variable {p : Params} {u : Fpu} (hu : u.fmt = p.fmt) (a : DynParams) {cur tgt : Word}
include hu

theorem followOne_of_feq (hcur : isFinite p.fmt cur = true) (htgt : isFinite p.fmt tgt = true)
    (h : feq p.fmt cur tgt = true) : followOne p u a cur tgt = cur := by
  have hzero : orderKey p.fmt (fsub u 0 tgt cur) = 0 := by
    obtain ⟨_, _, hkey⟩ := (feq_iff ..).1 h
    rw [← hu] at *
    exact orderKey_fsub_of_eq u 0 htgt hcur hkey.symm
  have hkeys := hzero.trans (orderKey_word_zero p.fmt).symm
  exact followOne_of_no_distance a (flt_of_orderKey_eq hkeys.symm) (flt_of_orderKey_eq hkeys)

theorem followOne_of_isNaN (h : isNaN p.fmt cur = true ∨ isNaN p.fmt tgt = true) : followOne p u a cur tgt = cur := by
  have hnan : isNaN p.fmt (fsub u 0 tgt cur) = true := by
    rw [← hu] at *
    rw [fsub, fadd_of_isNaN u 0 (by rw [isNaN_fneg]; exact h.symm), isNaN_nan]
  refine followOne_of_no_distance a ?_ ?_ <;> simp [fgt, flt, hnan]

end

/-! ### An update lies between the value and the target, the two equal or not -/

section
variable {p : Params} {u : Fpu} (hu : u.fmt = p.fmt) {a : DynParams} (ha : a.FloatsLegal p) {cur tgt : Word}
  (hcur : isFinite p.fmt cur = true) (htgt : isFinite p.fmt tgt = true)
include hu ha hcur htgt

theorem followOne_between_up (h : fle p.fmt cur tgt = true) :
    fle p.fmt cur (followOne p u a cur tgt) = true ∧ fle p.fmt (followOne p u a cur tgt) tgt = true := by
  rcases flt_or_feq_of_fle h with hlt | heq
  · exact ⟨le_followOne hu ha hcur hlt, followOne_le_target a hu hlt⟩
  · rw [followOne_of_feq hu a hcur htgt heq]
    exact ⟨fle_self_of_isFinite hcur, h⟩

theorem followOne_between_down (h : fle p.fmt tgt cur = true) :
    fle p.fmt tgt (followOne p u a cur tgt) = true ∧ fle p.fmt (followOne p u a cur tgt) cur = true := by
  rcases flt_or_feq_of_fle h with hlt | heq
  · exact ⟨target_le_followOne a hu hlt, followOne_le hu ha hcur hlt⟩
  · obtain ⟨_, _, hkey⟩ := (feq_iff ..).1 heq
    rw [followOne_of_feq hu a hcur htgt ((feq_iff ..).2 ⟨isNaN_of_isFinite hcur, isNaN_of_isFinite htgt, hkey.symm⟩)]
    exact ⟨h, fle_self_of_isFinite hcur⟩

theorem followOne_isFinite : isFinite p.fmt (followOne p u a cur tgt) = true := by
  rcases fle_total (isNaN_of_isFinite hcur) (isNaN_of_isFinite htgt) with h | h
  · obtain ⟨hlo, hhi⟩ := followOne_between_up hu ha hcur htgt h
    exact isFinite_of_between hcur htgt hlo hhi
  · obtain ⟨hlo, hhi⟩ := followOne_between_down hu ha hcur htgt h
    exact isFinite_of_between htgt hcur hlo hhi

/-- A bound above the value and the target is one above the update. -/
theorem followOne_le_of_le {b : Word} (hcb : fle p.fmt cur b = true) (htb : fle p.fmt tgt b = true) :
    fle p.fmt (followOne p u a cur tgt) b = true := by
  rcases fle_total (isNaN_of_isFinite hcur) (isNaN_of_isFinite htgt) with h | h
  · exact fle_trans (followOne_between_up hu ha hcur htgt h).2 htb
  · exact fle_trans (followOne_between_down hu ha hcur htgt h).2 hcb

/-- A bound below the value and the target is one below the update. -/
theorem le_followOne_of_le {b : Word} (hbc : fle p.fmt b cur = true) (hbt : fle p.fmt b tgt = true) :
    fle p.fmt b (followOne p u a cur tgt) = true := by
  rcases fle_total (isNaN_of_isFinite hcur) (isNaN_of_isFinite htgt) with h | h
  · exact fle_trans hbc (followOne_between_up hu ha hcur htgt h).1
  · exact fle_trans hbt (followOne_between_down hu ha hcur htgt h).1

end

/-! ### Both followers (R183) -/

@[simp] theorem followStep_foXS (p : Params) (u : Fpu) (x : Band) (t : Word) :
    (followStep p u x t).foXS = followOne p (u.at 0) x.active x.foXS t := rfl

@[simp] theorem followStep_foXC (p : Params) (u : Fpu) (x : Band) (t : Word) :
    (followStep p u x t).foXC =
      followOne p (u.at 1) x.active x.foXC (followOne p (u.at 0) x.active x.foXS t) := by
  simp only [followStep]

/-- Settles O29: the first follower moves between its value and the target, the second between its own and the first's new
one, so the target bounds both. -/
theorem followerStaysBetween : Obligations.FollowerStaysBetween := by
  unfold Obligations.FollowerStaysBetween
  intro p u a cur tgt hu ha
  refine ⟨fun hcur htgt => ⟨fun h => ?_, fun h => ?_, followOne_of_feq hu a hcur htgt⟩, followOne_of_isNaN hu a, ?_⟩
  · exact followOne_between_up hu ha hcur htgt (fle_of_flt h)
  · exact followOne_between_down hu ha hcur htgt (fle_of_flt h)
  · rintro x rfl hxs hxc htgt
    have hu0 : (u.at 0).fmt = p.fmt := hu
    have hu1 : (u.at 1).fmt = p.fmt := hu
    have hxs' := followOne_isFinite hu0 ha hxs htgt
    simp only [followStep_foXC, followStep_foXS]
    refine ⟨hxs', followOne_isFinite hu1 ha hxc hxs', fun hs hc => ?_, fun hs hc => ?_⟩
    · obtain ⟨hmoved, hbound⟩ := followOne_between_up hu0 ha hxs htgt hs
      exact ⟨hmoved, hbound, followOne_le_of_le hu1 ha hxc hxs' hc hbound⟩
    · obtain ⟨hbound, hmoved⟩ := followOne_between_down hu0 ha hxs htgt hs
      exact ⟨hmoved, hbound, le_followOne_of_le hu1 ha hxc hxs' hc hbound⟩

/-! ### FO.STEP (R185) -/

theorem exec_foStep {s : State} {b : BitVec 4} (hs : s.Processing) (hb : s.HasBand b) (d : Word) :
    let x := followStep s.par s.fpu (s.band b) (sampleOperand s.par.fmt d)
    exec (.foStep b d) s = .next ((s.setBand b x).emit .a (resultWord s.par.fmt x.foXC)) :=
  command_of_hasBand (hs.ready rfl rfl) rfl hb

/-- Settles O27: `followStep` field by field, and the update's equation with its step taken apart. -/
theorem foStepRunsBothFollowers : Obligations.FoStepRunsBothFollowers := by
  unfold Obligations.FoStepRunsBothFollowers
  refine ⟨fun b d => ⟨onlyOn_of_port rfl, onlyRunning_of_when rfl rfl rfl, fun s hs => ⟨?_, fun hb => ?_⟩⟩, ?_⟩
  · exact command_of_not_hasBand (hs.ready rfl rfl) rfl
  · exact ⟨s.fpu.at 0, s.fpu.at 1, _, _, rfl, rfl, rfl, rfl, exec_foStep hs hb d⟩
  · intro p u a cur tgt hu f d attack
    refine ⟨followReach p u a d, followSize p u a d, u.at 0, hu, fun h => ?_, fun h => ?_, rfl,
      followOne_eq_ite p u a cur tgt⟩
    · exact followReach_attack p u ((isAttack_iff ..).2 h)
    · exact followReach_release p u (fun hattack => h ((isAttack_iff ..).1 hattack))

/-! ### FO.RESET (R186) -/

/-- The two follower variables set to +0. -/
def clearFollower (x : Band) : Band := { x with foXS := 0, foXC := 0 }

@[simp] theorem clearFollower_clearFollower (x : Band) : clearFollower (clearFollower x) = clearFollower x := rfl

theorem exec_foReset {s : State} {b : BitVec 4} (hs : s.Processing) (hb : s.HasBand b) :
    exec (.foReset b) s = .next (s.setBand b (clearFollower (s.band b))) :=
  command_of_hasBand (hs.ready rfl rfl) rfl hb

theorem exec_foReset_of_clear {s : State} {b : BitVec 4} (hs : s.Processing) (hb : s.HasBand b)
    (hclear : clearFollower (s.band b) = s.band b) : exec (.foReset b) s = .next s := by
  rw [exec_foReset hs hb, hclear, State.setBand_self]

/-- Settles O30: a cleared follower stays as it is, and the band that `PREPARE` leaves has the old follower. -/
theorem foResetClearsFollower : Obligations.FoResetClearsFollower := by
  unfold Obligations.FoResetClearsFollower
  refine ⟨fun b => ⟨onlyOn_of_port rfl, onlyRunning_of_when rfl rfl rfl, fun s hs => ⟨?_, fun hb => ?_⟩⟩, fun s hs => ?_⟩
  · exact command_of_not_hasBand (hs.ready rfl rfl) rfl
  · refine ⟨_, rfl, exec_foReset hs hb, exec_foReset_of_clear hs hb ?_⟩
    rw [State.setBand_band]
    exact clearFollower_clearFollower _
  · refine ⟨prepareEffect s, exec_prepare hs, fun b => ?_⟩
    rw [prepareEffect_band]
    exact ⟨rfl, rfl⟩

end Sys2Proof.Machine

/-!
The dynamics chain (45_dynamics_chain.md R196, R197): one detector cycle of a band, what it keeps under another value of the
bypass, and the command `DY.RUN`.
-/

namespace Sys2Proof.Machine

/-! ### One detector cycle (R196) -/

/-- The word a cycle leaves in `DY_OUT`, from the gain of the follower. -/
def gatedGain (a : DynParams) (gain : Word) : Word := if a.byp = 0 then gain else 0

theorem gatedGain_of_bypassed {a : DynParams} (h : a.byp = 1) (gain : Word) : gatedGain a gain = 0 := by
  simp only [gatedGain, h, one_ne_zero, if_false]

theorem gainTarget_eq_fsub (p : Params) (u : Fpu) (x : Band) : gainTarget p u x
    = fsub u 0 (kneeEval p (u.at 1) x.active x.knee (loudness p (u.at 0) x)) (loudness p (u.at 0) x) := by
  simp only [gainTarget]

section
variable (p : Params) (u : Fpu) (x : Band)

@[simp] theorem dynamicsCycle_foXS :
    (dynamicsCycle p u x).foXS = (followStep p (u.at 2) x (gainTarget p u x)).foXS := by
  simp only [dynamicsCycle]

@[simp] theorem dynamicsCycle_foXC :
    (dynamicsCycle p u x).foXC = (followStep p (u.at 2) x (gainTarget p u x)).foXC := by
  simp only [dynamicsCycle]

@[simp] theorem dynamicsCycle_dyOut :
    (dynamicsCycle p u x).dyOut = gatedGain x.active (followStep p (u.at 2) x (gainTarget p u x)).foXC := by
  simp only [dynamicsCycle, gatedGain]

/-- A cycle writes the two followers and the output; the tracker is read, not written. -/
theorem dynamicsCycle_eq_update : dynamicsCycle p u x = { x with
    foXS := (followStep p (u.at 2) x (gainTarget p u x)).foXS
    foXC := (followStep p (u.at 2) x (gainTarget p u x)).foXC
    dyOut := gatedGain x.active (followStep p (u.at 2) x (gainTarget p u x)).foXC } := by
  simp only [dynamicsCycle, followStep, gatedGain]

end

/-! ### The bypass (R197) -/

/-- The band with another value of `DY_BYP`. -/
def Band.withByp (x : Band) (n : Nat) : Band := { x with active := { x.active with byp := n } }

@[simp] theorem Band.withByp_foXS (x : Band) (n : Nat) : (x.withByp n).foXS = x.foXS := rfl

@[simp] theorem Band.withByp_foXC (x : Band) (n : Nat) : (x.withByp n).foXC = x.foXC := rfl

section
variable (p : Params) (u : Fpu) (x : Band) (n : Nat)

@[simp] theorem loudness_withByp : loudness p u (x.withByp n) = loudness p u x := rfl

@[simp] theorem kneeEval_withByp (l : Word) :
    kneeEval p u (x.withByp n).active (x.withByp n).knee l = kneeEval p u x.active x.knee l := rfl

@[simp] theorem followOne_withByp (cur t : Word) :
    followOne p u (x.withByp n).active cur t = followOne p u x.active cur t := rfl

@[simp] theorem gainTarget_withByp : gainTarget p u (x.withByp n) = gainTarget p u x := by
  simp only [gainTarget_eq_fsub, loudness_withByp, kneeEval_withByp]

@[simp] theorem followStep_withByp (t : Word) :
    followStep p u (x.withByp n) t = (followStep p u x t).withByp n := by
  simp only [followStep, followOne_withByp, Band.withByp_foXS, Band.withByp_foXC]
  rfl

theorem dynamicsCycle_withByp_foXS : (dynamicsCycle p u (x.withByp n)).foXS = (dynamicsCycle p u x).foXS := by
  simp only [dynamicsCycle_foXS, gainTarget_withByp, followStep_withByp, Band.withByp_foXS]

theorem dynamicsCycle_withByp_foXC : (dynamicsCycle p u (x.withByp n)).foXC = (dynamicsCycle p u x).foXC := by
  simp only [dynamicsCycle_foXC, gainTarget_withByp, followStep_withByp, Band.withByp_foXC]

end

/-! ### DY.RUN (R196, R197) -/

@[simp] theorem resultWord_zero (f : Fmt) : resultWord f 0 = 0 := by cases f <;> decide

/-- The state `DY.RUN` leaves. -/
def dyRunEffect (s : State) (b : BitVec 4) : State :=
  (s.setBand b (dynamicsCycle s.par s.fpu (s.band b))).emit .a
    (resultWord s.par.fmt (dynamicsCycle s.par s.fpu (s.band b)).dyOut)

theorem exec_dyRun {s : State} {b : BitVec 4} (hs : s.Processing) (hb : s.HasBand b) :
    exec (.dyRun b) s = .next (dyRunEffect s b) :=
  command_of_hasBand (hs.ready rfl rfl) rfl hb

@[simp] theorem dyRunEffect_band (s : State) (b : BitVec 4) :
    (dyRunEffect s b).band b = dynamicsCycle s.par s.fpu (s.band b) := by
  simp only [dyRunEffect, State.emit_band, State.setBand_band]

@[simp] theorem dyRunEffect_respA (s : State) (b : BitVec 4) : (dyRunEffect s b).respA
    = s.respA ++ [resultWord s.par.fmt (dynamicsCycle s.par s.fpu (s.band b)).dyOut] := by
  simp only [dyRunEffect, State.emit_a_respA, State.setBand_respA]

/-- Replacing a band changes neither the parameters nor the arithmetic that the cycle runs with. -/
theorem dyRunEffect_setBand_band (s : State) (b : BitVec 4) (x : Band) :
    (dyRunEffect (s.setBand b x) b).band b = dynamicsCycle s.par s.fpu x := by
  simp only [dyRunEffect_band, State.setBand_band, State.setBand_par]
  rfl

/-- Settles O32: the cycle of the band with another `DY_BYP` moves the followers alike, and a bypassed cycle gates the gain to
+0. -/
theorem bypassOnlyDiscardsTheGain : Obligations.BypassOnlyDiscardsTheGain := by
  unfold Obligations.BypassOnlyDiscardsTheGain
  rintro s s' b n hs hb rfl
  have hs' : (s.setBand b ((s.band b).withByp n)).Processing := hs
  refine ⟨dyRunEffect s b, dyRunEffect (s.setBand b ((s.band b).withByp n)) b, exec_dyRun hs hb, exec_dyRun hs' hb,
    ?_, ?_, fun hbyp => ?_⟩
  · rw [dyRunEffect_setBand_band, dyRunEffect_band, dynamicsCycle_withByp_foXS]
  · rw [dyRunEffect_setBand_band, dyRunEffect_band, dynamicsCycle_withByp_foXC]
  · have hout : (dynamicsCycle s.par s.fpu (s.band b)).dyOut = 0 := by
      rw [dynamicsCycle_dyOut, gatedGain_of_bypassed hbyp]
    rw [dyRunEffect_band, dyRunEffect_respA, hout, resultWord_zero]
    exact ⟨rfl, rfl⟩

/-- Settles O31: the tracker's reading, the knee's output, their difference and one follower step are the parts of the cycle. -/
theorem dyRunComposesTheChain : Obligations.DyRunComposesTheChain := by
  unfold Obligations.DyRunComposesTheChain
  refine fun b => ⟨onlyOn_of_port rfl, onlyRunning_of_when rfl rfl rfl, fun s hs => ⟨?_, fun hb => ?_⟩⟩
  · exact command_of_not_hasBand (hs.ready rfl rfl) rfl
  · refine ⟨s.fpu.at 0, s.fpu.at 1, s.fpu, s.fpu.at 2, loudness s.par (s.fpu.at 0) (s.band b), _, _,
      ⟨rfl, rfl, rfl, rfl⟩, rfl, rfl, rfl, ?_⟩
    rw [← gainTarget_eq_fsub, exec_dyRun hs hb, dyRunEffect, dynamicsCycle_eq_update]
    rfl

end Sys2Proof.Machine

/-!
The oversampler (46_oversampler.md R202 to R211, R214): the accumulation of a path, a stage's two paths, the cascades up and
down, and the effect of each `OS.*` command.
-/

namespace Sys2Proof.Machine

/-! ### The symmetric sum of a path (R203, R204) -/

section
variable (u : Fpu) (taps line : Bank) (last : Nat)

/-- The outermost pair. -/
theorem pairSum_zero : ∃ (v : Fpu) (p q : Nat), v.fmt = u.fmt
    ∧ pairSum u taps line last 0 = fmul v p (taps.read 0) (fadd v q (line.read 0) (line.read last)) :=
  ⟨u, 0, 1, rfl, rfl⟩

/-- Each further pair is added, multiplied by its tap and accumulated, one place further in. -/
theorem pairSum_of_pos {k : Nat} (hk : 1 ≤ k) : ∃ (v : Fpu) (p q m : Nat), v.fmt = u.fmt
    ∧ pairSum u taps line last k = fadd v p (pairSum u taps line last (k - 1))
        (fmul v q (taps.read k) (fadd v m (line.read k) (line.read (last - k)))) := by
  obtain ⟨j, rfl⟩ := Nat.exists_eq_add_of_le' hk
  exact ⟨u, 3 * j + 2, 3 * j + 3, 3 * j + 4, rfl, rfl⟩

end

/-- Settles O34: the line is one shift, and the second output is the symmetric sum over the shifted line. -/
theorem stageUpShiftsAndInterpolates : Obligations.StageUpShiftsAndInterpolates := by
  unfold Obligations.StageUpShiftsAndInterpolates
  intro u g line x _
  refine ⟨fun j => Bank.read_shiftIn _ _ _ _, ⟨u.at 0, 0, rfl, rfl⟩,
    pairSum (u.at 1) g.tu (line.shiftIn (2 * g.ku) x) (2 * g.ku - 1), rfl, ?_, fun k hk _ => ?_⟩
  · exact pairSum_zero (u.at 1) _ _ _
  · exact pairSum_of_pos (u.at 1) _ _ _ hk

/-- Settles O35: both lines are one shift each, and the symmetric sum runs over the shifted odd-phase line. -/
theorem stageDownShiftsAndDecimates : Obligations.StageDownShiftsAndDecimates := by
  unfold Obligations.StageDownShiftsAndDecimates
  intro u g cl dl v0 v1 _
  refine ⟨fun j => Bank.read_shiftIn _ _ _ _, fun j => Bank.read_shiftIn _ _ _ _,
    pairSum (u.at 1) g.td (dl.shiftIn (2 * g.kd) v1) (2 * g.kd - 1), ⟨u.at 0, 0, 1, rfl, rfl⟩, ?_, fun k hk _ => ?_⟩
  · exact pairSum_zero (u.at 1) _ _ _
  · exact pairSum_of_pos (u.at 1) _ _ _ hk

/-! ### The lines of a path (R37) -/

theorem lineAt_set_same (v : Vector Bank 6) {n : Nat} (hn : n < 6) (l : Bank) : lineAt (v.setIfInBounds n l) n = l := by
  simp [lineAt, hn]

theorem lineAt_set_of_ne (v : Vector Bank 6) {n m : Nat} (hm : m ≠ n) (l : Bank) :
    lineAt (v.setIfInBounds n l) m = lineAt v m := by
  simp [lineAt, Vector.getElem?_setIfInBounds_ne hm.symm]

/-! ### The cascade up (R205) -/

section
variable (u : Fpu) (s : State) (p : Vector Bank 6 × List Word)

/-- The stages from `n` on are not called. -/
theorem cascadeUp_line_of_le {n m : Nat} (h : n ≤ m) : lineAt (cascadeUp u s n p).1 m = lineAt p.1 m := by
  induction n with
  | zero => rfl
  | succ n ih => exact (lineAt_set_of_ne _ (by omega) _).trans (ih (by omega))

/-- Stage `m` takes the sequence of the `m` stages before it to that of the `m + 1`, and no later stage touches its line. -/
theorem cascadeUp_upRun {n m : Nat} (hn : n ≤ 6) (hm : m < n) :
    UpRun u.fmt (s.stage m) (lineAt p.1 m) (cascadeUp u s m p).2 (lineAt (cascadeUp u s n p).1 m)
      (cascadeUp u s (m + 1) p).2 := by
  induction n with
  | zero => exact absurd hm (Nat.not_lt_zero m)
  | succ n ih =>
    by_cases hmn : m = n
    · subst hmn
      simp only [cascadeUp, lineAt_set_same _ hn, cascadeUp_line_of_le u s p le_rfl]
      exact runUp_spec (u.at m) (s.stage m) (lineAt p.1 m) (cascadeUp u s m p).2
    · have hline : lineAt (cascadeUp u s (n + 1) p).1 m = lineAt (cascadeUp u s n p).1 m := lineAt_set_of_ne _ hmn _
      rw [hline]
      exact ih (by omega) (by omega)

end

/-! ### The cascade down (R206) -/

/-- A stage's down path takes its samples in pairs: the recursion of `runDown`. -/
theorem runDown_spec (u : Fpu) (g : Stage) (cl dl : Bank) (vs : List Word) : DownRun u.fmt g cl dl vs
    (runDown u g cl dl vs).1 (runDown u g cl dl vs).2.1 (runDown u g cl dl vs).2.2 := by
  induction cl, dl, vs using runDown.induct u g with
  | case1 cl dl v0 v1 rest r ih => exact ⟨u.at rest.length, _, rfl, rfl, ih⟩
  | case2 | case3 => exact ⟨rfl, rfl, rfl⟩

theorem runDown_length (u : Fpu) (g : Stage) (cl dl : Bank) (vs : List Word) :
    (runDown u g cl dl vs).2.2.length = vs.length / 2 := by
  induction cl, dl, vs using runDown.induct u g with
  | case1 cl dl v0 v1 rest r ih =>
    have hhalf : (v0 :: v1 :: rest).length / 2 = rest.length / 2 + 1 := by simp only [List.length_cons]; omega
    rw [hhalf, ← ih]
    rfl
  | case2 cl dl v => simp [runDown]
  | case3 => rfl

section
variable (u : Fpu) (s : State)

theorem cascadeDown_length {n : Nat} {x : Chan} {seq : List Word} (h : seq.length = 2 ^ n) :
    (cascadeDown u s n x seq).2.length = 1 := by
  induction n generalizing x seq with
  | zero => exact h
  | succ n ih =>
    refine ih ?_
    rw [runDown_length, h, Nat.pow_succ, Nat.mul_div_cancel _ (by decide)]

/-- Going down writes the channel's centre and odd-phase lines only. -/
theorem cascadeDown_frame (n : Nat) (x : Chan) (seq : List Word) : (cascadeDown u s n x seq).1
    = { x with cl := (cascadeDown u s n x seq).1.cl, dl := (cascadeDown u s n x seq).1.dl } := by
  induction n generalizing x seq with
  | zero => rfl
  | succ n ih => exact ih _ _

/-- What the cascade down can do: `q m` is the sequence between stage `m` and the stage before it; stage `m` takes
`q (m + 1)` to `q m` on the lines it finds, which no other stage touches. -/
theorem cascadeDown_spec {n : Nat} (hn : n ≤ 6) (x : Chan) (seq : List Word) :
    ∃ q : Nat → List Word, q n = seq ∧ q 0 = (cascadeDown u s n x seq).2
      ∧ (∀ m : Nat, m < n → DownRun u.fmt (s.stage m) (lineAt x.cl m) (lineAt x.dl m) (q (m + 1))
          (lineAt (cascadeDown u s n x seq).1.cl m) (lineAt (cascadeDown u s n x seq).1.dl m) (q m))
      ∧ ∀ m : Nat, n ≤ m → lineAt (cascadeDown u s n x seq).1.cl m = lineAt x.cl m
          ∧ lineAt (cascadeDown u s n x seq).1.dl m = lineAt x.dl m := by
  induction n generalizing x seq with
  | zero => exact ⟨fun _ => seq, rfl, rfl, fun m hm => absurd hm (Nat.not_lt_zero m), fun m _ => ⟨rfl, rfl⟩⟩
  | succ n ih =>
    have hrun := runDown_spec (u.at n) (s.stage n) (lineAt x.cl n) (lineAt x.dl n) seq
    rw [cascadeDown]
    generalize runDown (u.at n) (s.stage n) (lineAt x.cl n) (lineAt x.dl n) seq = r at hrun ⊢
    obtain ⟨q, hqn, hq0, hbelow, habove⟩ := ih (by omega)
      { x with cl := x.cl.setIfInBounds n r.1, dl := x.dl.setIfInBounds n r.2.1 } r.2.2
    refine ⟨Function.update q (n + 1) seq, Function.update_self .., ?_, fun m hm => ?_, fun m hm => ?_⟩
    · rw [Function.update_of_ne (Nat.succ_ne_zero n).symm, hq0]
    · by_cases hmn : m = n
      · subst hmn
        obtain ⟨hcl, hdl⟩ := habove m le_rfl
        rw [hcl, hdl, lineAt_set_same _ hn, lineAt_set_same _ hn, Function.update_self,
          Function.update_of_ne (by omega), hqn]
        exact hrun
      · have hline := hbelow m (by omega)
        rw [lineAt_set_of_ne _ hmn, lineAt_set_of_ne _ hmn] at hline
        rw [Function.update_of_ne (by omega), Function.update_of_ne (by omega)]
        exact hline
    · obtain ⟨hcl, hdl⟩ := habove m (by omega)
      rw [hcl, hdl, lineAt_set_of_ne _ (by omega), lineAt_set_of_ne _ (by omega)]
      exact ⟨rfl, rfl⟩

end

/-! ### A command whose first check is the channel's (R253) -/

@[simp] theorem State.badChan_eq_false_iff (s : State) (c : BitVec 4) : s.badChan c = false ↔ s.HasChan c := by
  simp [State.badChan]

@[simp] theorem State.badChan_eq_true_iff (s : State) (c : BitVec 4) : s.badChan c = true ↔ ¬ s.HasChan c := by
  simp [State.badChan]

section
variable {i : Instr} {s : State} {c : BitVec 4} {own : List (Bool × ErrCode)} {e : State} {k : ErrCode} {bad : Bool}

theorem command_of_not_hasChan (hs : s.Ready i) (hw : i.wellFormed = true) (hc : ¬ s.HasChan c) :
    command i s ((s.badChan c, .index) :: own) e = .next (s.raise .index i.header) :=
  command_raises_own hs hw (by simp [firstFailure_cons, hc])

theorem firstFailure_of_hasChan (hc : s.HasChan c) : firstFailure ((s.badChan c, .index) :: own) = firstFailure own := by
  simp [firstFailure_cons, hc]

/-- The queue commands have one check after the channel's. -/
theorem command_of_queue_fault (hs : s.Ready i) (hw : i.wellFormed = true) (hc : s.HasChan c) (hbad : bad = true) :
    command i s [(s.badChan c, .index), (bad, k)] e = .next (s.raise k i.header) := by
  subst hbad
  exact command_raises_own hs hw (firstFailure_of_hasChan hc)

theorem command_of_queue_ok (hs : s.Ready i) (hw : i.wellFormed = true) (hc : s.HasChan c) (hok : bad = false) :
    command i s [(s.badChan c, .index), (bad, k)] e = .next e := by
  subst hok
  exact command_has_effect hs hw (firstFailure_of_hasChan hc)

end

section
variable {s : State} {c : BitVec 4} (hs : s.Processing) (hc : s.HasChan c)
include hs hc

theorem exec_osUp (d : Word) : exec (.osUp c d) s = .next (upEffect c d s) :=
  command_has_effect (hs.ready rfl rfl) rfl (firstFailure_of_hasChan hc)

theorem exec_osWr (d : Word) (hroom : (s.chan c).dq.length < s.cfgMaxblk * 2 ^ s.cfgS) : exec (.osWr c d) s =
    .next (s.setChan c { s.chan c with dq := (s.chan c).dq ++ [sampleOperand s.par.fmt d] }) :=
  command_of_queue_ok (hs.ready rfl rfl) rfl hc (decide_eq_false (Nat.not_le.2 hroom))

theorem exec_osDown (hfill : 2 ^ s.cfgS ≤ (s.chan c).dq.length) : exec (.osDown c) s = .next (downEffect c s) :=
  command_of_queue_ok (hs.ready rfl rfl) rfl hc (decide_eq_false (Nat.not_lt.2 hfill))

end

/-! ### OS.UP (R207) -/

/-- The channel's up lines and the sequence after the first `n` stages of an `OS.UP`. -/
def upResult (c : BitVec 4) (d : Word) (s : State) (n : Nat) : Vector Bank 6 × List Word :=
  cascadeUp s.fpu s n ((s.chan c).ul, [sampleOperand s.par.fmt d])

theorem upEffect_eq (c : BitVec 4) (d : Word) (s : State) : upEffect c d s
    = (s.setChan c { s.chan c with ul := (upResult c d s s.cfgS).1 }).emitAll .a
      ((upResult c d s s.cfgS).2.map (resultWord s.par.fmt)) := rfl

theorem upEffect_chan_ul (c : BitVec 4) (d : Word) (s : State) :
    ((upEffect c d s).chan c).ul = (upResult c d s s.cfgS).1 := by
  rw [upEffect_eq, State.emitAll_chan, State.setChan_chan]

/-- Settles O36: the sequences are those after the first `n` stages of the cascade. -/
theorem osUpRunsEveryStage : Obligations.OsUpRunsEveryStage := by
  unfold Obligations.OsUpRunsEveryStage
  refine fun c d => ⟨onlyOn_of_port rfl, onlyRunning_of_when rfl rfl rfl, fun s hs =>
    ⟨command_of_not_hasChan (hs.ready rfl rfl) rfl, fun hc hS => ?_⟩⟩
  refine ⟨upEffect c d s, fun n => (upResult c d s n).2, exec_osUp hs hc d, ?_, rfl, ?_, fun n hn => ?_, fun n hn => ?_⟩
  · rw [upEffect_chan_ul, upEffect_eq]
  · exact (cascadeUp_length s.fpu s s.cfgS _).trans (Nat.mul_one _)
  · rw [upEffect_chan_ul]
    exact cascadeUp_upRun s.fpu s (upResult c d s 0) hS hn
  · rw [upEffect_chan_ul]
    exact cascadeUp_line_of_le s.fpu s (upResult c d s 0) hn

/-! ### OS.DOWN (R209) -/

/-- What going down leaves of a channel and of the head of its queue. -/
def downResult (c : BitVec 4) (s : State) : Chan × List Word :=
  cascadeDown s.fpu s s.cfgS { s.chan c with dq := (s.chan c).dq.drop (2 ^ s.cfgS) } ((s.chan c).dq.take (2 ^ s.cfgS))

theorem downEffect_eq (c : BitVec 4) (s : State) : downEffect c s
    = (s.setChan c (downResult c s).1).emit .a (resultWord s.par.fmt ((downResult c s).2.headD 0)) := rfl

theorem downEffect_chan (c : BitVec 4) (s : State) : (downEffect c s).chan c = (downResult c s).1 := by
  rw [downEffect_eq, State.emit_chan, State.setChan_chan]

theorem downEffect_frame (c : BitVec 4) (s : State) : downEffect c s = (s.setChan c { s.chan c with
      dq := (s.chan c).dq.drop (2 ^ s.cfgS), cl := ((downEffect c s).chan c).cl, dl := ((downEffect c s).chan c).dl }).emit
    .a (resultWord s.par.fmt ((downResult c s).2.headD 0)) := by
  rw [downEffect_chan, downEffect_eq]
  exact congrArg (fun x => (s.setChan c x).emit .a _) (cascadeDown_frame s.fpu s s.cfgS _ _)

theorem downResult_eq_singleton {c : BitVec 4} {s : State} (hfill : 2 ^ s.cfgS ≤ (s.chan c).dq.length) :
    (downResult c s).2 = [(downResult c s).2.headD 0] := by
  have hlen : (downResult c s).2.length = 1 := cascadeDown_length s.fpu s (List.length_take_of_le hfill)
  obtain ⟨w, hw⟩ := List.length_eq_one_iff.1 hlen
  rw [hw]
  rfl

/-- Settles O37: the sequences are those `cascadeDown_spec` gives, and `2 ^ CFG_S` samples leave one. -/
theorem osDownUnwindsStages : Obligations.OsDownUnwindsStages := by
  unfold Obligations.OsDownUnwindsStages
  refine fun c => ⟨onlyOn_of_port rfl, onlyRunning_of_when rfl rfl rfl, fun s hs =>
    ⟨command_of_not_hasChan (hs.ready rfl rfl) rfl, fun hc hshort => ?_, fun hc hfill hS => ?_⟩⟩
  · exact command_of_queue_fault (hs.ready rfl rfl) rfl hc (decide_eq_true hshort)
  · obtain ⟨q, hqS, hq0, hbelow, habove⟩ := cascadeDown_spec s.fpu s hS
      { s.chan c with dq := (s.chan c).dq.drop (2 ^ s.cfgS) } ((s.chan c).dq.take (2 ^ s.cfgS))
    refine ⟨downEffect c s, q, _, exec_osDown hs hc hfill, downEffect_frame c s, hqS,
      hq0.trans (downResult_eq_singleton hfill), ?_, ?_⟩
    · rw [downEffect_chan]
      exact hbelow
    · rw [downEffect_chan]
      exact habove

/-! ### OS.WR (R208) -/

/-- Settles O38: the capacity is `DQCAP` (R38), and the check of the queue comes after that of the channel. -/
theorem osWrAppendsToQueue : Obligations.OsWrAppendsToQueue := by
  unfold Obligations.OsWrAppendsToQueue
  refine fun c d => ⟨onlyOn_of_port rfl, onlyRunning_of_when rfl rfl rfl, fun s hs =>
    ⟨command_of_not_hasChan (hs.ready rfl rfl) rfl, fun hc hfull => ?_, fun hc hroom => exec_osWr hs hc d hroom⟩⟩
  exact command_of_queue_fault (hs.ready rfl rfl) rfl hc (decide_eq_true hfull)

/-! ### OS.RESET (R211) -/

theorem exec_osReset {s : State} (hs : s.Processing) :
    exec .osReset s = .next { s with chans := Vector.replicate 16 Chan.reset } :=
  command_has_effect (hs.ready rfl rfl) rfl rfl

/-- Settles O39: every channel is the cleared one, and the second `OS.RESET` replaces it by itself. -/
theorem osResetClearsOversampler : Obligations.OsResetClearsOversampler := by
  unfold Obligations.OsResetClearsOversampler
  refine ⟨onlyOn_of_port rfl, onlyRunning_of_when rfl rfl rfl, fun s hs =>
    ⟨_, exec_osReset hs, rfl, fun c => ?_, exec_osReset (s := { s with chans := Vector.replicate 16 Chan.reset }) hs⟩⟩
  rw [State.resetChans_chan]
  refine ⟨rfl, fun n k _ => ?_⟩
  simp only [Chan.reset, lineAt_replicate]
  exact ⟨rfl, rfl, rfl⟩

/-! ### The oversampler switched off (R214) -/

section
variable {s : State} (hS : s.cfgS = 0)
include hS

theorem latencyWord_of_no_stage : latencyWord s = 0 := by
  simp [latencyWord, latencyNumerator, hS]

theorem upEffect_of_no_stage (c : BitVec 4) (d : Word) : upEffect c d s = s.emit .a (sampleOperand s.par.fmt d) := by
  simp only [upEffect, hS, cascadeUp, List.map_cons, List.map_nil, resultWord_sampleOperand]
  rw [State.setChan_self, emit_eq_emitAll]

theorem downEffect_of_no_stage {c : BitVec 4} {w : Word} {rest : List Word} (hq : (s.chan c).dq = w :: rest) :
    downEffect c s = (s.setChan c { s.chan c with dq := rest }).emit .a (resultWord s.par.fmt w) := by
  simp only [downEffect, hS, hq, cascadeDown, Nat.pow_zero, List.drop_one, List.tail_cons, List.take_one,
    List.head?_cons, Option.toList_some, List.headD_cons]

end

/-- Settles O40: without a stage both cascades leave their sequence as it is. -/
theorem oversamplerOffPassesThrough : Obligations.OversamplerOffPassesThrough := by
  unfold Obligations.OversamplerOffPassesThrough
  refine ⟨fun s hS => ⟨fun hs => ?_, fun hs c hc => ⟨fun d => ?_, fun d hroom => ?_, fun w rest hq => ?_⟩⟩, fun w =>
    ⟨toFormat_binary64 w, toFormat_binary64 w, toFormat_binary32 w, toFormat_binary32 w⟩⟩
  · rw [← latencyWord_of_no_stage hS]
    exact command_has_effect (hs.ready rfl rfl) rfl rfl
  · rw [exec_osUp hs hc, upEffect_of_no_stage hS]
  · exact exec_osWr hs hc d (by simpa [hS] using hroom)
  · rw [exec_osDown hs hc (by simp [hS, hq]), downEffect_of_no_stage hS hq]

/-! ### OS.WRT (R202) -/

/-- The fields of `OS.WRT` name a tap the block has: a stage, a path, and an index where the path has one. -/
def State.HasTap (s : State) (st : BitVec 4) (idx sub : BitVec 8) : Prop :=
  st.toNat < 6 ∧ sub.toNat ≤ 3 ∧ (sub.toNat ≤ 1 → idx.toNat < s.par.kMax)

/-- The own checks of `OS.WRT`. -/
def osWrtChecks (s : State) (st : BitVec 4) (idx sub : BitVec 8) : List (Bool × ErrCode) :=
  [(decide (6 ≤ st.toNat), .index), (decide (3 < sub.toNat), .index),
   (decide (sub.toNat ≤ 1) && decide (s.par.kMax ≤ idx.toNat), .index)]

/-- The state `OS.WRT` leaves when it writes `v`. -/
def osWrtEffect (s : State) (st : BitVec 4) (idx sub : BitVec 8) (v : Word) : State :=
  { s.setStage st.toNat (writeTap (s.stage st.toNat) idx.toNat sub.toNat v) with prepared := false }

section
variable {s : State} {st : BitVec 4} {idx sub : BitVec 8} {d : Word}

theorem exec_osWrt_eq_command (s : State) (st : BitVec 4) (idx sub : BitVec 8) (d : Word) : exec (.osWrt st idx sub d) s
    = command (.osWrt st idx sub d) s (osWrtChecks s st idx sub) (osWrtEffect s st idx sub (narrow s.fpu 0 d)) := rfl

theorem firstFailure_osWrtChecks_of_hasTap (h : s.HasTap st idx sub) :
    firstFailure (osWrtChecks s st idx sub) = none := by
  obtain ⟨hst, hsub, hidx⟩ := h
  simpa [osWrtChecks, firstFailure_eq_none_iff, hst, hsub] using hidx

/-- The three checks raise the same fault. -/
theorem firstFailure_osWrtChecks_of_no_tap
    (h : 6 ≤ st.toNat ∨ 3 < sub.toNat ∨ (sub.toNat ≤ 1 ∧ s.par.kMax ≤ idx.toNat)) :
    firstFailure (osWrtChecks s st idx sub) = some .index := by
  rcases h with hst | hsub | ⟨hsub, hidx⟩
  · simp [osWrtChecks, firstFailure_cons, hst]
  · simp [osWrtChecks, firstFailure_cons, hsub]
  · simp [osWrtChecks, firstFailure_cons, hsub, hidx]

theorem osWrt_wellFormed_iff : (Instr.osWrt st idx sub d).wellFormed = true ↔ idx = 0 ∨ ¬ (sub = 2 ∨ sub = 3) := by
  simp [Instr.wellFormed, tapIndexFieldOk]

/-- A tap of `TU` or `TD`, or a centre tap, whose index field is zero. -/
theorem osWrt_wellFormed_and_hasTap (hst : st.toNat < 6)
    (h : (sub.toNat ≤ 1 ∧ idx.toNat < s.par.kMax) ∨ ((sub = 2 ∨ sub = 3) ∧ idx = 0)) :
    (Instr.osWrt st idx sub d).wellFormed = true ∧ s.HasTap st idx sub := by
  rw [osWrt_wellFormed_iff]
  rcases h with ⟨hsub, hidx⟩ | ⟨hsub, rfl⟩
  · refine ⟨.inr ?_, hst, by omega, fun _ => hidx⟩
    rintro (rfl | rfl) <;> exact absurd hsub (by decide)
  · refine ⟨.inl rfl, hst, ?_⟩
    rcases hsub with rfl | rfl <;> exact ⟨by decide, fun h => absurd h (by decide)⟩

theorem osWrtEffect_stage (hst : st.toNat < 6) (v : Word) :
    (osWrtEffect s st idx sub v).stage st.toNat = writeTap (s.stage st.toNat) idx.toNat sub.toNat v :=
  State.setStage_stage s _ hst

theorem osWrtEffect_frame (hst : st.toNat < 6) (v : Word) : osWrtEffect s st idx sub v
    = { s.setStage st.toNat ((osWrtEffect s st idx sub v).stage st.toNat) with prepared := false } := by
  rw [osWrtEffect_stage hst]
  rfl

end

/-- Settles O33: the clauses on faults are the checks in their order, and the written stage goes path by path. -/
theorem osWrtWritesOneTap : Obligations.OsWrtWritesOneTap := by
  unfold Obligations.OsWrtWritesOneTap
  intro st idx sub d
  refine ⟨onlyOn_of_port rfl, onlyStopped_of_when rfl rfl, fun s hs => ⟨fun hsub hidx => ?_, fun hw hbad => ?_,
    fun hst htap => ?_⟩⟩
  · refine command_raises_field (hs.ready rfl rfl) ?_
    rw [← Bool.not_eq_true, osWrt_wellFormed_iff]
    tauto
  · exact command_raises_own (hs.ready rfl rfl) hw (firstFailure_osWrtChecks_of_no_tap hbad)
  · obtain ⟨hw, hhas⟩ := osWrt_wellFormed_and_hasTap (d := d) hst htap
    have hexec : exec (.osWrt st idx sub d) s = .next (osWrtEffect s st idx sub (narrow s.fpu 0 d)) :=
      command_has_effect (hs.ready rfl rfl) hw (firstFailure_osWrtChecks_of_hasTap hhas)
    refine ⟨_, s.fpu, rfl, hexec, osWrtEffect_frame hst _, ?_⟩
    rw [osWrtEffect_stage hst]
    refine ⟨?_, ?_, ?_, ?_⟩
    · rintro rfl
      exact ⟨rfl, fun k => Bank.read_write _ _ _ _⟩
    · rintro rfl
      exact ⟨rfl, fun k => Bank.read_write _ _ _ _⟩
    · rintro rfl
      rfl
    · rintro rfl
      rfl

end Sys2Proof.Machine

/-!
Which fault a command raises (60_exceptions.md R251 to R254, R259): the codes left to a command's own checks, the fault of a
command as its first failing check, and from them the precision of faults, the order of the checks, and the rights of ports and
modes.
-/

namespace Sys2Proof.Machine

/-! ### The checks of a command (R253) -/

/-- The codes of a command's own checks: what R253 puts after `MODE`. -/
def ErrCode.isOwn : ErrCode → Bool
  | .index | .value | .busy | .underflow | .overflow => true
  | .illegal | .field | .port | .mode => false

theorem ErrCode.code_injective : ∀ {k k' : ErrCode}, k.code = k'.code → k = k' := by
  intro k k'
  cases k <;> cases k' <;> decide

theorem firstFailure_mem {l : List (Bool × ErrCode)} {k : ErrCode} (h : firstFailure l = some k) : (true, k) ∈ l := by
  induction l with
  | nil => cases h
  | cons x rest ih =>
    obtain ⟨b, k'⟩ := x
    cases b with
    | true => cases h; exact List.mem_cons_self
    | false => exact List.mem_cons_of_mem _ (ih h)

theorem isOwn_of_firstFailure {own : List (Bool × ErrCode)} {k : ErrCode} (hown : own.all (·.2.isOwn) = true)
    (h : firstFailure own = some k) : k.isOwn = true :=
  List.all_eq_true.1 hown _ (firstFailure_mem h)

/-- `exec_eq_command` with what R253 and R252 ask of its parts: the own checks raise none of the common codes, and the effect
records no fault. -/
theorem exec_eq_command_own (i : Instr) {s : State} (herr : s.err = false) :
    ∃ own e, exec i s = command i s own e ∧ own.all (·.2.isOwn) = true ∧ e.err = s.err := by
  cases i with
  | nop => exact ⟨[], s, rfl, rfl, rfl⟩
  | rdStat => exact ⟨[], s.emit s.port (statusWord s), if_neg (by simp [herr]), rfl, State.emit_err _ _ _⟩
  | rdPend b => exact ⟨_, _, rfl, rfl, State.emit_err _ _ _⟩
  | cfgWr bnd chs sub d =>
    obtain ⟨hquiet, _⟩ := cfgWrite_quiet s bnd chs sub.toNat (integerOperand d)
    exact ⟨_, _, rfl, rfl, hquiet⟩
  | _ => exact ⟨_, _, rfl, rfl, rfl⟩

/-! ### The fault of a command is its first failing check -/

section
variable {i : Instr} {s t : State}

theorem State.raise_injective {k k' : ErrCode} {h h' : Header} (heq : s.raise k h = s.raise k' h') : k = k' :=
  ErrCode.code_injective (congrArg State.errCode heq)

/-- An effect records no fault, so a fault afterwards is the one of the check that failed. -/
theorem command_faults_iff {own : List (Bool × ErrCode)} {e : State} (herr : s.err = false) (he : e.err = s.err)
    (k : ErrCode) : command i s own e = .next (s.raise k i.header) ↔ firstFailure (commonChecks i s ++ own) = some k := by
  cases hf : firstFailure (commonChecks i s ++ own) with
  | some k' =>
    have hcmd : command i s own e = .next (s.raise k' i.header) := by simp [command, herr, hf]
    rw [hcmd, Host.Outcome.next.injEq, Option.some.injEq]
    exact ⟨State.raise_injective, fun hk => hk ▸ rfl⟩
  | none =>
    have hcmd : command i s own e = .next e := by simp [command, herr, hf]
    rw [hcmd, Host.Outcome.next.injEq]
    refine ⟨fun hraise => ?_, nofun⟩
    rw [hraise, State.raise_err, herr] at he
    cases he

theorem exec_faults_iff (i : Instr) (herr : s.err = false) : ∃ own : List (Bool × ErrCode), own.all (·.2.isOwn) = true
    ∧ ∀ k, Faults i s k ↔ firstFailure (commonChecks i s ++ own) = some k := by
  obtain ⟨own, e, hexec, hown, he⟩ := exec_eq_command_own i herr
  refine ⟨own, hown, fun k => ?_⟩
  rw [Faults, hexec]
  exact command_faults_iff herr he k

/-- `PORT` is the first check. -/
theorem faults_port_iff (herr : s.err = false) : Faults i s .port ↔ portOk i.op.port s.port = false := by
  obtain ⟨own, hown, hiff⟩ := exec_faults_iff i herr
  have hnot : firstFailure own ≠ some .port := fun h => nomatch isOwn_of_firstFailure hown h
  rw [hiff]
  cases hp : portOk i.op.port s.port with
  | false => simp [commonChecks, hp]
  | true => simp [commonChecks, firstFailure_cons, hp, ite_eq_iff, hnot]

/-- `MODE` comes after `PORT` and `FIELD`. -/
theorem faults_mode_iff (herr : s.err = false) : Faults i s .mode ↔
    portOk i.op.port s.port = true ∧ i.wellFormed = true ∧ modeOk i.op.when s = false := by
  obtain ⟨own, hown, hiff⟩ := exec_faults_iff i herr
  have hnot : firstFailure own ≠ some .mode := fun h => nomatch isOwn_of_firstFailure hown h
  rw [hiff]
  cases hp : portOk i.op.port s.port with
  | false => simp [commonChecks, hp]
  | true =>
    cases hw : i.wellFormed with
    | false => simp [commonChecks, hp, hw]
    | true => simp [commonChecks, firstFailure_cons, hp, hw, hnot]

/-- `FIELD` comes after `PORT` and before `MODE`. -/
theorem faults_field_of_not_wellFormed (herr : s.err = false) (hp : portOk i.op.port s.port = true)
    (hw : i.wellFormed = false) : Faults i s .field := by
  obtain ⟨own, _, hiff⟩ := exec_faults_iff i herr
  rw [hiff]
  simp [commonChecks, hp, hw]

/-- A command after which a fault is recorded made the four writes of R252 and no other. -/
theorem exec_raises_of_err (herr : s.err = false) (h : exec i s = .next t) (ht : t.err = true) :
    ∃ k, t = s.raise k i.header := by
  obtain ⟨own, e, hexec, _, he⟩ := exec_eq_command_own i herr
  rw [hexec] at h
  rcases command_inv h with ⟨herr', _⟩ | ⟨_, hraise⟩ | ⟨_, _, _, _, _, rfl⟩
  · rw [herr] at herr'; cases herr'
  · exact hraise
  · rw [he, herr] at ht; cases ht

end

theorem header_of_decode {k : Cmd} {i : Instr} (h : decode k = .ok i) : i.header = k.h :=
  congrArg Cmd.h (encode_of_decode h)

/-! ### A step that raises a fault (R252) -/

theorem accept_raise_eq (s : State) (p : Port) (code : ErrCode) (h : Header) : (s.accept p).raise code h
    = { s.accept p with err := true, errCode := code.code, errCmd := h, errPort := p } := by
  cases p <;> rfl

/-- Settles O41: neither accepting a command nor its effect records a fault, so a fault after the step is the `raise` of its
instruction or of its rejected words. -/
theorem faultsArePrecise : Obligations.FaultsArePrecise := by
  unfold Obligations.FaultsArePrecise
  refine ⟨by decide, fun s t p k herr hr hpick h ht => ⟨ht, ?_⟩⟩
  have haccept : (s.accept p).err = false := by rwa [State.accept_err]
  have hraise : ∃ code, t = (s.accept p).raise code k.h := by
    obtain ⟨p', k', hpick', hstep⟩ := step_inv hr h
    obtain ⟨rfl, rfl⟩ : p = p' ∧ k = k' := by simpa [hpick] using hpick'
    rcases hstep with ⟨i, hi, hexec⟩ | rfl | hraise
    · rw [← header_of_decode hi]
      exact exec_raises_of_err haccept hexec ht
    · rw [haccept] at ht; cases ht
    · exact hraise
  obtain ⟨code, rfl⟩ := hraise
  exact ⟨code, accept_raise_eq s p code k.h⟩

/-! ### After a fault (R254) -/

theorem exec_of_err {i : Instr} {s : State} (herr : s.err = true) (hi : i ≠ .rdStat) : exec i s = .next s := by
  cases i with
  | rdStat => exact absurd rfl hi
  | nop => exact exec_nop s
  | _ => exact command_of_err _ _ herr

theorem runWords_of_err {k : Cmd} {s : State} (herr : s.err = true) (hk : decode k ≠ .ok .rdStat) :
    runWords k s = .next s := by
  have hreject (o : Option Op) : rejectWords o k.h s = s := if_pos herr
  rcases runWords_cases k s with ⟨i, hi, hrun⟩ | ⟨_, hrun⟩ | ⟨o, _, hrun⟩
  · rw [hrun]
    exact exec_of_err herr fun hrd => hk (hrd ▸ hi)
  · rw [hrun, hreject]
  · rw [hrun, hreject]

theorem statusWord_accept (s : State) (p : Port) : statusWord (s.accept p) = statusWord s := by cases p <;> rfl

/-- Settles O42: of all words only one pair decodes to `RD.STAT`, and it answers on the port that moved. -/
theorem failStopAfterFault : Obligations.FailStopAfterFault := by
  unfold Obligations.FailStopAfterFault
  intro s p k herr hr hpick
  have hwords : encode .rdStat = { h := 0x06000000, d := 0 } := by decide
  rw [step_of_pick hr hpick, ← hwords]
  refine ⟨fun hk => ?_, fun hk => ?_⟩
  · rw [runWords_ok (decode_eq_ok_iff.2 hk.symm), exec_rdStat, State.accept_port, statusWord_accept]
  · exact runWords_of_err (by rwa [State.accept_err]) fun hdec => hk (encode_of_decode hdec).symm

/-! ### The order of the checks on words (R86, R253) -/

section
variable {k : Cmd} {o : Op} {s : State}

/-- The header a command's fault records is the one of its words (R251). -/
theorem runWords_of_faults {i : Instr} {code : ErrCode} (hdec : decode k = .ok i) (h : Faults i s code) :
    runWords k s = .next (s.raise code k.h) := by
  rw [runWords_ok hdec, ← header_of_decode hdec]
  exact h

theorem runWords_raises_port (herr : s.err = false) (ho : Op.ofCode (hdrOp k.h) = some o)
    (hp : portOk o.port s.port = false) : runWords k s = .next (s.raise .port k.h) := by
  have hdec := decode_of_ofCode_some ho
  split at hdec
  · simp [runWords, hdec, rejectWords, herr, hp]
  · exact runWords_of_faults hdec ((faults_port_iff herr).2 (by rwa [Op.build_op]))

theorem runWords_raises_field (herr : s.err = false) (ho : Op.ofCode (hdrOp k.h) = some o)
    (hp : portOk o.port s.port = true)
    (hbad : k.h &&& o.mask ≠ o.pattern ∨ (o.noOperand = true ∧ k.d ≠ 0) ∨ (o.build k).wellFormed = false) :
    runWords k s = .next (s.raise .field k.h) := by
  have hdec := decode_of_ofCode_some ho
  split at hdec
  · simp [runWords, hdec, rejectWords, herr, hp]
  · next hlegal =>
    have hw : (o.build k).wellFormed = false := by tauto
    exact runWords_of_faults hdec (faults_field_of_not_wellFormed herr (by rwa [Op.build_op]) hw)

theorem runWords_raises_mode (herr : s.err = false) (ho : Op.ofCode (hdrOp k.h) = some o)
    (hp : portOk o.port s.port = true) (hmask : k.h &&& o.mask = o.pattern) (hd : o.noOperand = true → k.d = 0)
    (hw : (o.build k).wellFormed = true) (hm : modeOk o.when s = false) :
    runWords k s = .next (s.raise .mode k.h) := by
  have hdec := decode_of_ofCode_some ho
  rw [if_neg (by tauto)] at hdec
  exact runWords_of_faults hdec ((faults_mode_iff herr).2 (by simpa only [Op.build_op] using ⟨hp, hw, hm⟩))

end

/-- Settles O43: one rule per check, in the order of R253. -/
theorem checksComeInOrder : Obligations.ChecksComeInOrder := by
  unfold Obligations.ChecksComeInOrder
  exact fun k s herr => ⟨fun ho => runWords_of_illegal (decode_of_ofCode_none ho) herr, fun o ho =>
    ⟨runWords_raises_port herr ho, runWords_raises_field herr ho, runWords_raises_mode herr ho⟩⟩

/-! ### The rights of ports and modes (R259) -/

/-- The rows without a condition on `sub` (R85). -/
theorem wellFormed_of_op {i : Instr} (h : i.op ∉ [Op.cfgWr, .osWrt, .bqRds]) : i.wellFormed = true := by
  cases i with
  | cfgWr _ _ _ _ | osWrt _ _ _ _ | bqRds _ _ _ => simp [Instr.op] at h
  | _ => rfl

section
variable {i : Instr} {s : State} {q : Port}

theorem not_faults_port_of_ok (herr : s.err = false) (hp : portOk i.op.port s.port = true) : ¬ Faults i s .port := by
  rw [faults_port_iff herr, hp]
  exact nofun

theorem not_faults_mode_of_always (herr : s.err = false) (hwhen : i.op.when = .always) : ¬ Faults i s .mode := by
  rw [faults_mode_iff herr, hwhen]
  rintro ⟨_, _, hm⟩
  cases hm

/-- On its port and well-formed, a command raises `MODE` exactly where its mode condition fails. -/
theorem faults_mode_iff_of_port (herr : s.err = false) (hport : i.op.port = some q) (hp : s.port = q)
    (hw : i.wellFormed = true) : Faults i s .mode ↔ modeOk i.op.when s = false := by
  rw [faults_mode_iff herr]
  simp [portOk_of_eq hport hp, hw]

/-- The rights of a well-formed command of one port: `PORT` on the other one, and on its own `MODE` outside its mode. -/
theorem rights_of_one_port {p : Port} {outside : Prop} (herr : s.err = false) (hport : i.op.port = some q) (hpq : p ≠ q)
    (hw : i.wellFormed = true) (hmode : modeOk i.op.when s = false ↔ outside) :
    (s.port = p → Faults i s .port) ∧ (s.port = q → (outside ↔ Faults i s .mode)) := by
  refine ⟨fun hp => onlyOn_of_port hport s herr (hp ▸ hpq), fun hp => ?_⟩
  rw [faults_mode_iff_of_port herr hport hp hw, hmode]

end

/-- The rows that are legal on both ports and in every mode. -/
theorem rights_of_both_ports : ∀ o ∈ [Op.nop, .rdStat, .rdPend], o.port = none ∧ o.when = .always := by decide

theorem rights_of_configuration : ∀ o ∈ [Op.cfgWr, .prepare, .osWrt], o.port = some .c ∧ o.when = .stopped := by decide

theorem rights_of_control : ∀ o ∈ [Op.rdLat, .prWr, .bqWrc, .bqWrn, .bqCommit, .bqRstreq, .bqSnap, .bqRds],
    o.port = some .c ∧ o.when = .always := by decide

theorem rights_of_processing : ∀ o ∈ [Op.blk, .bqReset, .bqProc, .rmsAcc, .rmsPush, .rmsGet, .rmsReset, .knEval, .foStep,
    .foReset, .dyRun, .osUp, .osWr, .osDown, .osReset],
    o.port = some .a ∧ o.when = .running ∧ o ∉ [Op.cfgWr, .osWrt, .bqRds] := by decide

/-- Settles O44: for each group of rows, the port and the mode that the opcode map gives it. -/
theorem rightsOfPortsAndModes : Obligations.RightsOfPortsAndModes := by
  unfold Obligations.RightsOfPortsAndModes
  intro i s herr
  have hother (hport : i.op.port = some .c) (hp : s.port = .a) : Faults i s .port :=
    onlyOn_of_port hport s herr (by rw [hp]; nofun)
  refine ⟨fun hi => ?_, fun hi => ?_, fun hi => ?_, fun hi => ?_, fun hi => ?_, fun hi => ?_⟩
  · obtain ⟨hport, hwhen⟩ := rights_of_both_ports _ hi
    exact ⟨not_faults_port_of_ok herr (by rw [hport]; rfl), not_faults_mode_of_always herr hwhen⟩
  · obtain ⟨hport, hwhen⟩ := rights_of_configuration _ hi
    refine ⟨hother hport, fun hp hw => ?_⟩
    rw [faults_mode_iff_of_port herr hport hp hw, hwhen]
    simp [modeOk]
  · refine rights_of_one_port herr (by rw [hi]; rfl) nofun (wellFormed_of_op (by rw [hi]; decide)) ?_
    simp [hi, modeOk, Op.when]
  · refine rights_of_one_port herr (by rw [hi]; rfl) nofun (wellFormed_of_op (by rw [hi]; decide)) ?_
    simp [hi, modeOk, Op.when]
  · obtain ⟨hport, hwhen⟩ := rights_of_control _ hi
    exact ⟨hother hport, fun hp =>
      ⟨not_faults_port_of_ok herr (portOk_of_eq hport hp), not_faults_mode_of_always herr hwhen⟩⟩
  · obtain ⟨hport, hwhen, hsub⟩ := rights_of_processing _ hi
    exact rights_of_one_port herr hport nofun (wellFormed_of_op hsub) (by rw [hwhen]; rfl)

end Sys2Proof.Machine

/-!
Hardware reset (70_reset_and_hazards.md R275; 10_state.md R42): the values of a band, a stage and a channel after it, the whole
state, and the step that resets.
-/

namespace Sys2Proof.Machine

/-- Both copies of the parameters hold the same values (R25). -/
theorem Band.reset_atReset (p : Params) : (Band.reset p).AtReset p := by
  refine ⟨rfl, rfl, rfl, rfl, ?_, rfl, rfl, rfl, rfl, rfl, rfl, rfl, rfl, fun n => ⟨rfl, rfl, rfl, rfl, rfl, rfl⟩,
    ⟨_, rfl, rfl⟩, rfl, rfl, rfl, rfl, rfl, rfl, rfl, rfl, rfl⟩
  rintro a (rfl | rfl) <;> exact ⟨rfl, rfl, rfl, rfl, rfl, rfl, rfl, rfl, rfl, rfl⟩

theorem Chan.reset_lines (n k : Nat) : (lineAt Chan.reset.ul n).read k = 0 ∧ (lineAt Chan.reset.dl n).read k = 0
    ∧ (lineAt Chan.reset.cl n).read k = 0 := by
  have hline : (lineAt (Vector.replicate 6 []) n).read k = 0 := by rw [lineAt_replicate, Bank.read_nil]
  exact ⟨hline, hline, hline⟩

theorem State.resetWith_atReset (p : Params) : (State.resetWith p).AtReset := by
  refine ⟨rfl, rfl, rfl, rfl, rfl, rfl, rfl, rfl, rfl, fun b => ?_, fun n _ => ?_, fun c => ?_, rfl, rfl⟩
  · rw [State.resetWith_band]
    exact Band.reset_atReset p
  · rw [State.resetWith_stage]
    exact ⟨rfl, rfl, rfl, rfl, fun _ => ⟨rfl, rfl⟩⟩
  · rw [State.resetWith_chan]
    exact ⟨rfl, fun n k _ => Chan.reset_lines n k⟩

/-- The block's state after a reset is that of `resetWith`, whatever it was before. -/
theorem State.hardwareReset_atReset (s : State) : s.hardwareReset.AtReset := State.resetWith_atReset s.par

theorem step_of_reset {s : State} (hr : s.resetDueNow = true) : step s = .next s.hardwareReset := if_pos hr

/-- Without a reset a recorded fault stays: the block is fail-stop (R254, R255). -/
theorem step_keeps_err {s t : State} (hr : s.resetDueNow = false) (herr : s.err = true) (h : step s = .next t) :
    t.err = true := by
  obtain ⟨p, k, hpick, _⟩ := step_inv hr h
  obtain ⟨hstat, hother⟩ := failStopAfterFault s p k herr hr hpick
  by_cases hk : k = { h := 0x06000000, d := 0 }
  · cases (hstat hk).symm.trans h
    rwa [State.emit_err, State.accept_err]
  · cases (hother hk).symm.trans h
    rwa [State.accept_err]

/-- Settles O48: the reset state holds the table's values, a step with the reset input answers it, and every other step keeps
`ERR`. -/
theorem resetLeavesTableValues : Obligations.ResetLeavesTableValues := by
  unfold Obligations.ResetLeavesTableValues
  refine ⟨fun p => ⟨State.resetWith_atReset p, rfl⟩, State.resetWith_atReset _, fun s hr => ?_, fun s t => step_keeps_err⟩
  exact ⟨s.hardwareReset, step_of_reset hr, s.hardwareReset_atReset, rfl, rfl, rfl, rfl, rfl⟩

end Sys2Proof.Machine
